-- ==== Sys2Proof/Word.lean ====
section
/-! DEFINITION. The word types of HBSC: a byte is 8 bits (spec/20_memory.md R67), a command word 32 (spec/30_encoding.md R80),
the registers 16, 32 or 64 (spec/10_state.md R22). -/

namespace Sys2Proof

/-- One byte of a buffer, a symbol, a tree byte (R67, R19). -/
abbrev Byte := BitVec 8

/-- The signed 16-bit fields `NODECNT` and `SLI`, and the unsigned `CLEN` and `TNODES` (R22). -/
abbrev Half := BitVec 16

/-- A command word (R80), a checksum (R31). -/
abbrev Word := BitVec 32

/-- A 64-bit register, count or weight (R22, R36). -/
abbrev DWord := BitVec 64

end Sys2Proof
end

