-- ==== Sys2Proof/Syntax.lean ====
section
/-! DEFINITION. The commands of the block, one constructor per row of spec/opcode_table.json
(spec/30_encoding.md R82), and the three fields of a command word (R81). -/

namespace Sys2Proof

/-- The twenty-one commands; the only operand is the symbol of `CT.LOAD` and `PK.APPEND` (R83). -/
inductive Instr where
  | nop
  | reset
  | clrf
  | ctClr
  | ctLoad (symbol : Byte)
  | pkRst
  | pkAppend (symbol : Byte)
  | pkEncode
  | pkFlush
  | fqClr
  | fqCount
  | trBuild
  | trCodes
  | trSer
  | trDeser
  | ckSum
  | cnBuild
  | cnParse
  | upDecode
  | compress
  | decompress
deriving DecidableEq, Repr

/-- The fields of a command word, format `C` (R81). -/
structure CommandFields where
  op  : BitVec 8
  arg : Byte
  rsv : BitVec 16
deriving DecidableEq, Repr

/-- The fields of a command: its opcode by R82's map, its symbol or 0, and zero reserved bits. -/
def Instr.fields : Instr → CommandFields
  | .nop        => ⟨0x00, 0, 0⟩
  | .reset      => ⟨0x01, 0, 0⟩
  | .clrf       => ⟨0x02, 0, 0⟩
  | .ctClr      => ⟨0x10, 0, 0⟩
  | .ctLoad s   => ⟨0x11, s, 0⟩
  | .pkRst      => ⟨0x20, 0, 0⟩
  | .pkAppend s => ⟨0x21, s, 0⟩
  | .pkEncode   => ⟨0x22, 0, 0⟩
  | .pkFlush    => ⟨0x23, 0, 0⟩
  | .fqClr      => ⟨0x30, 0, 0⟩
  | .fqCount    => ⟨0x31, 0, 0⟩
  | .trBuild    => ⟨0x32, 0, 0⟩
  | .trCodes    => ⟨0x33, 0, 0⟩
  | .trSer      => ⟨0x40, 0, 0⟩
  | .trDeser    => ⟨0x41, 0, 0⟩
  | .ckSum      => ⟨0x50, 0, 0⟩
  | .cnBuild    => ⟨0x51, 0, 0⟩
  | .cnParse    => ⟨0x52, 0, 0⟩
  | .upDecode   => ⟨0x60, 0, 0⟩
  | .compress   => ⟨0x70, 0, 0⟩
  | .decompress => ⟨0x71, 0, 0⟩

end Sys2Proof
end

