-- ==== Sys2Proof/WellFormed.lean ====
section
/-! DEFINITION. Which command words are legal, field by field (spec/30_encoding.md R81, R84): three checks. -/

namespace Sys2Proof

/-- The opcodes of the two commands that take a symbol (R81). -/
def symbolOpcodes : List (BitVec 8) := [0x11, 0x21]

/-- The opcodes of the nineteen commands whose `arg` must be 0 (R82). -/
def plainOpcodes : List (BitVec 8) :=
  [0x00, 0x01, 0x02, 0x10, 0x20, 0x22, 0x23, 0x30, 0x31, 0x32, 0x33,
   0x40, 0x41, 0x50, 0x51, 0x52, 0x60, 0x70, 0x71]

/-- Check 1: the reserved field is 0. -/
def CommandFields.reservedOk (f : CommandFields) : Bool := f.rsv == 0

/-- Check 2: the opcode is one of the twenty-one. -/
def CommandFields.opcodeOk (f : CommandFields) : Bool :=
  symbolOpcodes.contains f.op || plainOpcodes.contains f.op

/-- Check 3: `arg` is 0 unless the command takes a symbol. -/
def CommandFields.argOk (f : CommandFields) : Bool :=
  f.arg == 0 || !plainOpcodes.contains f.op

/-- The word with these fields is a legal command word (R84, read the other way). -/
def CommandFields.wf (f : CommandFields) : Bool := f.reservedOk && f.opcodeOk && f.argOk

/-- A command is well-formed when its fields are. Every term of Instr is: its operand is a byte by type (R83). -/
def Instr.wf (i : Instr) : Bool := i.fields.wf

end Sys2Proof
end

