-- ==== Sys2Proof/Decode.lean ====
section
/-! DEFINITION. Decoding a 32-bit command word and encoding a command (spec/30_encoding.md R81 to R85). -/

namespace Sys2Proof

/-- Why a word is illegal (R84). -/
inductive Illegal where
  /-- `rsv` is not 0. -/
  | reservedField
  /-- `op` is not one of the twenty-one. -/
  | unassignedOpcode
  /-- `arg` is not 0 on a command that takes no symbol. -/
  | argumentNotZero
deriving DecidableEq, Repr

/-- `op = word[7:0]`, `arg = word[15:8]`, `rsv = word[31:16]` (R83). -/
def fieldsOf (w : Word) : CommandFields :=
  { op := w.extractLsb' 0 8, arg := w.extractLsb' 8 8, rsv := w.extractLsb' 16 16 }

/-- A command that takes no symbol: `arg` must be 0 (R81). -/
def plain (arg : Byte) (i : Instr) : Except Illegal Instr :=
  if arg = 0 then .ok i else .error .argumentNotZero

/-- R82's opcode map. -/
def decodeFields (f : CommandFields) : Except Illegal Instr :=
  if f.rsv = 0 then
    match f.op with
    | 0x00 => plain f.arg .nop
    | 0x01 => plain f.arg .reset
    | 0x02 => plain f.arg .clrf
    | 0x10 => plain f.arg .ctClr
    | 0x11 => .ok (.ctLoad f.arg)
    | 0x20 => plain f.arg .pkRst
    | 0x21 => .ok (.pkAppend f.arg)
    | 0x22 => plain f.arg .pkEncode
    | 0x23 => plain f.arg .pkFlush
    | 0x30 => plain f.arg .fqClr
    | 0x31 => plain f.arg .fqCount
    | 0x32 => plain f.arg .trBuild
    | 0x33 => plain f.arg .trCodes
    | 0x40 => plain f.arg .trSer
    | 0x41 => plain f.arg .trDeser
    | 0x50 => plain f.arg .ckSum
    | 0x51 => plain f.arg .cnBuild
    | 0x52 => plain f.arg .cnParse
    | 0x60 => plain f.arg .upDecode
    | 0x70 => plain f.arg .compress
    | 0x71 => plain f.arg .decompress
    | _    => .error .unassignedOpcode
  else .error .reservedField

/-- The command a word encodes, or why it is illegal: total on every 32-bit word. -/
def decode (w : Word) : Except Illegal Instr := decodeFields (fieldsOf w)

/-- The word with these fields (R81). -/
def wordOf (f : CommandFields) : Word := (f.rsv ++ f.arg) ++ f.op

/-- The command word of a command (R82, R86: `op | (arg << 8)`). -/
def encode (i : Instr) : Word := wordOf i.fields

/-- The instruction the decoder reads from a row's bits; the bits above `nbits` are 0. -/
def decodeTableWord (nbits w : Nat) : Option Instr :=
  (decode (BitVec.ofNat 32 (w % 2 ^ nbits))).toOption

end Sys2Proof
end

