-- ==== Sys2Proof/Config.lean ====
section
/-! DEFINITION. What is fixed for the block while it runs (spec/10_state.md R54): the named constants of
spec/00_scope.md R9 and R10, the configuration record with the open parameters, and the model's free values. -/

namespace Sys2Proof.Config

/-- `SYMBOLS` of R9: the symbols are the byte values. -/
abbrev symbolCount : Nat := 256

/-- `MAX_CODE_BITS` of R9. -/
abbrev maxCodeBits : Nat := 256

/-- `SENTINEL` of R9, the internal-node marker of a serialised tree. -/
def sentinel : Byte := 0x00

/-- `MAGIC` of R9. -/
abbrev magic : Word := 0xCAFEF00D

/-- `CHUNK` of R9. -/
abbrev chunk : Nat := 8

/-- `CK_MULT` of R9. -/
abbrev ckMult : Word := 31

/-- `NODE_CAP` of R10. -/
abbrev nodeCap : Nat := 32767

/-- `W_COUNT` of R10. -/
abbrev wCount : Nat := 64

/-- The header's size in bytes (spec/30_encoding.md R92). -/
abbrev headerBytes : Nat := 16

/-- The smallest length any container can have (R95). -/
abbrev minContainer : Nat := 28

end Sys2Proof.Config

namespace Sys2Proof

/-- The three named options of the checksum (spec/44_container.md R183). -/
structure ChecksumOptions where
  /-- `CK_AGG_INIT`. -/
  aggInit    : Word
  /-- `CK_BYTE_SIGNED`. -/
  byteSigned : Bool
  /-- `CK_FINAL_EMPTY`. -/
  finalEmpty : Bool
deriving DecidableEq, Repr

/-- The values R183 takes. -/
def ChecksumOptions.reference : ChecksumOptions :=
  { aggInit := 0, byteSigned := false, finalEmpty := false }

/-- The open parameters of R10 and the checksum options (R54). Plain data, carried in State and changed by no step
(log entry 1), so that a claim over every state holds for every configuration. -/
structure Config where
  /-- `IN_CAP`. -/
  inCap  : Nat
  /-- `OUT_CAP`, `none` for unbounded. -/
  outCap : Option Nat
  /-- `PB_CAP`, `none` for unbounded. -/
  pbCap  : Option Nat
  ck     : ChecksumOptions
deriving DecidableEq, Repr

/-- The reference model's parameters (R10, R183). -/
def Config.reference : Config :=
  { inCap := 2 ^ 56 - 1, outCap := none, pbCap := none, ck := ChecksumOptions.reference }

/-! The free values (log entries 5 and 14): what a port answers where the spec states no answer. No body: nothing is known of
them. Each is taken at `State.openAnswers`, so that no two answers are tied to each other. -/

/-- The byte the buffer port reads at an index the buffer does not have. -/
opaque Config.freeByte : Nat → Byte

/-- The length the table port reads for an entry that is `none`. -/
opaque Config.freeLength : Nat → Half

/-- The code words the table port reads for an entry that is `none`. -/
opaque Config.freeWords : Nat → Vector DWord 4

/-- The range R10 requires of `IN_CAP`. -/
abbrev Config.InRange (c : Config) : Prop := 28 ≤ c.inCap ∧ c.inCap ≤ 2 ^ 56 - 1

end Sys2Proof
end

