-- ==== Sys2Proof/Machine/State.lean ====
section
/-! DEFINITION. Everything the spec gives the block to hold (spec/10_state.md), as plain data, and its reset value (R55). -/

namespace Sys2Proof.Machine

/-- The seventeen fault kinds of spec/60_exceptions.md R252, in the order of their codes. -/
inductive FaultKind where
  | limitExceeded
  | truncatedLength
  | magicMismatch
  | contentLengthOverflow
  | checksumMismatch
  | treeRegionOverflow
  | specialLeafIndexRange
  | payloadRegionOverflow
  | stackUnderflow
  | stackResidue
  | emptyTree
  | illegalCommand
  | noTree
  | missingCode
  | emptyFrequencyTable
  | capacity
  | overflow
deriving DecidableEq, Repr

/-- `raise Fault(kind, info)` of spec/00_scope.md R15: what a command ends with instead of its result. -/
structure Raised where
  kind : FaultKind
  info : DWord
deriving DecidableEq, Repr

/-- One code of the code table (R35, spec/40_bitsequence.md R110): the source byte and the code's bits,
root-to-leaf. The `len` of R35 is the length of `bits`. -/
structure BitSequence where
  sym  : Byte
  bits : List Bool
deriving DecidableEq, Repr

/-- A tree value (R37, spec/00_scope.md R16). -/
inductive HuffmanTree where
  | leaf (key : Byte) (weight : DWord)
  | node (weight : DWord) (left right : HuffmanTree)
deriving DecidableEq, Repr

/-- The packer (R30, R41): completed bytes, the partial byte, the running bit count `BITCNT`. -/
structure Packer where
  buf    : List Byte
  part   : Byte
  bitcnt : DWord
deriving DecidableEq, Repr

/-- A byte buffer's contents: strictly rising indices, no byte listed that reads as an unlisted one (Memory.wf). -/
abbrev Memory := List Host.Cell

/-- The four byte-addressed spaces (spec/20_memory.md R67). -/
inductive Buffer where
  | ibuf | obuf | tbuf | pbuf
deriving DecidableEq, Repr

/-- The three buffers the host can write (R67); `OBUF` is read-only to it. -/
inductive HostBuffer where
  | ibuf | tbuf | pbuf
deriving DecidableEq, Repr

/-- One access of the host (spec/20_memory.md R67, R70): a command word on the command port, or an access of the register,
table or buffer port, or a hardware reset (spec/70_reset_and_hazards.md R280). There is no access that writes `CT` (R35). -/
inductive HostAccess where
  | command (w : Word)
  | readReg (number : BitVec 4)
  | writeReg (number : BitVec 4) (v : DWord)
  | readCode (symbol : Byte)
  | readFreq (symbol : Byte)
  | writeFreq (symbol : Byte) (v : DWord)
  | readByte (b : Buffer) (index : Nat)
  | writeByte (b : HostBuffer) (index : Nat) (v : Byte)
  | hardReset
deriving DecidableEq, Repr

/-- What the ports answered to the last access (log entry 3). -/
inductive Reply where
  /-- Nothing has been asked yet, or the last event was a hardware reset. -/
  | none
  /-- A command's completion result (R80): `none` is `OK`, `some k` is `Fault(k)`. -/
  | completion (r : Option FaultKind)
  /-- A register or count. -/
  | data (v : DWord)
  /-- A buffer byte. -/
  | byte (v : Byte)
  /-- A code table entry as (`valid`, `len`, bits in the layout of R32) (R35, spec/40_bitsequence.md R113). -/
  | entry (valid : Bool) (len : Half) (bits : Vector DWord 4)
  /-- A write was made, or ignored. -/
  | written
deriving DecidableEq, Repr

/-- Why the model stops: it never does. No command hangs (spec/70_reset_and_hazards.md R292), no port access faults
(spec/47_system.md R244), and every fault of the spec is a next state with the fault record written. -/
inductive Fault where
deriving DecidableEq, Repr

/-- Why the model refuses. -/
inductive Refusal where
  /-- Raised only by an arm of Machine/Dispatch.lean for a command that has no meaning; no arm does. Safe. -/
  | notModelled (mnemonic : String)
deriving DecidableEq, Repr

/-- The state of the block, with the model's own four fields last (log entries 1 to 3 and 5). -/
structure State where
  /-- `STATUS.TAIL`, bit 2 (R23). -/
  tail    : Bool
  /-- `STATUS.FSTICKY`, bit 3 (R23). -/
  fsticky : Bool
  /-- `STATUS.FKIND`, bits 15:8 (R23), by name; `none` is code 0x00. -/
  fkind   : Option FaultKind
  /-- `FINFO` (R24). -/
  finfo   : DWord
  /-- `ILEN` (R25). -/
  ilen    : DWord
  /-- `OLEN` (R26). -/
  olen    : DWord
  /-- `NODECNT`, signed (R27). -/
  nodecnt : Half
  /-- `SLI`, signed (R28). -/
  sli     : Half
  /-- `PBITS` (R29). -/
  pbits   : DWord
  /-- `CKSUM` (R31). -/
  cksum   : Word
  /-- `CLEN` (R32). -/
  clen    : Half
  /-- `CBITS0` to `CBITS3` (R32). -/
  cbits   : Vector DWord 4
  /-- `BITCNT`, `PK_BUF`, `PK_PART` (R30, R41). -/
  pk      : Packer
  /-- `CT[0..255]` (R35). -/
  ct      : Vector (Option BitSequence) Config.symbolCount
  /-- `FREQ[0..255]` (R36). -/
  freq    : Vector DWord Config.symbolCount
  /-- `TREE` (R37, R38). -/
  tree    : Option HuffmanTree
  /-- `IBUF` (R42). -/
  ibuf    : Memory
  /-- `OBUF` (R43). -/
  obuf    : Memory
  /-- `TBUF` (R44). -/
  tbuf    : Memory
  /-- `PBUF` (R45). -/
  pbuf    : Memory
  /-- The configuration (R54); the model's own field. -/
  cfg     : Config
  /-- The host's accesses still to come, the next one first; the model's own field. -/
  host    : List HostAccess
  /-- The ports' last answer; the model's own field. -/
  reply   : Reply
  /-- How many answers with a free value the ports have given: where the next one is taken (log entries 5 and 14); the
  model's own field. -/
  openAnswers : Nat
deriving DecidableEq, Repr

/-- The packer of a new stream (R41, R55). -/
def Packer.fresh : Packer := { buf := [], part := 0, bitcnt := 0 }

/-- The reset state: the complete list of R55. The last four fields are the model's own (log entries 1 to 3 and 5). -/
def State.reset : State :=
  { tail := false, fsticky := false, fkind := none, finfo := 0
    ilen := 0, olen := 0, nodecnt := 0, sli := 0xFFFF, pbits := 0, cksum := 0, clen := 0
    cbits := Vector.replicate 4 0
    pk := Packer.fresh
    ct := Vector.replicate Config.symbolCount none
    freq := Vector.replicate Config.symbolCount 0
    tree := none
    ibuf := [], obuf := [], tbuf := [], pbuf := []
    cfg := Config.reference, host := [], reply := .none, openAnswers := 0 }

end Sys2Proof.Machine
end

