-- ==== Sys2Proof/Machine/Ops.lean ====
section
/-! DEFINITION. The shared operations: byte memories and their little-endian fields and bits
(spec/20_memory.md R60 to R63), capacities (spec/60_exceptions.md R258), byte sequences, and the fault record
(R251), which is all that taking a fault does on this hardware. -/

namespace Sys2Proof.Machine

/-! ## Byte memories -/

/-- What a byte no entry lists reads as: buffers are all zero at reset (spec/10_state.md R55). -/
abbrev Memory.unlisted : Byte := 0

/-- The canonical form: indices strictly rising, no entry equal to what an unlisted byte reads as. -/
abbrev Memory.wf (m : Memory) : Prop :=
  m.Pairwise (fun p q => p.1 < q.1) ∧ ∀ p ∈ m, p.2 ≠ Memory.unlisted

/-- The byte at an index. -/
def Memory.read : Memory → Nat → Byte
  | [], _ => Memory.unlisted
  | (k, v) :: m, a => if a = k then v else Memory.read m a

/-- `v` listed at `a` in front of `m`, unless it reads the same unlisted. -/
def Memory.list (a : Nat) (v : Byte) (m : Memory) : Memory :=
  if v = Memory.unlisted then m else (a, v) :: m

/-- Write one byte, keeping the canonical form. -/
def Memory.write : Memory → Nat → Byte → Memory
  | [], a, v => Memory.list a v []
  | (k, u) :: m, a, v =>
    if a < k then Memory.list a v ((k, u) :: m)
    else if a = k then Memory.list a v m
    else (k, u) :: Memory.write m a v

/-- The `n` bytes from index `a`. -/
def Memory.readBytes (m : Memory) : Nat → Nat → List Byte
  | _, 0 => []
  | a, n + 1 => m.read a :: Memory.readBytes m (a + 1) n

/-- Write a byte sequence at index `a`, lowest index first. -/
def Memory.writeBytes : Memory → Nat → List Byte → Memory
  | m, _, [] => m
  | m, a, b :: bs => Memory.writeBytes (m.write a b) (a + 1) bs

/-- `BitRead(buf, k)`: bit `k mod 8` of byte `floor(k / 8)` (R62). -/
def Memory.bitRead (m : Memory) (k : Nat) : Bool := (m.read (k / 8)).getLsbD (k % 8)

/-- The `n` stream bits from bit `k`. -/
def Memory.readBits (m : Memory) : Nat → Nat → List Bool
  | _, 0 => []
  | k, n + 1 => m.bitRead k :: Memory.readBits m (k + 1) n

/-! ## Little-endian fields (R60, R61) -/

/-- The number whose bytes, least significant first, are these. -/
def leValue : List Byte → Nat
  | [] => 0
  | b :: bs => b.toNat + 256 * leValue bs

/-- The `n` low bytes of a number, least significant first. -/
def leBytes : Nat → Nat → List Byte
  | 0, _ => []
  | n + 1, v => BitVec.ofNat 8 v :: leBytes n (v / 256)

/-- `MemRead(buf, a, n)` on a buffer. -/
def Memory.readLE (m : Memory) (a n : Nat) : Nat := leValue (m.readBytes a n)

/-- `MemWrite(buf, a, n, v)`. -/
def Memory.writeLE (m : Memory) (a n v : Nat) : Memory := m.writeBytes a (leBytes n v)

/-- `s[a..b)` of spec/00_scope.md R12, by its first index and its length. -/
def slice (bs : List Byte) (a n : Nat) : List Byte := (bs.drop a).take n

/-- `MemRead(R, a, n)` on a named temporary byte sequence (R14). -/
def fieldOf (bs : List Byte) (a n : Nat) : Nat := leValue (slice bs a n)

/-- `ceil8(n)` of R12. -/
def ceil8 (n : Nat) : Nat := n / 8 + if n % 8 ≠ 0 then 1 else 0

/-! ## Buffers and their capacities -/

/-- The contents of a buffer. -/
def State.buffer (s : State) : Buffer → Memory
  | .ibuf => s.ibuf
  | .obuf => s.obuf
  | .tbuf => s.tbuf
  | .pbuf => s.pbuf

/-- The size of a buffer in bytes, `none` for unbounded (spec/10_state.md R42 to R45). -/
def capacityOf (c : Config) : Buffer → Option Nat
  | .ibuf => some c.inCap
  | .obuf => c.outCap
  | .tbuf => some Config.nodeCap
  | .pbuf => c.pbCap

/-- `n` bytes do not fit a capacity. -/
def overCap : Option Nat → Nat → Bool
  | none, _ => false
  | some c, n => decide (c < n)

/-- A command that reads `IBUF` while `ILEN > IN_CAP` faults (R25, R258). -/
def State.inputTooLong (s : State) : Bool := decide (s.cfg.inCap < s.ilen.toNat)

/-- `IBUF[0..ILEN)` (R42). -/
def State.input (s : State) : List Byte := s.ibuf.readBytes 0 s.ilen.toNat

/-! ## The fault record (spec/60_exceptions.md R251)

Taking a fault is one operation: it writes `FKIND`, `FINFO` and `FSTICKY` and nothing else. There is no handler, no saved pc or
status, no mode and no vector (R263), and so no return to model (R264): the block is ready for the next command at once.
`CLRF` clears the sticky flag. -/

/-- A command that completes: `FKIND <- 0x00`, `FINFO <- 0`, `FSTICKY` kept (R251). -/
def completed (s : State) : State := { s with fkind := none, finfo := 0 }

/-- A command that faults: the fault record is written, all else is as before the command (R251). -/
def takeFault (s : State) (f : Raised) : State :=
  { s with fkind := some f.kind, finfo := f.info, fsticky := true }

/-- `STATUS.FSTICKY <- 0` (spec/47_system.md R242). -/
def clearSticky (s : State) : State := { s with fsticky := false }

/-- How every command ends (R251): with its writes and a clean record, or with the fault record and none of its writes. -/
def finish (s : State) : Except Raised State → Host.Outcome State Fault Refusal
  | .ok t => .next (completed t)
  | .error f => .next (takeFault s f)

/-- `raise Fault(kind, info)` (spec/00_scope.md R15), `info` as the 64-bit value `FINFO` holds. -/
def raise {α : Type} (k : FaultKind) (info : Nat) : Except Raised α :=
  .error { kind := k, info := BitVec.ofNat 64 info }

end Sys2Proof.Machine
end

