-- ==== Sys2Proof/Machine/Flags.lean ====
section
/-! DEFINITION. The flags, all of them fields of `STATUS` (spec/10_state.md R23, R34), the fault codes
(spec/60_exceptions.md R252), and what `TNODES` and the tree flags read from `TREE` (R23, R33). -/

namespace Sys2Proof.Machine

/-- The code `FKIND` holds for a fault (R252). -/
def FaultKind.code : FaultKind → BitVec 8
  | .limitExceeded         => 0x01
  | .truncatedLength       => 0x10
  | .magicMismatch         => 0x11
  | .contentLengthOverflow => 0x12
  | .checksumMismatch      => 0x13
  | .treeRegionOverflow    => 0x14
  | .specialLeafIndexRange => 0x15
  | .payloadRegionOverflow => 0x16
  | .stackUnderflow        => 0x20
  | .stackResidue          => 0x21
  | .emptyTree             => 0x22
  | .illegalCommand        => 0x30
  | .noTree                => 0x31
  | .missingCode           => 0x32
  | .emptyFrequencyTable   => 0x33
  | .capacity              => 0x34
  | .overflow              => 0x35

/-- `FKIND` as a number: 0x00 when the last command completed (R23, R252). -/
def faultCode : Option FaultKind → BitVec 8
  | none => 0x00
  | some k => k.code

/-- `nodes(t)` (spec/00_scope.md R16). -/
def HuffmanTree.nodes : HuffmanTree → Nat
  | .leaf _ _ => 1
  | .node _ l r => l.nodes + r.nodes + 1

/-- The tree is a lone Leaf. -/
def HuffmanTree.isLeaf : HuffmanTree → Bool
  | .leaf _ _ => true
  | .node _ _ _ => false

/-- `TREE_VALID` (R23). -/
def State.treeValid (s : State) : Bool := s.tree.isSome

/-- `ROOT_LEAF` (R23). -/
def State.rootLeaf (s : State) : Bool :=
  match s.tree with
  | some t => t.isLeaf
  | none => false

/-- `TNODES` (R33). -/
def State.tnodes (s : State) : Half :=
  match s.tree with
  | some t => BitVec.ofNat 16 t.nodes
  | none => 0

/-- `STATUS` (R23): bits 7:4 and 31:16 reserved, zero. -/
def State.status (s : State) : Word :=
  (((((0 : BitVec 16) ++ faultCode s.fkind) ++ (0 : BitVec 4)) ++ BitVec.ofBool s.fsticky)
    ++ BitVec.ofBool s.tail) ++ BitVec.ofBool s.rootLeaf ++ BitVec.ofBool s.treeValid

end Sys2Proof.Machine
end

