-- ==== Sys2Proof/Machine/Operands.lean ====
section
/-! DEFINITION. Every way a command or a port reaches an operand: the symbol-indexed tables (spec/10_state.md R35, R36),
the staged code of `CT.LOAD` (R32), the sixteen registers of the register port (R22). -/

namespace Sys2Proof.Machine

/-! ## Tables, indexed by symbol -/

/-- `T[s]`. -/
def tableGet {α : Type} (t : Vector α Config.symbolCount) (s : Byte) : α := t[s.toNat]'(s.isLt)

/-- `T[s] <- x`. -/
def tableSet {α : Type} (t : Vector α Config.symbolCount) (s : Byte) (x : α) : Vector α Config.symbolCount := t.set s.toNat x s.isLt

/-- The symbols in ascending order. -/
def symbols : List Byte := (List.range Config.symbolCount).map (BitVec.ofNat 8)

/-- The entries of a table, each with its symbol, in ascending order. -/
def tableEntries {α : Type} (t : Vector α Config.symbolCount) : List (Byte × α) := symbols.zip t.toList

/-- The empty code table. -/
def emptyCodes : Vector (Option BitSequence) Config.symbolCount := Vector.replicate Config.symbolCount none

/-- The empty frequency table. -/
def zeroCounts : Vector DWord Config.symbolCount := Vector.replicate Config.symbolCount 0

/-! ## The staged code (R32) -/

/-- Bit `j` of the staged code: bit `j mod 64` of `CBITS(floor(j/64))`; there is none from bit 256 on. -/
def stagedBit (cbits : Vector DWord 4) (j : Nat) : Bool :=
  match cbits[j / 64]? with
  | some w => w.getLsbD (j % 64)
  | none => false

/-- The first `n` bits of the staged code. -/
def stagedBits (cbits : Vector DWord 4) (n : Nat) : List Bool := (List.range n).map (stagedBit cbits)

/-- Word `q` of a code in the layout of R32, zeros from its length on (spec/40_bitsequence.md R113). -/
def codeWord (bits : List Bool) (q : Nat) : DWord :=
  BitVec.ofNat 64 (((List.range 64).map fun r => if bits.getD (64 * q + r) false then 2 ^ r else 0).sum)

/-- A code in the layout of R32. -/
def codeWords (bits : List Bool) : Vector DWord 4 :=
  #v[codeWord bits 0, codeWord bits 1, codeWord bits 2, codeWord bits 3]

/-! ## The register port (R22) -/

/-- The sixteen registers. -/
inductive Register where
  | status | finfo | ilen | olen | nodecnt | sli | pbits | bitcnt | cksum | clen
  | cbits0 | cbits1 | cbits2 | cbits3 | tnodes | reserved
deriving DecidableEq, Repr

/-- The register with a number (R22's map). -/
def Register.ofNumber (n : BitVec 4) : Register :=
  match n with
  | 0 => .status
  | 1 => .finfo
  | 2 => .ilen
  | 3 => .olen
  | 4 => .nodecnt
  | 5 => .sli
  | 6 => .pbits
  | 7 => .bitcnt
  | 8 => .cksum
  | 9 => .clen
  | 10 => .cbits0
  | 11 => .cbits1
  | 12 => .cbits2
  | 13 => .cbits3
  | 14 => .tnodes
  | _ => .reserved

/-- The number of a register. -/
def Register.number : Register → BitVec 4
  | .status => 0
  | .finfo => 1
  | .ilen => 2
  | .olen => 3
  | .nodecnt => 4
  | .sli => 5
  | .pbits => 6
  | .bitcnt => 7
  | .cksum => 8
  | .clen => 9
  | .cbits0 => 10
  | .cbits1 => 11
  | .cbits2 => 12
  | .cbits3 => 13
  | .tnodes => 14
  | .reserved => 15

/-- A register as the port reads it, zero-extended to 64 bits (R22). -/
def State.readRegister (s : State) : Register → DWord
  | .status   => s.status.setWidth 64
  | .finfo    => s.finfo
  | .ilen     => s.ilen
  | .olen     => s.olen
  | .nodecnt  => s.nodecnt.setWidth 64
  | .sli      => s.sli.setWidth 64
  | .pbits    => s.pbits
  | .bitcnt   => s.pk.bitcnt
  | .cksum    => s.cksum.setWidth 64
  | .clen     => s.clen.setWidth 64
  | .cbits0   => s.cbits[0]
  | .cbits1   => s.cbits[1]
  | .cbits2   => s.cbits[2]
  | .cbits3   => s.cbits[3]
  | .tnodes   => s.tnodes.setWidth 64
  | .reserved => 0

/-- A write through the register port: a read-write register keeps the low bits of its width, every other ignores it (R22). -/
def State.writeRegister (s : State) (r : Register) (v : DWord) : State :=
  match r with
  | .ilen    => { s with ilen := v }
  | .nodecnt => { s with nodecnt := v.setWidth 16 }
  | .sli     => { s with sli := v.setWidth 16 }
  | .pbits   => { s with pbits := v }
  | .clen    => { s with clen := v.setWidth 16 }
  | .cbits0  => { s with cbits := s.cbits.set 0 v }
  | .cbits1  => { s with cbits := s.cbits.set 1 v }
  | .cbits2  => { s with cbits := s.cbits.set 2 v }
  | .cbits3  => { s with cbits := s.cbits.set 3 v }
  | .status | .finfo | .olen | .bitcnt | .cksum | .tnodes | .reserved => s

end Sys2Proof.Machine
end

