-- ==== Sys2Proof/Machine/CodeTable.lean ====
section
/-! DEFINITION. The code table commands `CT.CLR` and `CT.LOAD` (spec/40_bitsequence.md R111, R112). -/

namespace Sys2Proof.Machine

/-- `for s in 0..255: CT[s] <- none` (R111). -/
def ctClr (s : State) : State := { s with ct := emptyCodes }

/-- `CT.LOAD`'s pseudocode (R112). -/
def ctLoad (sym : Byte) (s : State) : Except Raised State :=
  let n := s.clen.toNat
  if n > Config.maxCodeBits then raise .limitExceeded n
  else .ok { s with ct := tableSet s.ct sym (some { sym := sym, bits := stagedBits s.cbits n }) }

/-- `CT.CLR` (R111). -/
def execCtClr (s : State) : Host.Outcome State Fault Refusal := finish s (.ok (ctClr s))

/-- `CT.LOAD s` (R112). -/
def execCtLoad (sym : Byte) (s : State) : Host.Outcome State Fault Refusal := finish s (ctLoad sym s)

end Sys2Proof.Machine
end

