-- ==== Sys2Proof/Machine/Container.lean ====
section
/-! DEFINITION. The checksum and the container framing `CK.SUM`, `CN.BUILD`, `CN.PARSE`
(spec/44_container.md R180 to R196). -/

namespace Sys2Proof.Machine

/-! ## The checksum (R181, R183) -/

/-- The checksum's working state (spec/10_state.md R48). -/
structure ChecksumState where
  agg : Word
  acc : Word
  cnt : Nat
deriving DecidableEq, Repr

/-- The byte as the recurrence adds it: unsigned, or signed under `CK_BYTE_SIGNED` (R183). -/
def checksumByte (o : ChecksumOptions) (b : Byte) : Word :=
  if o.byteSigned then b.signExtend 32 else b.setWidth 32

/-- One byte: at a chunk boundary the full chunk is XORed in first (R181). -/
def checksumStep (o : ChecksumOptions) (c : ChecksumState) (b : Byte) : ChecksumState :=
  let c := if c.cnt = Config.chunk then { agg := c.agg ^^^ c.acc, acc := 1, cnt := 0 } else c
  { c with acc := Config.ckMult * c.acc + checksumByte o b, cnt := c.cnt + 1 }

/-- After all bytes: the final chunk, full or partial, is XORed in; under `CK_FINAL_EMPTY` a full last chunk is followed by the
untouched accumulator 1 (R183). -/
def checksumEnd (o : ChecksumOptions) (c : ChecksumState) : Word :=
  if o.finalEmpty ∧ c.cnt = Config.chunk then c.agg ^^^ c.acc ^^^ 1 else c.agg ^^^ c.acc

/-- `Checksum(bytes)` (R181). -/
def checksum (o : ChecksumOptions) (bytes : List Byte) : Word :=
  checksumEnd o (bytes.foldl (checksumStep o) { agg := o.aggInit, acc := 1, cnt := 0 })

/-- `CK.SUM`'s pseudocode (R180). -/
def ckSum (s : State) : Except Raised State :=
  if s.inputTooLong then raise .capacity 1
  else .ok { s with cksum := checksum s.cfg.ck s.input }

/-! ## Assembly (R185, R186) -/

/-- `Content()`, the content region (R186). -/
def content (s : State) : List Byte :=
  leBytes 2 s.nodecnt.toNat ++ leBytes 2 s.sli.toNat ++ s.tbuf.readBytes 0 s.nodecnt.toInt.toNat
    ++ leBytes 8 s.pbits.toNat ++ s.pbuf.readBytes 0 (ceil8 s.pbits.toNat)

/-- `CN.BUILD`'s pseudocode (R185). -/
def cnBuild (s : State) : Except Raised State :=
  let n := s.nodecnt.toInt
  let m := ceil8 s.pbits.toNat
  if n < 0 then raise .treeRegionOverflow s.nodecnt.toNat
  else if overCap s.cfg.pbCap m then raise .capacity 4
  else if overCap s.cfg.outCap (Config.minContainer + n.toNat + m) then raise .capacity 2
  else
    let body := content s
    let c := checksum s.cfg.ck body
    .ok { s with
      obuf := (((s.obuf.writeLE 0 4 Config.magic.toNat).writeLE 4 4 c.toNat).writeLE 8 8 body.length).writeBytes
        Config.headerBytes body
      olen := BitVec.ofNat 64 (Config.headerBytes + body.length)
      cksum := c }

/-! ## Parsing (R188) -/

/-- Checks (e) and (f) and the writes, on a content region whose checksum `c` matched (R193, R194). -/
def parseRegion (s : State) (c : Word) (region : List Byte) : Except Raised State :=
  let len := region.length
  if len < 4 then raise .treeRegionOverflow len
  else
    let n : Half := BitVec.ofNat 16 (fieldOf region 0 2)
    let x : Half := BitVec.ofNat 16 (fieldOf region 2 2)
    if n.toInt < 0 ∨ n.toInt > (len : Int) - 4 then raise .treeRegionOverflow n.toNat
    else if x.toInt ≥ 0 ∧ x.toInt ≥ n.toInt then raise .specialLeafIndexRange x.toNat
    else if len - 4 - n.toNat < 8 then raise .payloadRegionOverflow len
    else
      let k := fieldOf region (4 + n.toNat) 8
      let m := ceil8 k
      if m > len - 12 - n.toNat then raise .payloadRegionOverflow k
      else if overCap s.cfg.pbCap m then raise .capacity 4
      else
        .ok { s with
          nodecnt := n
          sli := x
          tbuf := s.tbuf.writeBytes 0 (slice region 4 n.toNat)
          pbits := BitVec.ofNat 64 k
          pbuf := s.pbuf.writeBytes 0 (slice region (12 + n.toNat) m)
          cksum := c }

/-- `CN.PARSE`'s pseudocode (R188): checks (a) to (d), then the content region's (R195). -/
def cnParse (s : State) : Except Raised State :=
  let total := s.ilen.toNat
  if s.inputTooLong then raise .capacity 1
  else if total < Config.minContainer then raise .truncatedLength total
  else
    let g := s.ibuf.readLE 0 4
    if g ≠ Config.magic.toNat then raise .magicMismatch g
    else
      let len := s.ibuf.readLE 8 8
      if len > total - Config.headerBytes then raise .contentLengthOverflow len
      else
        let h := s.ibuf.readLE 4 4
        let region := s.ibuf.readBytes Config.headerBytes len
        let c := checksum s.cfg.ck region
        if c.toNat ≠ h then raise .checksumMismatch (c.toNat <<< 32 ||| h)
        else parseRegion s c region

/-- `CK.SUM` (R180). -/
def execCkSum (s : State) : Host.Outcome State Fault Refusal := finish s (ckSum s)

/-- `CN.BUILD` (R185). -/
def execCnBuild (s : State) : Host.Outcome State Fault Refusal := finish s (cnBuild s)

/-- `CN.PARSE` (R188). -/
def execCnParse (s : State) : Host.Outcome State Fault Refusal := finish s (cnParse s)

end Sys2Proof.Machine
end

