-- ==== Sys2Proof/Machine/Frequency.lean ====
section
/-! DEFINITION. The frequency commands `FQ.CLR` and `FQ.COUNT` (spec/42_tree_build.md R140, R141). -/

namespace Sys2Proof.Machine

/-- `for s in 0..255: FREQ[s] <- 0` (R140). -/
def fqClr (s : State) : State := { s with freq := zeroCounts }

/-- `FREQ[s] + n[s]` of an entry, with `n[s]` the number of input bytes equal to `s` (R141). -/
def counted (input : List Byte) (e : Byte × DWord) : Nat := e.2.toNat + input.count e.1

/-- The table after counting (R141). -/
def countedTable (freq : Vector DWord Config.symbolCount) (input : List Byte) : Vector DWord Config.symbolCount :=
  ⟨⟨(tableEntries freq).map fun e => BitVec.ofNat 64 (counted input e)⟩, by simp [tableEntries, symbols]⟩

/-- `FQ.COUNT`'s pseudocode (R141). -/
def fqCount (s : State) : Except Raised State :=
  if s.inputTooLong then raise .capacity 1
  else if (tableEntries s.freq).any (fun e => decide (counted s.input e ≥ 2 ^ 64)) then raise .overflow 1
  else .ok { s with freq := countedTable s.freq s.input }

/-- `FQ.CLR` (R140). -/
def execFqClr (s : State) : Host.Outcome State Fault Refusal := finish s (.ok (fqClr s))

/-- `FQ.COUNT` (R141). -/
def execFqCount (s : State) : Host.Outcome State Fault Refusal := finish s (fqCount s)

end Sys2Proof.Machine
end

