-- ==== Sys2Proof/Machine/Pack.lean ====
section
/-! DEFINITION. The packer commands `PK.RST`, `PK.APPEND`, `PK.ENCODE`, `PK.FLUSH` (spec/41_packer.md R120 to R125). -/

namespace Sys2Proof.Machine

/-- `PutBit(b)`, the packer's one-bit step (R122). -/
def Packer.putBit (p : Packer) (b : Bool) : Packer :=
  let o := p.bitcnt.toNat % 8
  let part := p.part ||| ((if b then 1 else 0 : Byte) <<< o)
  let bitcnt := p.bitcnt + 1
  if bitcnt.toNat % 8 = 0 then { buf := p.buf ++ [part], part := 0, bitcnt := bitcnt }
  else { p with part := part, bitcnt := bitcnt }

/-- `PutBit` on every bit of a sequence, first bit first. -/
def Packer.putBits (p : Packer) (bits : List Bool) : Packer := bits.foldl Packer.putBit p

/-- The packer's two refusals, for an append of `n` bits (R123), and the append itself. -/
def packBits (s : State) (n : Nat) (bits : List Bool) : Except Raised State :=
  if s.pk.bitcnt.toNat + n ≥ 2 ^ 64 then raise .overflow 3
  else if overCap s.cfg.pbCap (ceil8 (s.pk.bitcnt.toNat + n)) then raise .capacity 4
  else .ok { s with pk := s.pk.putBits bits }

/-- `PK.RST`'s pseudocode (R120). -/
def pkRst (s : State) : State := { s with pk := Packer.fresh }

/-- `PK.APPEND`'s pseudocode (R121). -/
def pkAppend (sym : Byte) (s : State) : Except Raised State :=
  match tableGet s.ct sym with
  | none => raise .missingCode sym.toNat
  | some c => packBits s c.bits.length c.bits

/-- The codes of a byte sequence one after another, or the first byte without a code and its index (R124). -/
def lookupCodes (ct : Vector (Option BitSequence) Config.symbolCount) : Nat → List Byte → Except Raised (List (List Bool))
  | _, [] => .ok []
  | i, b :: bs =>
    match tableGet ct b with
    | none => raise .missingCode (b.toNat ||| (i <<< 8))
    | some c =>
      match lookupCodes ct (i + 1) bs with
      | .ok cs => .ok (c.bits :: cs)
      | .error f => .error f

/-- `PK.ENCODE`'s pseudocode (R124). -/
def pkEncode (s : State) : Except Raised State :=
  if s.inputTooLong then raise .capacity 1
  else
    match lookupCodes s.ct 0 s.input with
    | .error f => .error f
    | .ok codes => packBits s (codes.map List.length).sum codes.flatten

/-- The packed bytes: the completed ones and, when the bit count is no multiple of 8, the partial byte (R125). -/
def Packer.bytes (p : Packer) : List Byte :=
  p.buf ++ if p.bitcnt.toNat % 8 ≠ 0 then [p.part] else []

/-- `PK.FLUSH`'s pseudocode (R125). -/
def pkFlush (s : State) : State :=
  { s with pbuf := s.pbuf.writeBytes 0 s.pk.bytes, pbits := s.pk.bitcnt }

/-- `PK.RST` (R120). -/
def execPkRst (s : State) : Host.Outcome State Fault Refusal := finish s (.ok (pkRst s))

/-- `PK.APPEND s` (R121). -/
def execPkAppend (sym : Byte) (s : State) : Host.Outcome State Fault Refusal := finish s (pkAppend sym s)

/-- `PK.ENCODE` (R124). -/
def execPkEncode (s : State) : Host.Outcome State Fault Refusal := finish s (pkEncode s)

/-- `PK.FLUSH` (R125). -/
def execPkFlush (s : State) : Host.Outcome State Fault Refusal := finish s (.ok (pkFlush s))

end Sys2Proof.Machine
end

