-- ==== Sys2Proof/Machine/TreeBuild.lean ====
section
/-! DEFINITION. Tree construction `TR.BUILD` and code derivation `TR.CODES` (spec/42_tree_build.md R142 to R150). -/

namespace Sys2Proof.Machine

/-! ## The priority structure (R143, R144) -/

/-- An entry of the priority structure (spec/10_state.md R49). -/
structure QueueEntry where
  tree   : HuffmanTree
  weight : Nat
  seq    : Nat
deriving DecidableEq, Repr

/-- The order of extraction: least weight first, among equal weights least sequence number first (R144, log entry 7). -/
def QueueEntry.before (a b : QueueEntry) : Bool :=
  decide (a.weight < b.weight) || (decide (a.weight = b.weight) && decide (a.seq < b.seq))

/-- `ExtractMin` on a non-empty structure, given as one entry and the others: the least entry, and the rest. -/
def extractMin : QueueEntry → List QueueEntry → QueueEntry × List QueueEntry
  | e, [] => (e, [])
  | e, x :: xs =>
    let (m, rest) := extractMin x xs
    if e.before m then (e, m :: rest) else (m, e :: rest)

/-- The entry two extracted entries combine to: first-extracted left, weight their sum (R144). -/
def combineEntries (a b : QueueEntry) (seq : Nat) : QueueEntry :=
  { tree := .node (BitVec.ofNat 64 (a.weight + b.weight)) a.tree b.tree
    weight := a.weight + b.weight
    seq := seq }

/-- The combining loop (R144). Each round leaves one entry fewer, so a number of rounds equal to the number of
entries beside the first is enough. -/
def combineLoop : Nat → Nat → QueueEntry → List QueueEntry → HuffmanTree
  | 0, _, e, _ => e.tree
  | rounds + 1, seq, e, q =>
    match extractMin e q with
    | (a, []) => a.tree
    | (a, x :: xs) =>
      let (b, rest) := extractMin x xs
      combineLoop rounds (seq + 1) (combineEntries a b seq) rest

/-- One Leaf entry per symbol with a count, in ascending order of the symbol, numbered from 0 (R143). -/
def leafEntries (freq : Vector DWord Config.symbolCount) : List QueueEntry :=
  ((tableEntries freq).filter fun e => e.2 ≠ 0).zipIdx.map fun ((s, n), i) =>
    { tree := .leaf s n, weight := n.toNat, seq := i }

/-- The sum of all counts (R142). -/
def totalCount (freq : Vector DWord Config.symbolCount) : Nat := ((tableEntries freq).map fun e => e.2.toNat).sum

/-- `TR.BUILD`'s pseudocode (R142). -/
def trBuild (s : State) : Except Raised State :=
  match leafEntries s.freq with
  | [] => raise .emptyFrequencyTable 0
  | e :: q =>
    if totalCount s.freq ≥ 2 ^ 64 then raise .overflow 2
    else .ok { s with tree := some (combineLoop q.length (q.length + 1) e q) }

/-! ## Code derivation (R146 to R150) -/

/-- `Walk`: each leaf's key with the path to it, 0 left and 1 right, left subtree first (R147). -/
def HuffmanTree.walk : HuffmanTree → List Bool → List (Byte × List Bool)
  | .leaf k _, p => [(k, p)]
  | .node _ l r, p => l.walk (p ++ [false]) ++ r.walk (p ++ [true])

/-- Write the codes in order; of two with one key the last stands (R147, R149). -/
def writeCodes (ct : Vector (Option BitSequence) Config.symbolCount) (codes : List (Byte × List Bool)) :
    Vector (Option BitSequence) Config.symbolCount :=
  codes.foldl (fun t c => tableSet t c.1 (some { sym := c.1, bits := c.2 })) ct

/-- The codes of a tree: a lone Leaf gets the one bit 0 (R148). -/
def HuffmanTree.codes : HuffmanTree → List (Byte × List Bool)
  | .leaf k _ => [(k, [false])]
  | .node w l r => HuffmanTree.walk (.node w l r) []

/-- The path of the first leaf deeper than 256, in left-before-right order (R150). -/
def HuffmanTree.tooDeep (t : HuffmanTree) : Option (Byte × List Bool) :=
  (t.walk []).find? fun c => decide (c.2.length > Config.maxCodeBits)

/-- `TR.CODES`'s pseudocode (R146). -/
def trCodes (s : State) : Except Raised State :=
  match s.tree with
  | none => raise .noTree 0
  | some t =>
    match t.tooDeep with
    | some c => raise .limitExceeded c.2.length
    | none => .ok { s with ct := writeCodes emptyCodes t.codes }

/-- `TR.BUILD` (R142). -/
def execTrBuild (s : State) : Host.Outcome State Fault Refusal := finish s (trBuild s)

/-- `TR.CODES` (R146). -/
def execTrCodes (s : State) : Host.Outcome State Fault Refusal := finish s (trCodes s)

end Sys2Proof.Machine
end

