-- ==== Sys2Proof/Machine/TreeCodec.lean ====
section
/-! DEFINITION. The tree serialisation state machine `TR.SER` and `TR.DESER` (spec/43_tree_codec.md R160 to R167). -/

namespace Sys2Proof.Machine

/-- The output of `Emit` so far: the bytes, and the special leaf index (R160). -/
structure Emitted where
  out : List Byte
  sli : Int
deriving DecidableEq, Repr

/-- `Emit`, the postorder traversal (R161), recording where a leaf of key `0x00` is emitted (R162). -/
def HuffmanTree.emit : HuffmanTree → Emitted → Emitted
  | .leaf k _, e =>
    { out := e.out ++ [k], sli := if k = Config.sentinel then e.out.length else e.sli }
  | .node _ l r, e =>
    let e := r.emit (l.emit e)
    { e with out := e.out ++ [Config.sentinel] }

/-- `TR.SER`'s pseudocode (R160). -/
def trSer (s : State) : Except Raised State :=
  match s.tree with
  | none => raise .noTree 0
  | some t =>
    let e := t.emit { out := [], sli := -1 }
    .ok { s with
      tbuf := s.tbuf.writeBytes 0 e.out
      nodecnt := BitVec.ofNat 16 e.out.length
      sli := BitVec.ofInt 16 e.sli }

/-- What `Replay` answers after the last byte, by the nodes left on the stack (R165, R167). -/
def replayEnd : List HuffmanTree → Except Raised HuffmanTree
  | [] => raise .emptyTree 0
  | [t] => .ok t
  | t :: u :: stack => raise .stackResidue (t :: u :: stack).length

/-- `Replay` from position `i` with a stack, top first (R165); `x` is the special leaf index. -/
def replay (x : Int) : Nat → List HuffmanTree → List Byte → Except Raised HuffmanTree
  | _, stack, [] => replayEnd stack
  | i, stack, b :: bs =>
    if b = Config.sentinel ∧ (i : Int) ≠ x then
      match stack with
      | r :: l :: rest => replay x (i + 1) (.node 0 l r :: rest) bs
      | _ => raise .stackUnderflow i
    else replay x (i + 1) (.leaf b 0 :: stack) bs

/-- `TR.DESER`'s pseudocode (R164). -/
def trDeser (s : State) : Except Raised State :=
  let n := s.nodecnt.toInt
  let x := s.sli.toInt
  if n < 0 then raise .treeRegionOverflow s.nodecnt.toNat
  else if x ≥ 0 ∧ x ≥ n then raise .specialLeafIndexRange s.sli.toNat
  else
    match replay x 0 [] (s.tbuf.readBytes 0 n.toNat) with
    | .error f => .error f
    | .ok t => .ok { s with tree := some t }

/-- `TR.SER` (R160). -/
def execTrSer (s : State) : Host.Outcome State Fault Refusal := finish s (trSer s)

/-- `TR.DESER` (R164). -/
def execTrDeser (s : State) : Host.Outcome State Fault Refusal := finish s (trDeser s)

end Sys2Proof.Machine
end

