-- ==== Sys2Proof/Machine/Unpack.lean ====
section
/-! DEFINITION. The tree-driven traversal unpacker `UP.DECODE` (spec/45_unpacker.md R210 to R216). -/

namespace Sys2Proof.Machine

/-- The unpacker's working state (spec/10_state.md R46): the cursor, whether a code is unfinished, the bytes emitted. -/
structure Walker where
  cur : HuffmanTree
  mid : Bool
  out : List Byte
deriving DecidableEq, Repr

/-- The child a bit leads to: 0 left, 1 right (R211). A Leaf has no child; the cursor under an Internal root is never one
(R212, log entry 11). -/
def HuffmanTree.child : HuffmanTree → Bool → HuffmanTree
  | .leaf k w, _ => .leaf k w
  | .node _ l r, b => if b then r else l

/-- `Step` (R212; R214 when the root is a Leaf). -/
def walkStep (root : HuffmanTree) (w : Walker) (b : Bool) : Walker :=
  match root with
  | .leaf k _ => { cur := root, mid := false, out := w.out ++ [k] }
  | .node _ _ _ =>
    match w.cur.child b with
    | .leaf k _ => { cur := root, mid := false, out := w.out ++ [k] }
    | .node v l r => { cur := .node v l r, mid := true, out := w.out }

/-- The walk over a bit sequence from the root (R210, R211). -/
def walkBits (root : HuffmanTree) (bits : List Bool) : Walker :=
  bits.foldl (walkStep root) { cur := root, mid := false, out := [] }

/-- `UP.DECODE`'s pseudocode (R210). -/
def upDecode (s : State) : Except Raised State :=
  match s.tree with
  | none => raise .noTree 0
  | some t =>
    if overCap s.cfg.pbCap (ceil8 s.pbits.toNat) then raise .capacity 4
    else
      let w := walkBits t (s.pbuf.readBits 0 s.pbits.toNat)
      if overCap s.cfg.outCap w.out.length then raise .capacity 2
      else
        .ok { s with
          obuf := s.obuf.writeBytes 0 w.out
          olen := BitVec.ofNat 64 w.out.length
          tail := w.mid }

/-- `UP.DECODE` (R210). -/
def execUpDecode (s : State) : Host.Outcome State Fault Refusal := finish s (upDecode s)

end Sys2Proof.Machine
end

