-- ==== Sys2Proof/Machine/EntryPoints.lean ====
section
/-! DEFINITION. The entry points `COMPRESS` and `DECOMPRESS` (spec/46_entry_points.md R230, R231): fixed sequences of the other
commands' effects, made atomic by `finish`, which keeps none of the writes when a step raises. -/

namespace Sys2Proof.Machine

/-- The nine commands of `COMPRESS` on a non-empty input (R230). -/
def compressChain (s : State) : Except Raised State := do
  let s ← fqCount (fqClr s)
  let s ← trBuild s
  let s ← trCodes s
  let s ← pkEncode (pkRst s)
  let s ← trSer (pkFlush s)
  cnBuild s

/-- `COMPRESS`'s pseudocode (R230). -/
def compress (s : State) : Except Raised State :=
  if s.inputTooLong then raise .capacity 1
  else if s.ilen = 0 then .ok { s with olen := 0 }
  else compressChain s

/-- The three commands of `DECOMPRESS` on a non-empty input (R231). -/
def decompressChain (s : State) : Except Raised State := do
  let s ← cnParse s
  let s ← trDeser s
  upDecode s

/-- `DECOMPRESS`'s pseudocode (R231). -/
def decompress (s : State) : Except Raised State :=
  if s.inputTooLong then raise .capacity 1
  else if s.ilen = 0 then .ok { s with olen := 0, tail := false }
  else decompressChain s

/-- `COMPRESS` (R230). -/
def execCompress (s : State) : Host.Outcome State Fault Refusal := finish s (compress s)

/-- `DECOMPRESS` (R231). -/
def execDecompress (s : State) : Host.Outcome State Fault Refusal := finish s (decompress s)

end Sys2Proof.Machine
end

