-- ==== Sys2Proof/Machine/System.lean ====
section
/-! DEFINITION. The system commands `NOP`, `RESET`, `CLRF` (spec/47_system.md R240 to R242), and hardware reset
(spec/70_reset_and_hazards.md R280). -/

namespace Sys2Proof.Machine

/-- Every piece of the block's state at its reset value (spec/10_state.md R55). The configuration does not change while the
block runs (R54), and the host's remaining accesses, the ports' last answer and the count of free answers are not the block's (log entry 10). -/
def resetBlock (s : State) : State :=
  { State.reset with cfg := s.cfg, host := s.host, reply := s.reply, openAnswers := s.openAnswers }

/-- `NOP` (R240). -/
def execNop (s : State) : Host.Outcome State Fault Refusal := finish s (.ok s)

/-- `RESET` (R241). -/
def execReset (s : State) : Host.Outcome State Fault Refusal := finish s (.ok (resetBlock s))

/-- `CLRF` (R242). -/
def execClrf (s : State) : Host.Outcome State Fault Refusal := finish s (.ok (clearSticky s))

end Sys2Proof.Machine
end

