-- ==== Sys2Proof/Machine/Dispatch.lean ====
section
/-! DEFINITION. One arm per command. -/

namespace Sys2Proof.Machine

/-- What a command does to a state. -/
def exec (i : Instr) (s : State) : Host.Outcome State Fault Refusal :=
  match i with
  | .nop => Sys2Proof.Machine.execNop s
  | .reset => Sys2Proof.Machine.execReset s
  | .clrf => Sys2Proof.Machine.execClrf s
  | .ctClr => Sys2Proof.Machine.execCtClr s
  | .ctLoad sym => Sys2Proof.Machine.execCtLoad sym s
  | .pkRst => Sys2Proof.Machine.execPkRst s
  | .pkAppend sym => Sys2Proof.Machine.execPkAppend sym s
  | .pkEncode => Sys2Proof.Machine.execPkEncode s
  | .pkFlush => Sys2Proof.Machine.execPkFlush s
  | .fqClr => Sys2Proof.Machine.execFqClr s
  | .fqCount => Sys2Proof.Machine.execFqCount s
  | .trBuild => Sys2Proof.Machine.execTrBuild s
  | .trCodes => Sys2Proof.Machine.execTrCodes s
  | .trSer => Sys2Proof.Machine.execTrSer s
  | .trDeser => Sys2Proof.Machine.execTrDeser s
  | .ckSum => Sys2Proof.Machine.execCkSum s
  | .cnBuild => Sys2Proof.Machine.execCnBuild s
  | .cnParse => Sys2Proof.Machine.execCnParse s
  | .upDecode => Sys2Proof.Machine.execUpDecode s
  | .compress => Sys2Proof.Machine.execCompress s
  | .decompress => Sys2Proof.Machine.execDecompress s

end Sys2Proof.Machine
end

