-- ==== Sys2Proof/Machine/HostPorts.lean ====
section
/-! DEFINITION. What one access of the host does: presenting a command word (spec/30_encoding.md R80, R84), the register, table
and buffer ports (spec/10_state.md R22, R35, R36; spec/20_memory.md R67; spec/47_system.md R244), and hardware reset
(spec/70_reset_and_hazards.md R280). -/

namespace Sys2Proof.Machine

/-- The port's answer to a command that was run: its completion result, which `FKIND` records too (R80, R251). -/
def answered : Host.Outcome State Fault Refusal → Host.Outcome State Fault Refusal
  | .next t => .next { t with reply := .completion t.fkind }
  | .fault f => .fault f
  | .refused r => .refused r

/-- An illegal word raises `Fault(IllegalCommand, word)` (R84). -/
def illegalWord (w : Word) (s : State) : Host.Outcome State Fault Refusal :=
  finish s (raise .illegalCommand w.toNat)

/-- Present a word on the command port: decoding comes before everything (spec/60_exceptions.md R261). -/
def present (w : Word) (s : State) : Host.Outcome State Fault Refusal :=
  answered (match decode w with
    | .ok i => exec i s
    | .error _ => illegalWord w s)

/-- The buffer has a byte with this index. -/
def bufferHas (s : State) (b : Buffer) (index : Nat) : Bool := !overCap (capacityOf s.cfg b) (index + 1)

/-- The buffer a host write reaches. -/
def HostBuffer.toBuffer : HostBuffer → Buffer
  | .ibuf => .ibuf
  | .tbuf => .tbuf
  | .pbuf => .pbuf

/-- Write one byte of a buffer through the buffer port (R67). An index the buffer does not have names no storage there or in
another space (R42, R44, R45, R67), so writing it changes nothing (DEDUCED, log entry 5). -/
def State.pokeByte (s : State) (b : HostBuffer) (index : Nat) (v : Byte) : State :=
  if bufferHas s b.toBuffer index then
    match b with
    | .ibuf => { s with ibuf := s.ibuf.write index v }
    | .tbuf => { s with tbuf := s.tbuf.write index v }
    | .pbuf => { s with pbuf := s.pbuf.write index v }
  else s

/-- Answer with a free value: the spec states the access and not this answer, which is taken at the counter. -/
def State.answerOpen (s : State) (answer : Nat → Reply) : State :=
  { s with reply := answer s.openAnswers, openAnswers := s.openAnswers + 1 }

/-- Read a code table entry through the table port as (`valid`, `len`, bits in the layout of R32) (R35,
spec/40_bitsequence.md R113). Of an entry that is `none` the spec gives `valid = 0` alone; that its length and words are free
values is the model's choice (DESIGN CHOICE, log entry 14). -/
def State.readEntry (s : State) (sym : Byte) : State :=
  match tableGet s.ct sym with
  | none => s.answerOpen fun k => .entry false (Config.freeLength k) (Config.freeWords k)
  | some c => { s with reply := .entry true (BitVec.ofNat 16 c.bits.length) (codeWords c.bits) }

/-- Read one byte through the buffer port (R67). That an index the buffer does not have reads a free value is the model's choice
(DESIGN CHOICE, log entry 5). -/
def State.peekByte (s : State) (b : Buffer) (index : Nat) : State :=
  if bufferHas s b index then { s with reply := .byte ((s.buffer b).read index) }
  else s.answerOpen fun k => .byte (Config.freeByte k)

/-- One host access. None of the register, table and buffer accesses faults or changes the fault record (R244). -/
def hostAccess (a : HostAccess) (s : State) : Host.Outcome State Fault Refusal :=
  match a with
  | .command w => present w s
  | .readReg n => .next { s with reply := .data (s.readRegister (Register.ofNumber n)) }
  | .writeReg n v => .next { s.writeRegister (Register.ofNumber n) v with reply := .written }
  | .readCode sym => .next (s.readEntry sym)
  | .readFreq sym => .next { s with reply := .data (tableGet s.freq sym) }
  | .writeFreq sym v => .next { s with freq := tableSet s.freq sym v, reply := .written }
  | .readByte b i => .next (s.peekByte b i)
  | .writeByte b i v => .next { s.pokeByte b i v with reply := .written }
  | .hardReset => .next { resetBlock s with reply := .none }

/-- The next host access is taken. -/
def dropAccess (s : State) : State := { s with host := s.host.tail }

end Sys2Proof.Machine
end

