-- ==== Sys2Proof/Machine/Step.lean ====
section
/-! DEFINITION. One step: one host access, a whole command among them (spec/20_memory.md R70). -/

namespace Sys2Proof.Machine

/-- The block takes the next host access; with none to take it waits, and all state survives waiting
(spec/60_exceptions.md R270, log entry 2). -/
def step (s : State) : Host.Outcome State Fault Refusal :=
  match s.host with
  | [] => .next s
  | a :: _ => hostAccess a (dropAccess s)

/-- The state in which the host presents this word next (log entry 2). -/
def State.withFetchWord (s : State) (nbits w : Nat) : State :=
  { s with host := .command (BitVec.ofNat 32 (w % 2 ^ nbits)) :: s.host }

end Sys2Proof.Machine
end

