-- ==== Sys2Proof/Machine/Trees.lean ====
section
/-! DEFINITION. The measures of a tree value the spec names (spec/00_scope.md R16) and the walk along a path
(spec/42_tree_build.md R151): what the invariants and the statements about trees are written with. -/

namespace Sys2Proof.Machine

/-- The weight at the root. -/
def HuffmanTree.weight : HuffmanTree → DWord
  | .leaf _ w => w
  | .node w _ _ => w

/-- `depth(t)` (R16). -/
def HuffmanTree.depth : HuffmanTree → Nat
  | .leaf _ _ => 0
  | .node _ l r => 1 + max l.depth r.depth

/-- The leaves in left-before-right order, each with its key and weight. -/
def HuffmanTree.leaves : HuffmanTree → List (Byte × DWord)
  | .leaf k w => [(k, w)]
  | .node _ l r => l.leaves ++ r.leaves

/-- The keys of the leaves in left-before-right order. -/
def HuffmanTree.keys (t : HuffmanTree) : List Byte := t.leaves.map Prod.fst

/-- The tree with every weight 0: two trees have the same `shape` (R16) exactly when these are equal. -/
def HuffmanTree.unweighted : HuffmanTree → HuffmanTree
  | .leaf k _ => .leaf k 0
  | .node _ l r => .node 0 l.unweighted r.unweighted

/-- The subtree a path of bits leads to, 0 left and 1 right; none when the path runs past a Leaf. -/
def HuffmanTree.follow : HuffmanTree → List Bool → Option HuffmanTree
  | t, [] => some t
  | .leaf _ _, _ :: _ => none
  | .node _ l r, b :: bs => if b then r.follow bs else l.follow bs

/-- The key of the leaf a path ends at. -/
def HuffmanTree.keyAt (t : HuffmanTree) (p : List Bool) : Option Byte :=
  match t.follow p with
  | some (.leaf k _) => some k
  | _ => none

/-- Every internal node's weight is the sum of its children's (spec/10_state.md R37). -/
def HuffmanTree.weightsAdd : HuffmanTree → Bool
  | .leaf _ _ => true
  | .node w l r => decide (w.toNat = l.weight.toNat + r.weight.toNat) && l.weightsAdd && r.weightsAdd

/-- The postorder listing, each byte with whether it stands for a Leaf (spec/30_encoding.md R98). -/
def HuffmanTree.listing : HuffmanTree → List (Byte × Bool)
  | .leaf k _ => [(k, true)]
  | .node _ l r => l.listing ++ r.listing ++ [(Config.sentinel, false)]

/-- How the bytes of a record from position `i` are read: each with whether it stands for a Leaf, which is every byte but a
`0x00` away from the special leaf index `x` (spec/43_tree_codec.md R165). -/
def markedBytes (x : Int) : Nat → List Byte → List (Byte × Bool)
  | _, [] => []
  | i, b :: bs => (b, !decide (b = Config.sentinel ∧ (i : Int) ≠ x)) :: markedBytes x (i + 1) bs

/-- A path is left of another: at the first bit where they differ it goes left (spec/42_tree_build.md R147). -/
def leftOf : List Bool → List Bool → Bool
  | a :: p, b :: q => if a = b then leftOf p q else b
  | _, _ => false

/-- How many nodes stand on `Replay`'s stack after `i` bytes, by the bytes alone: a leaf adds one, a marker takes one away (R165). -/
def stackHeight (marked : List (Byte × Bool)) (i : Nat) : Int :=
  ((marked.take i).map fun p => if p.2 then (1 : Int) else -1).sum

/-- A bit sequence read along a tree (R211 to R214): whole codes for the keys `ks`, then the bits `rest` of a code not completed. -/
def Reads (t : HuffmanTree) (bits : List Bool) (ks : List Byte) (rest : List Bool) : Prop :=
  match t with
  | .leaf k _ => ks = List.replicate bits.length k ∧ rest = []
  | .node _ _ _ => ∃ codes : List (List Bool), bits = codes.flatten ++ rest
      ∧ List.Forall₂ (fun p k => t.keyAt p = some k) codes ks
      ∧ ∃ w l r, t.follow rest = some (.node w l r)

/-- The code `TR.CODES` gives a key (R147 to R149): a lone Leaf gets the bit 0, else the path to the key's last leaf from the left. -/
def IsCode (t : HuffmanTree) (k : Byte) (p : List Bool) : Prop :=
  match t with
  | .leaf j _ => k = j ∧ p = [false]
  | .node _ _ _ => t.keyAt p = some k ∧ ∀ q, t.keyAt q = some k → q ≠ p → leftOf q p = true

end Sys2Proof.Machine
end

