-- ==== Sys2Proof/Machine/Building.lean ====
section
/-! DEFINITION. Tree construction as a relation (spec/42_tree_build.md R144), written apart from the function of
Machine/TreeBuild.lean: what the statements about built trees are written with. -/

namespace Sys2Proof.Machine

/-- The combining loop of R144 on entries `q` with the next sequence number `seq` ends in the tree `t`: while two entries are
left, the first two in the order of extraction are taken out and their combination is put in. -/
inductive Builds : Nat → List QueueEntry → HuffmanTree → Prop where
  | last (seq : Nat) (e : QueueEntry) : Builds seq [e] e.tree
  | combine {seq : Nat} {q rest : List QueueEntry} {a b : QueueEntry} {t : HuffmanTree}
      (taken : q.Perm (a :: b :: rest))
      (first : ∀ y ∈ b :: rest, a.before y = true)
      (second : ∀ y ∈ rest, b.before y = true)
      (later : Builds (seq + 1)
        ({ tree := .node (BitVec.ofNat 64 (a.weight + b.weight)) a.tree b.tree
           weight := a.weight + b.weight, seq := seq } :: rest) t) :
      Builds seq q t

/-- The symbols with a count, ascending (R143). -/
def presentSymbols (freq : Vector DWord Config.symbolCount) : List Byte := symbols.filter fun s => tableGet freq s ≠ 0

end Sys2Proof.Machine
end

