-- ==== Sys2Proof/Machine/Streams.lean ====
section
/-! DEFINITION. The bit stream a packer has accepted, read back from its bytes by the position rule of
spec/30_encoding.md R90 and spec/20_memory.md R62: what the statements about packing and unpacking are written with. -/

namespace Sys2Proof.Machine

/-- Bit `k` of a byte sequence: bit `k mod 8` of byte `floor(k / 8)` (R62). -/
def streamBit (bytes : List Byte) (k : Nat) : Bool := (bytes.getD (k / 8) 0).getLsbD (k % 8)

/-- The bits a packer has accepted, in order: `BITCNT` of them, in `PK_BUF` and then `PK_PART`. -/
def Packer.stream (p : Packer) : List Bool :=
  (List.range p.bitcnt.toNat).map (streamBit (p.buf ++ [p.part]))

/-- The byte whose bit `r` is the `r`-th bit given, zero beyond (spec/41_packer.md R126). -/
def bitsByte (bits : List Bool) : Byte :=
  BitVec.ofNat 8 ((List.range 8).map fun r => if bits.getD r false then 2 ^ r else 0).sum

/-- The bits of the codes of symbols, in order. -/
def codeBits (ct : Vector (Option BitSequence) Config.symbolCount) (syms : List Byte) : List Bool :=
  syms.flatMap fun sym => match tableGet ct sym with
    | some c => c.bits
    | none => []

end Sys2Proof.Machine
end

