-- ==== Sys2Proof/Safety.lean ====
section
/-! DEFINITION. What counts as a good state: the invariants the spec names of its state, and the run that reaches a state. -/

namespace Sys2Proof.Machine

/-- The packer's invariants (spec/10_state.md R41). -/
structure Packer.Ok (cap : Option Nat) (p : Packer) : Prop where
  /-- `|PK_BUF| = floor(BITCNT / 8)`. -/
  wholeBytes : p.buf.length = p.bitcnt.toNat / 8
  /-- Bits 7 down to `BITCNT[2:0]` of `PK_PART` are zero. -/
  highBitsZero : p.part.toNat < 2 ^ (p.bitcnt.toNat % 8)
  /-- The stream fits `PB_CAP`. -/
  fits : overCap cap (ceil8 p.bitcnt.toNat) = false

/-- The code table's invariants (R35): an entry's source byte is its index, and its length is at most 256. -/
def CodesOk (ct : Vector (Option BitSequence) Config.symbolCount) : Prop :=
  ∀ sym c, tableGet ct sym = some c → c.sym = sym ∧ c.bits.length ≤ Config.maxCodeBits

/-- The invariants of every tree the block can hold: its size (R33), at most one Leaf of key `0x00` (R40), the weights of its
internal nodes (R37). -/
structure HuffmanTree.Ok (t : HuffmanTree) : Prop where
  small : t.nodes ≤ Config.nodeCap
  oneZero : t.keys.count Config.sentinel ≤ 1
  weights : t.weightsAdd = true

/-- The tree held, if any, is a good one. -/
def TreeOk (s : State) : Prop := ∀ t, s.tree = some t → t.Ok

/-- The fault record agrees with itself (spec/60_exceptions.md R251): no fault, no detail; a fault, and the sticky flag is set. -/
def FaultRecordOk (s : State) : Prop :=
  (s.fkind = none → s.finfo = 0) ∧ (s.fkind ≠ none → s.fsticky = true)

/-- Every buffer is in canonical form. -/
def BuffersCanonical (s : State) : Prop := ∀ b, (s.buffer b).wf

/-- Every byte a buffer lists lies inside the buffer (spec/10_state.md R42 to R45), and `OLEN` bytes fit `OBUF`. -/
def BuffersInBounds (s : State) : Prop :=
  (∀ b, ∀ p ∈ s.buffer b, overCap (capacityOf s.cfg b) (p.1 + 1) = false)
    ∧ overCap s.cfg.outCap s.olen.toNat = false

/-- Everything above together. -/
structure State.Inv (s : State) : Prop where
  packer : s.pk.Ok s.cfg.pbCap
  codes : CodesOk s.ct
  tree : TreeOk s
  faultRecord : FaultRecordOk s
  canonical : BuffersCanonical s
  inBounds : BuffersInBounds s

/-- A state some run from reset reaches, whatever configuration the block was built with and whatever the host does next. -/
inductive Reachable : State → Prop where
  | reset (cfg : Config) (host : List HostAccess) : Reachable { State.reset with cfg := cfg, host := host }
  | step {s t : State} : Reachable s → Machine.step s = .next t → Reachable t

end Sys2Proof.Machine
end

