-- ==== Sys2Proof/Certificates/Slice0/Obligations.lean ====
section
/-! DEFINITION. The statements for the provers. The first part is the words they are written with; each statement names the rule of
spec/ it formalises. A frame is written as `t = { s with f := t.f, ... }`: every field not named is as before, the
whole of every memory among them. -/

namespace Sys2Proof.Claims

open Sys2Proof.Machine

/-! ## Words the statements use -/

/-- The state a fault leaves: the fault record written and nothing else (R251). -/
def faulted (s : State) (k : FaultKind) (info : Nat) : State :=
  { s with fkind := some k, finfo := BitVec.ofNat 64 info, fsticky := true }

/-- The state with the record of a completed command (R251). -/
def done (s : State) : State := { s with fkind := none, finfo := 0 }

/-- `n` is more than a capacity allows; nothing is when it is unbounded (R10, R258). -/
abbrev Exceeds (cap : Option Nat) (n : Nat) : Prop := overCap cap n = true

/-- `IBUF[0..ILEN)`, byte by byte. -/
def inputBytes (s : State) : List Byte := (List.range s.ilen.toNat).map fun i => s.ibuf.read i

/-- `Σ buf[a+k] · 256^k` over `k < n` (R61). -/
def fieldSum (m : Memory) (a n : Nat) : Nat :=
  ((List.range n).map fun k => (m.read (a + k)).toNat * 256 ^ k).sum

/-- Run commands one after another, giving up where one stops the model. -/
def runAll : List Instr → State → Option State
  | [], s => some s
  | i :: is, s =>
    match exec i s with
    | .next t => runAll is t
    | _ => none

/-- Run commands one after another while each completes; the first that faults is answered with its kind and detail. -/
def runWhileOk : List Instr → State → Except Raised State
  | [], s => .ok s
  | i :: is, s =>
    match exec i s with
    | .next t =>
      match t.fkind with
      | none => runWhileOk is t
      | some k => .error { kind := k, info := t.finfo }
    | _ => .ok s

/-- `Σ bits[k] · 2^k` over the given bits. -/
def bitSum (bits : List Bool) : Nat := ((bits.zipIdx).map fun (b, k) => if b then 2 ^ k else 0).sum

/-- The match word of a command's row of the opcode table (spec/30_encoding.md R82, R83). -/
def matchWord : Instr → Word
  | .nop => 0x00000000
  | .reset => 0x00000001
  | .clrf => 0x00000002
  | .ctClr => 0x00000010
  | .ctLoad _ => 0x00000011
  | .pkRst => 0x00000020
  | .pkAppend _ => 0x00000021
  | .pkEncode => 0x00000022
  | .pkFlush => 0x00000023
  | .fqClr => 0x00000030
  | .fqCount => 0x00000031
  | .trBuild => 0x00000032
  | .trCodes => 0x00000033
  | .trSer => 0x00000040
  | .trDeser => 0x00000041
  | .ckSum => 0x00000050
  | .cnBuild => 0x00000051
  | .cnParse => 0x00000052
  | .upDecode => 0x00000060
  | .compress => 0x00000070
  | .decompress => 0x00000071

/-- The symbol operand of a command that takes one. -/
def symbolOf : Instr → Option Byte
  | .ctLoad s => some s
  | .pkAppend s => some s
  | _ => none

/-- The mask of a command's row (R83). -/
def maskWord (i : Instr) : Word := if (symbolOf i).isSome then 0xFFFF00FF else 0xFFFFFFFF

/-- The opcodes of R82. -/
def assignedOpcodes : List (BitVec 8) :=
  [0x00, 0x01, 0x02, 0x10, 0x11, 0x20, 0x21, 0x22, 0x23, 0x30, 0x31, 0x32, 0x33, 0x40, 0x41, 0x50, 0x51, 0x52, 0x60,
   0x70, 0x71]

/-- A word is illegal (R84): `rsv` is not 0, or `op` is not assigned, or `arg` is not 0 on a command that takes no symbol. -/
def IllegalWord (w : Word) : Prop :=
  w.extractLsb' 16 16 ≠ 0 ∨ w.extractLsb' 0 8 ∉ assignedOpcodes
    ∨ w.extractLsb' 8 8 ≠ 0 ∧ w.extractLsb' 0 8 ≠ 0x11 ∧ w.extractLsb' 0 8 ≠ 0x21

/-- The faults a command can raise (spec/60_exceptions.md R260). -/
def mayRaise : Instr → List FaultKind
  | .nop | .reset | .clrf | .ctClr | .pkRst | .pkFlush | .fqClr => []
  | .ctLoad _ => [.limitExceeded]
  | .pkAppend _ => [.missingCode, .overflow, .capacity]
  | .pkEncode => [.capacity, .missingCode, .overflow]
  | .fqCount => [.capacity, .overflow]
  | .trBuild => [.emptyFrequencyTable, .overflow]
  | .trCodes => [.noTree, .limitExceeded]
  | .trSer => [.noTree]
  | .trDeser => [.treeRegionOverflow, .specialLeafIndexRange, .stackUnderflow, .stackResidue, .emptyTree]
  | .ckSum => [.capacity]
  | .cnBuild => [.treeRegionOverflow, .capacity]
  | .cnParse => [.capacity, .truncatedLength, .magicMismatch, .contentLengthOverflow, .checksumMismatch,
      .treeRegionOverflow, .specialLeafIndexRange, .payloadRegionOverflow]
  | .upDecode => [.noTree, .capacity]
  | .compress => [.capacity]
  | .decompress => [.capacity, .truncatedLength, .magicMismatch, .contentLengthOverflow, .checksumMismatch,
      .treeRegionOverflow, .specialLeafIndexRange, .payloadRegionOverflow, .stackUnderflow, .stackResidue, .emptyTree]

/-- The value the register port reads for each number (R22), from the fields. -/
def registerValue (s : State) (n : BitVec 4) : DWord :=
  [s.status.setWidth 64, s.finfo, s.ilen, s.olen, s.nodecnt.setWidth 64, s.sli.setWidth 64, s.pbits, s.pk.bitcnt,
   s.cksum.setWidth 64, s.clen.setWidth 64, s.cbits[0], s.cbits[1], s.cbits[2], s.cbits[3],
   s.tnodes.setWidth 64, 0].getD n.toNat 0

/-- The width of a register the host can write, none of one it cannot (R22). -/
def writableWidth (n : BitVec 4) : Option Nat :=
  [none, none, some 64, none, some 16, some 16, some 64, none, none, some 16, some 64, some 64, some 64, some 64, none,
   none].getD n.toNat none

/-- A byte as `CK_BYTE_SIGNED` has it (R183): 0 to 255, or -128 to 127. -/
def byteValue (o : ChecksumOptions) (b : Byte) : Int := if o.byteSigned then b.toInt else b.toNat

/-- `H` of a chunk (spec/44_container.md R182). -/
def chunkHash (o : ChecksumOptions) (c : List Byte) : Word :=
  BitVec.ofInt 32 (31 ^ c.length + ((c.zipIdx).map fun (b, j) => byteValue o b * 31 ^ (c.length - 1 - j)).sum)

/-- The bytes of chunk `q`. -/
def chunkAt (bs : List Byte) (q : Nat) : List Byte := (bs.drop (8 * q)).take 8

/-- The closed form of the checksum (R182, R183): the starting aggregate, XORed with `H` of every chunk, or with 1 for no bytes, and
under `CK_FINAL_EMPTY` with 1 more when the length is a positive multiple of 8. -/
def checksumClosed (o : ChecksumOptions) (bs : List Byte) : Word :=
  let chunks := (List.range ((bs.length + 7) / 8)).map fun q => chunkHash o (chunkAt bs q)
  o.aggInit ^^^ (if bs = [] then 1 else chunks.foldl (· ^^^ ·) 0)
    ^^^ (if o.finalEmpty = true ∧ bs ≠ [] ∧ bs.length % 8 = 0 then 1 else 0)

/-- The content region `CN.BUILD` writes (R186), byte by byte. -/
def contentBytes (s : State) : List Byte :=
  [s.nodecnt.extractLsb' 0 8, s.nodecnt.extractLsb' 8 8, s.sli.extractLsb' 0 8, s.sli.extractLsb' 8 8]
    ++ ((List.range s.nodecnt.toNat).map fun i => s.tbuf.read i)
    ++ ((List.range 8).map fun k => s.pbits.extractLsb' (8 * k) 8)
    ++ ((List.range ((s.pbits.toNat + 7) / 8)).map fun i => s.pbuf.read i)

/-- The header of a container (spec/30_encoding.md R92). -/
def headerBytes (c : Word) (length : Nat) : List Byte :=
  [0x0D, 0xF0, 0xFE, 0xCA] ++ ((List.range 4).map fun k => c.extractLsb' (8 * k) 8)
    ++ ((List.range 8).map fun k => (BitVec.ofNat 64 length).extractLsb' (8 * k) 8)

/-- Position `i` is a marker met with fewer than two nodes on the stack (R167). -/
def Underflows (marked : List (Byte × Bool)) (i : Nat) : Prop :=
  (∃ b, marked[i]? = some (b, false)) ∧ stackHeight marked i < 2

/-- The bytes of the SerializedTree record (R50), read with the special leaf index. -/
def recordMarked (s : State) : List (Byte × Bool) :=
  markedBytes s.sli.toInt 0 ((List.range s.nodecnt.toInt.toNat).map fun i => s.tbuf.read i)

/-- The stream bits of the payload record (R90). -/
def payloadBits (s : State) : List Bool :=
  (List.range s.pbits.toNat).map fun k => (s.pbuf.read (k / 8)).getLsbD (k % 8)

/-- The entries `TR.BUILD` starts from (R143). -/
def startEntries (freq : Vector DWord Config.symbolCount) : List QueueEntry :=
  (presentSymbols freq).zipIdx.map fun (s, i) =>
    { tree := .leaf s (tableGet freq s), weight := (tableGet freq s).toNat, seq := i }

/-- The sum of all counts. Not to be unfolded by the unifier: it is a sum of 256 terms. -/
@[irreducible] def countSum (freq : Vector DWord Config.symbolCount) : Nat := ((List.range 256).map fun i => (tableGet freq (BitVec.ofNat 8 i)).toNat).sum

/-- What one packer command of a mixture appends (R126): `some sym` is `PK.APPEND sym`, `none` is `PK.ENCODE`. -/
def packCommand : Option Byte → Instr
  | some sym => .pkAppend sym
  | none => .pkEncode

/-- The symbols a packer command appends the codes of. -/
def packSymbols (s : State) : Option Byte → List Byte
  | some sym => [sym]
  | none => inputBytes s

/-- The host's copy of `OBUF[0..OLEN)` to `IBUF` with `ILEN <- OLEN` (R198, R232): a state in which `IBUF` holds those bytes. -/
def copiedBack (t : State) (m : Memory) : State := { t with ibuf := m, ilen := t.olen }

/-- The memory holds `OBUF[0..OLEN)`. -/
def HoldsOutput (t : State) (m : Memory) : Prop := ∀ a, a < t.olen.toNat → m.read a = t.obuf.read a

end Sys2Proof.Claims

open Sys2Proof Sys2Proof.Machine Sys2Proof.Claims

/-! ## Encoding -/

/-- R82: the opcode map, and every other opcode illegal. -/
def Obligations.OpcodeMapDecodes : Prop :=
  decode 0x00000000 = .ok .nop ∧ decode 0x00000001 = .ok .reset ∧ decode 0x00000002 = .ok .clrf
    ∧ decode 0x00000010 = .ok .ctClr ∧ (∀ s : Byte, decode ((0x0000 : BitVec 16) ++ s ++ (0x11 : BitVec 8)) = .ok (.ctLoad s))
    ∧ decode 0x00000020 = .ok .pkRst ∧ (∀ s : Byte, decode ((0x0000 : BitVec 16) ++ s ++ (0x21 : BitVec 8)) = .ok (.pkAppend s))
    ∧ decode 0x00000022 = .ok .pkEncode ∧ decode 0x00000023 = .ok .pkFlush ∧ decode 0x00000030 = .ok .fqClr
    ∧ decode 0x00000031 = .ok .fqCount ∧ decode 0x00000032 = .ok .trBuild ∧ decode 0x00000033 = .ok .trCodes
    ∧ decode 0x00000040 = .ok .trSer ∧ decode 0x00000041 = .ok .trDeser ∧ decode 0x00000050 = .ok .ckSum
    ∧ decode 0x00000051 = .ok .cnBuild ∧ decode 0x00000052 = .ok .cnParse ∧ decode 0x00000060 = .ok .upDecode
    ∧ decode 0x00000070 = .ok .compress ∧ decode 0x00000071 = .ok .decompress
    ∧ ∀ w : Word, w.extractLsb' 0 8 ∉ assignedOpcodes → ∃ e, decode w = .error e

/-- R83: a word selects a command exactly when it matches the command's row under its mask, and the symbol is `word[15:8]`. -/
def Obligations.MaskAndMatchSelectCommand : Prop :=
  ∀ (w : Word) (i : Instr), decode w = .ok i ↔
    w &&& maskWord i = matchWord i ∧ ∀ s, symbolOf i = some s → w.extractLsb' 8 8 = s

/-- Decode and encode agree (R81 to R83), in both directions: no bit of a command is dropped, and a word has one command. -/
def Obligations.DecodeEncodeAgree : Prop :=
  (∀ i : Instr, i.wf = true → decode (encode i) = .ok i) ∧ ∀ (w : Word) (i : Instr), decode w = .ok i → encode i = w ∧ i.wf = true

/-- R84: an illegal word raises `Fault(IllegalCommand, word)` and changes nothing else; and every other word is some command's. -/
def Obligations.IllegalWordChangesOnlyFaultRecord : Prop :=
  (∀ (w : Word) (s : State) (rest : List HostAccess), IllegalWord w → s.host = .command w :: rest →
    step s = .next
      { faulted { s with host := rest } .illegalCommand w.toNat with reply := .completion (some .illegalCommand) })
    ∧ ∀ w : Word, ¬ IllegalWord w → ∃ i, decode w = .ok i

/-! ## The step and the host's ports -/

/-- A step runs the decoded command (R70, R80): when the host presents a legal word, the step is that command's `exec` on the
state with the access taken, and the port answers the completion result that `FKIND` records (the list of accesses and the field
of the answer are the model's, log entries 2 and 3). -/
def Obligations.StepRunsDecodedCommand : Prop :=
  ∀ (s : State) (w : Word) (i : Instr) (rest : List HostAccess), s.host = .command w :: rest → decode w = .ok i →
    ∃ t, exec i { s with host := rest } = .next t ∧ step s = .next { t with reply := .completion t.fkind }

/-- R270: with nothing presented the block waits and all state survives waiting (that waiting is a step is log entry 2). -/
def Obligations.WaitingKeepsAllState : Prop :=
  ∀ s : State, s.host = [] → step s = .next s

/-- R22: the register map, reads zero-extended, writes kept to the width, writes to read-only registers and register 15 ignored; and
the reset column: every register reads 0 after reset but `SLI`, which reads `0xFFFF`. -/
def Obligations.RegisterPortReadsAndWrites : Prop :=
  (∀ n : BitVec 4, registerValue State.reset n = if n = 5 then 0xFFFF else 0)
  ∧ ∀ (s : State) (n : BitVec 4) (rest : List HostAccess),
    (s.host = .readReg n :: rest → step s = .next { s with host := rest, reply := .data (registerValue s n) })
    ∧ ∀ v : DWord, s.host = .writeReg n v :: rest →
      ∃ t, step s = .next t
        ∧ (∀ m : BitVec 4, registerValue t m =
            match writableWidth n with
            | some width => if m = n then BitVec.ofNat 64 (v.toNat % 2 ^ width) else registerValue s m
            | none => registerValue s m)
        ∧ t = { s with
            ilen := t.ilen, nodecnt := t.nodecnt, sli := t.sli, pbits := t.pbits, clen := t.clen
            cbits := t.cbits, host := rest, reply := .written }

/-- R244's port half: every register, table or buffer access is answered, none faults, and none changes `FKIND`, `FSTICKY` or
`FINFO`. A buffer access at an index the buffer does not have is among them. -/
def Obligations.PortAccessKeepsFaultRecord : Prop :=
  ∀ (s : State) (a : HostAccess) (rest : List HostAccess), s.host = a :: rest → (∀ w, a ≠ .command w) → a ≠ .hardReset →
    ∃ t, step s = .next t ∧ t.fkind = s.fkind ∧ t.finfo = s.finfo ∧ t.fsticky = s.fsticky

/-- R67 and R66: a buffer write of the host is read back, no other byte of that buffer and no other buffer changes, and nothing else
does; a buffer read changes nothing. At an index the buffer does not have a read answers some byte, a write changes nothing (the
model's choice, log entry 5). -/
def Obligations.BufferPortIsPlainStorage : Prop :=
  ∀ (s : State) (rest : List HostAccess), BuffersCanonical s →
    (∀ b index, s.host = .readByte b index :: rest → ¬ Exceeds (capacityOf s.cfg b) (index + 1) →
      step s = .next { s with host := rest, reply := .byte ((s.buffer b).read index) })
    ∧ (∀ b index, s.host = .readByte b index :: rest → Exceeds (capacityOf s.cfg b) (index + 1) →
      ∃ v count, step s = .next { s with host := rest, reply := .byte v, openAnswers := count })
    ∧ (∀ (b : HostBuffer) index v, s.host = .writeByte b index v :: rest → Exceeds (capacityOf s.cfg b.toBuffer) (index + 1) →
      step s = .next { s with host := rest, reply := .written })
    ∧ ∀ (b : HostBuffer) index v, s.host = .writeByte b index v :: rest →
      ¬ Exceeds (capacityOf s.cfg b.toBuffer) (index + 1) →
      ∃ t, step s = .next t
        ∧ (∀ c i, (t.buffer c).read i = if c = b.toBuffer ∧ i = index then v else (s.buffer c).read i)
        ∧ t = { s with ibuf := t.ibuf, tbuf := t.tbuf, pbuf := t.pbuf, host := rest, reply := .written }

/-- R113 and R36: the table port reads an entry as valid, length and bits in the layout of R32 with zeros beyond the length; it
reads and writes `FREQ`. Of an entry that is `none` only `valid = 0` is stated: its length and words are free values (the model's
choice, log entry 14). -/
def Obligations.TablePortReadsEntries : Prop :=
  ∀ (s : State) (sym : Byte) (rest : List HostAccess),
    (s.host = .readCode sym :: rest → tableGet s.ct sym = none →
      ∃ len words count, step s = .next { s with host := rest, reply := .entry false len words, openAnswers := count })
    ∧ (∀ c, s.host = .readCode sym :: rest → tableGet s.ct sym = some c → c.bits.length ≤ 256 →
      ∃ len words, step s = .next { s with host := rest, reply := .entry true len words } ∧ len.toNat = c.bits.length
        ∧ ∀ (q r : Nat) (hq : q < 4), r < 64 → words[q].getLsbD r = c.bits.getD (64 * q + r) false)
    ∧ (s.host = .readFreq sym :: rest → step s = .next { s with host := rest, reply := .data (tableGet s.freq sym) })
    ∧ ∀ v, s.host = .writeFreq sym v :: rest → ∃ t, step s = .next t
        ∧ (∀ y, tableGet t.freq y = if y = sym then v else tableGet s.freq y)
        ∧ t = { s with freq := t.freq, host := rest, reply := .written }

/-- R23: the fields of `STATUS` and its reserved bits. -/
def Obligations.StatusWordFields : Prop :=
  ∀ s : State, s.status.getLsbD 0 = s.tree.isSome
    ∧ s.status.getLsbD 1 = (match s.tree with | some (.leaf _ _) => true | _ => false)
    ∧ s.status.getLsbD 2 = s.tail ∧ s.status.getLsbD 3 = s.fsticky
    ∧ s.status.extractLsb' 4 4 = 0 ∧ s.status.extractLsb' 8 8 = faultCode s.fkind ∧ s.status.extractLsb' 16 16 = 0

/-- R252: the codes of the seventeen kinds and of no fault; there is no other kind. -/
def Obligations.FaultCodesOfEachKind : Prop :=
  let kinds := [FaultKind.limitExceeded, .truncatedLength, .magicMismatch, .contentLengthOverflow, .checksumMismatch,
    .treeRegionOverflow, .specialLeafIndexRange, .payloadRegionOverflow, .stackUnderflow, .stackResidue, .emptyTree,
    .illegalCommand, .noTree, .missingCode, .emptyFrequencyTable, .capacity, .overflow]
  faultCode none = 0x00
    ∧ kinds.map (fun k => faultCode (some k))
      = [0x01, 0x10, 0x11, 0x12, 0x13, 0x14, 0x15, 0x16, 0x20, 0x21, 0x22, 0x30, 0x31, 0x32, 0x33, 0x34, 0x35]
    ∧ ∀ k : FaultKind, k ∈ kinds

/-! ## The fault record -/

/-- R251: a command presented ends in one of two ways. Completed: the record is cleared, `FSTICKY` kept (but by `RESET` and `CLRF`), the
answer is `OK`. Faulted: the record is written, `FSTICKY` set, no other state changes, the answer is the kind. -/
def Obligations.CommandCompletesOrFaults : Prop :=
  ∀ (s : State) (w : Word) (i : Instr) (rest : List HostAccess), s.host = .command w :: rest → decode w = .ok i →
    ∃ t, step s = .next t ∧
      ((t.fkind = none ∧ t.finfo = 0 ∧ t.reply = .completion none
          ∧ t.fsticky = (if i = .reset ∨ i = .clrf then false else s.fsticky))
        ∨ ∃ k info, t =
            { s with fkind := some k, finfo := info, fsticky := true, host := rest, reply := .completion (some k) })

/-- R260: which command can raise what; each can (the capacities being in the range of R10); and a word that is no command raises
`IllegalCommand`. -/
def Obligations.CommandsRaiseExactlyTheirFaults : Prop :=
  (∀ (i : Instr) (s t : State) (k : FaultKind), s.cfg.InRange → exec i s = .next t → t.fkind = some k → k ∈ mayRaise i)
    ∧ (∀ (i : Instr) (k : FaultKind), k ∈ mayRaise i → ∃ s t : State, s.cfg.InRange ∧ exec i s = .next t ∧ t.fkind = some k)
    ∧ ∀ (w : Word) (s t : State) (rest : List HostAccess), (∀ i, decode w ≠ .ok i) → s.host = .command w :: rest →
      step s = .next t → t.fkind = some .illegalCommand

/-- R292: no command hangs or stops the machine. -/
def Obligations.EveryCommandTerminates : Prop :=
  ∀ (i : Instr) (s : State), ∃ t, exec i s = .next t
    ∧ (t.fkind = none ∧ t.finfo = 0 ∨ ∃ k info, t = { s with fkind := some k, finfo := info, fsticky := true })

/-- R23: `FSTICKY` is set by every command that faults, whatever its word, and cleared only by `CLRF`, `RESET` and hardware reset. -/
def Obligations.StickyFlagClearedOnlyByThree : Prop :=
  (∀ (s t : State) (w : Word) (rest : List HostAccess), s.host = .command w :: rest → step s = .next t →
    t.fkind ≠ none → t.fsticky = true)
  ∧ ∀ s t : State, step s = .next t → s.fsticky = true → t.fsticky = false →
    ∃ rest, s.host = .command 0x00000002 :: rest ∨ s.host = .command 0x00000001 :: rest ∨ s.host = .hardReset :: rest

/-! ## System commands -/

/-- R240: `NOP`, the all-zero word, leaves all state but `FKIND` and `FINFO` unchanged. -/
def Obligations.NopWritesOnlyFaultRecord : Prop :=
  (∀ w : Word, decode w = .ok .nop ↔ w = 0) ∧ ∀ s : State, exec .nop s = .next { s with fkind := none, finfo := 0 }

/-- R55, R241, R280: after the `RESET` command and after hardware reset alike every piece of state has its reset value. That the
model's own fields are kept, the configuration (R54), the host's accesses to come, the ports' answer and the count of free answers,
is the model's choice (log entry 10). -/
def Obligations.ResetRestoresEveryValue : Prop :=
  ∀ (s : State), ∃ t, exec .reset s = .next t
    ∧ t =
      { tail := false, fsticky := false, fkind := none, finfo := 0, ilen := 0, olen := 0, nodecnt := 0
        sli := BitVec.ofInt 16 (-1), pbits := 0, cksum := 0, clen := 0, cbits := Vector.replicate 4 0
        pk := { buf := [], part := 0, bitcnt := 0 }, ct := Vector.replicate 256 none, freq := Vector.replicate 256 0
        tree := none, ibuf := [], obuf := [], tbuf := [], pbuf := [], cfg := s.cfg, host := s.host, reply := s.reply
        openAnswers := s.openAnswers }
    ∧ t.status = 0 ∧ t.tnodes = 0 ∧ (∀ b i, (t.buffer b).read i = 0)
    ∧ (∀ rest, s.host = .hardReset :: rest → ∃ r, step s = .next { t with host := rest, reply := r })
    ∧ State.reset =
      { t with
        cfg := State.reset.cfg, host := State.reset.host, reply := State.reset.reply
        openAnswers := State.reset.openAnswers }

/-- R242: `CLRF` clears `FSTICKY`, and `FKIND` and `FINFO` as every completing command. -/
def Obligations.ClrfClearsStickyFlag : Prop :=
  decode 0x00000002 = .ok .clrf ∧ ∀ s : State, exec .clrf s = .next { s with fsticky := false, fkind := none, finfo := 0 }

/-! ## The code table -/

/-- R111: `CT.CLR` makes every entry `none` and touches nothing else. -/
def Obligations.CtClrEmptiesCodeTable : Prop :=
  decode 0x00000010 = .ok .ctClr ∧ ∀ s : State, ∃ t, exec .ctClr s = .next t ∧ (∀ y, tableGet t.ct y = none)
    ∧ t = { s with ct := t.ct, fkind := none, finfo := 0 }

/-- R112: `CT.LOAD` builds the entry of its symbol from the staged operands, or faults with `CT` as it was. -/
def Obligations.CtLoadBuildsStagedCode : Prop :=
  ∀ (s : State) (sym : Byte),
    if s.clen.toNat > 256 then exec (.ctLoad sym) s = .next (faulted s .limitExceeded s.clen.toNat)
    else ∃ t c, exec (.ctLoad sym) s = .next t ∧ tableGet t.ct sym = some c ∧ c.sym = sym ∧ c.bits.length = s.clen.toNat
      ∧ (∀ (q r : Nat) (hq : q < 4), r < 64 → 64 * q + r < s.clen.toNat →
          c.bits.getD (64 * q + r) false = s.cbits[q].getLsbD r)
      ∧ (∀ y, y ≠ sym → tableGet t.ct y = tableGet s.ct y)
      ∧ t = { s with ct := t.ct, fkind := none, finfo := 0 }

/-! ## The packer -/

/-- R120: `PK.RST` starts a new stream. -/
def Obligations.PkRstStartsNewStream : Prop :=
  decode 0x00000020 = .ok .pkRst ∧ ∀ s : State, ∃ t, exec .pkRst s = .next t ∧ t.pk.stream = [] ∧ t.pk.bitcnt = 0
    ∧ t = { s with pk := { buf := [], part := 0, bitcnt := 0 }, fkind := none, finfo := 0 }

/-- R121, R122, R123: `PK.APPEND` puts the bits of the symbol's code at the end of the stream, or faults and appends nothing. -/
def Obligations.PkAppendExtendsStream : Prop :=
  ∀ (s : State) (sym : Byte), s.pk.Ok s.cfg.pbCap →
    match tableGet s.ct sym with
    | none => exec (.pkAppend sym) s = .next (faulted s .missingCode sym.toNat)
    | some c =>
      if s.pk.bitcnt.toNat + c.bits.length ≥ 2 ^ 64 then exec (.pkAppend sym) s = .next (faulted s .overflow 3)
      else if Exceeds s.cfg.pbCap ((s.pk.bitcnt.toNat + c.bits.length + 7) / 8) then
        exec (.pkAppend sym) s = .next (faulted s .capacity 4)
      else ∃ t, exec (.pkAppend sym) s = .next t ∧ t.pk.stream = s.pk.stream ++ c.bits
        ∧ t.pk.bitcnt.toNat = s.pk.bitcnt.toNat + c.bits.length ∧ t.pk.Ok s.cfg.pbCap
        ∧ t = { s with pk := t.pk, fkind := none, finfo := 0 }

/-- R124: `PK.ENCODE` appends the code of every input byte, the same as `PK.APPEND` on each in order, or faults, reporting in the
order capacity of the input, first byte without a code, bit total, capacity of the payload, and appends nothing. -/
def Obligations.PkEncodeAppendsEveryInputByte : Prop :=
  ∀ s : State, s.pk.Ok s.cfg.pbCap →
    if s.ilen.toNat > s.cfg.inCap then exec .pkEncode s = .next (faulted s .capacity 1)
    else
      (∀ i, i < s.ilen.toNat → tableGet s.ct (s.ibuf.read i) = none →
        (∀ j, j < i → tableGet s.ct (s.ibuf.read j) ≠ none) →
        exec .pkEncode s = .next (faulted s .missingCode ((s.ibuf.read i).toNat + 256 * i)))
      ∧ ((∀ i, i < s.ilen.toNat → tableGet s.ct (s.ibuf.read i) ≠ none) →
        let bits := codeBits s.ct (inputBytes s)
        if s.pk.bitcnt.toNat + bits.length ≥ 2 ^ 64 then exec .pkEncode s = .next (faulted s .overflow 3)
        else if Exceeds s.cfg.pbCap ((s.pk.bitcnt.toNat + bits.length + 7) / 8) then
          exec .pkEncode s = .next (faulted s .capacity 4)
        else ∃ t u, exec .pkEncode s = .next t ∧ t.pk.stream = s.pk.stream ++ bits
          ∧ t.pk.bitcnt.toNat = s.pk.bitcnt.toNat + bits.length ∧ t.pk.Ok s.cfg.pbCap
          ∧ t = { s with pk := t.pk, fkind := none, finfo := 0 }
          ∧ runAll ((inputBytes s).map .pkAppend) s = some u ∧ t = done u)

/-- R125: `PK.FLUSH` writes the stream and zero pad bits to `PBUF[0..ceil8(BITCNT))`, sets `PBITS`, and changes nothing else. -/
def Obligations.PkFlushWritesStream : Prop :=
  ∀ s : State, s.pk.Ok s.cfg.pbCap → s.pbuf.wf →
    ∃ t, exec .pkFlush s = .next t ∧ t.pbits = s.pk.bitcnt
      ∧ (∀ k, k < s.pk.bitcnt.toNat → s.pk.stream[k]? = some ((t.pbuf.read (k / 8)).getLsbD (k % 8)))
      ∧ (∀ k, s.pk.bitcnt.toNat ≤ k → k < 8 * ((s.pk.bitcnt.toNat + 7) / 8) →
          (t.pbuf.read (k / 8)).getLsbD (k % 8) = false)
      ∧ (∀ a, (s.pk.bitcnt.toNat + 7) / 8 ≤ a → t.pbuf.read a = s.pbuf.read a)
      ∧ t = { s with pbuf := t.pbuf, pbits := t.pbits, fkind := none, finfo := 0 }

/-- R126: the closed form of a stream packed from fresh by any mixture of `PK.APPEND` and `PK.ENCODE`, and of its flush. -/
def Obligations.PackedStreamClosedForm : Prop :=
  ∀ (s : State) (ops : List (Option Byte)), s.pbuf.wf → s.ilen.toNat ≤ s.cfg.inCap →
    (∀ op ∈ ops, ∀ sym ∈ packSymbols s op, tableGet s.ct sym ≠ none) →
    let bits := codeBits s.ct (ops.flatMap (packSymbols s))
    bits.length < 2 ^ 64 → ¬ Exceeds s.cfg.pbCap ((bits.length + 7) / 8) →
    ∃ t u, runAll (.pkRst :: ops.map packCommand) s = some t ∧ t.pk.bitcnt.toNat = bits.length
      ∧ t.pk.buf.length = bits.length / 8
      ∧ (∀ q, q < bits.length / 8 → (t.pk.buf.getD q 0).toNat = bitSum ((bits.drop (8 * q)).take 8))
      ∧ t.pk.part.toNat = bitSum (bits.drop (8 * (bits.length / 8)))
      ∧ exec .pkFlush t = .next u
      ∧ (∀ k, k < bits.length → bits[k]? = some ((u.pbuf.read (k / 8)).getLsbD (k % 8)))
      ∧ ∀ k, bits.length ≤ k → k < 8 * ((bits.length + 7) / 8) → (u.pbuf.read (k / 8)).getLsbD (k % 8) = false

/-! ## Frequencies, tree construction, code derivation -/

/-- R140: `FQ.CLR` makes every count 0. -/
def Obligations.FqClrZeroesCounts : Prop :=
  decode 0x00000030 = .ok .fqClr ∧ ∀ s : State, ∃ t, exec .fqClr s = .next t ∧ (∀ y, tableGet t.freq y = 0)
    ∧ t = { s with freq := t.freq, fkind := none, finfo := 0 }

/-- R141: `FQ.COUNT` adds the input's counts to the table, or faults with the table unchanged. -/
def Obligations.FqCountAddsInputCounts : Prop :=
  ∀ s : State,
    if s.ilen.toNat > s.cfg.inCap then exec .fqCount s = .next (faulted s .capacity 1)
    else
      ((∃ y, (tableGet s.freq y).toNat + (inputBytes s).count y ≥ 2 ^ 64) →
        exec .fqCount s = .next (faulted s .overflow 1))
      ∧ ((∀ y, (tableGet s.freq y).toNat + (inputBytes s).count y < 2 ^ 64) →
        ∃ t, exec .fqCount s = .next t
          ∧ (∀ y, (tableGet t.freq y).toNat = (tableGet s.freq y).toNat + (inputBytes s).count y)
          ∧ t = { s with freq := t.freq, fkind := none, finfo := 0 })

/-- R142, R143, R144: `TR.BUILD` builds the tree that the combining loop makes of the counted symbols' leaves, or faults with `TREE`
unchanged. The order among equal weights is the reference order of R144 (log entry 7). -/
def Obligations.TrBuildCombinesLowestTwo : Prop :=
  ∀ s : State,
    if ∀ y, tableGet s.freq y = 0 then exec .trBuild s = .next (faulted s .emptyFrequencyTable 0)
    else if countSum s.freq ≥ 2 ^ 64 then exec .trBuild s = .next (faulted s .overflow 2)
    else ∃ t tr, exec .trBuild s = .next t ∧ t.tree = some tr
      ∧ Builds (presentSymbols s.freq).length (startEntries s.freq) tr
      ∧ t.treeValid = true ∧ (t.rootLeaf = true ↔ (presentSymbols s.freq).length = 1) ∧ t.tnodes.toNat = tr.nodes
      ∧ t = { s with tree := t.tree, fkind := none, finfo := 0 }

/-- R145: what a built tree is: `2n - 1` nodes, weights that add up, the root's the sum of all counts, depth at most `n - 1`, each counted
symbol in one leaf with its count; and `TR.CODES` completes on it. -/
def Obligations.BuiltTreeShape : Prop :=
  ∀ (s t : State) (tr : HuffmanTree), exec .trBuild s = .next t → t.fkind = none → t.tree = some tr →
    let n := (presentSymbols s.freq).length
    1 ≤ n ∧ n ≤ 256 ∧ tr.nodes = 2 * n - 1 ∧ tr.weightsAdd = true ∧ tr.weight.toNat = countSum s.freq
      ∧ tr.depth ≤ n - 1 ∧ tr.leaves.Perm ((presentSymbols s.freq).map fun y => (y, tableGet s.freq y))
      ∧ ∃ u, exec .trCodes t = .next u ∧ u.fkind = none

/-- R146 to R150: `TR.CODES` writes for each key of the tree its code and `none` for every other symbol; with no tree, or with a leaf
deeper than 256, it faults and leaves the table. -/
def Obligations.TrCodesDerivesPaths : Prop :=
  ∀ s : State,
    match s.tree with
    | none => exec .trCodes s = .next (faulted s .noTree 0)
    | some tr =>
      (∀ p k, tr.keyAt p = some k → p.length > 256 →
        (∀ q j, tr.keyAt q = some j → leftOf q p = true → q.length ≤ 256) →
        exec .trCodes s = .next (faulted s .limitExceeded p.length))
      ∧ ((∀ p k, tr.keyAt p = some k → p.length ≤ 256) →
        ∃ t, exec .trCodes s = .next t
          ∧ (∀ k, k ∉ tr.keys → tableGet t.ct k = none)
          ∧ (∀ k, k ∈ tr.keys → ∃ c, tableGet t.ct k = some c ∧ c.sym = k ∧ IsCode tr k c.bits)
          ∧ t = { s with ct := t.ct, fkind := none, finfo := 0 })

/-- R151: for a tree with at least two leaves the codes form a prefix code, each as long as its leaf is deep,
and walking the tree along a code ends exactly at its leaf. -/
def Obligations.DerivedCodesArePrefixFree : Prop :=
  ∀ (s t : State) (tr : HuffmanTree), s.tree = some tr → tr.isLeaf = false →
    exec .trCodes s = .next t → t.fkind = none →
    (∀ k c, tableGet t.ct k = some c → tr.keyAt c.bits = some k)
      ∧ ∀ k j c d, tableGet t.ct k = some c → tableGet t.ct j = some d → c.bits <+: d.bits → k = j

/-! ## The tree codec -/

/-- R160 to R163: `TR.SER` writes the postorder listing, its length and the place of the leaf of key 0x00; nothing else. -/
def Obligations.TrSerWritesPostorder : Prop :=
  ∀ s : State, s.tbuf.wf →
    match s.tree with
    | none => exec .trSer s = .next (faulted s .noTree 0)
    | some tr => tr.Ok →
      ∃ t, exec .trSer s = .next t ∧ t.nodecnt.toInt = tr.nodes
        ∧ (∀ i b isLeaf, tr.listing[i]? = some (b, isLeaf) → t.tbuf.read i = b)
        ∧ (∀ i, tr.nodes ≤ i → t.tbuf.read i = s.tbuf.read i)
        ∧ (∀ i : Nat, t.sli.toInt = i ↔ tr.listing[i]? = some (0x00, true))
        ∧ ((∀ i : Nat, tr.listing[i]? ≠ some (0x00, true)) → t.sli.toInt = -1)
        ∧ t = { s with tbuf := t.tbuf, nodecnt := t.nodecnt, sli := t.sli, fkind := none, finfo := 0 }

/-- R164 to R167: `TR.DESER` checks the count and the index, then replays the record: the tree whose postorder listing the record is, or
the first of the three structural faults, with `TREE` unchanged. -/
def Obligations.TrDeserReplaysRecord : Prop :=
  ∀ s : State,
    if s.nodecnt.toInt < 0 then exec .trDeser s = .next (faulted s .treeRegionOverflow s.nodecnt.toNat)
    else if s.sli.toInt ≥ 0 ∧ s.sli.toInt ≥ s.nodecnt.toInt then
      exec .trDeser s = .next (faulted s .specialLeafIndexRange s.sli.toNat)
    else
      (∀ i, Underflows (recordMarked s) i → (∀ j, j < i → ¬ Underflows (recordMarked s) j) →
        exec .trDeser s = .next (faulted s .stackUnderflow i))
      ∧ ((∀ i, ¬ Underflows (recordMarked s) i) →
        let left := stackHeight (recordMarked s) s.nodecnt.toNat
        if left = 0 then exec .trDeser s = .next (faulted s .emptyTree 0)
        else if left > 1 then exec .trDeser s = .next (faulted s .stackResidue left.toNat)
        else ∃ tr, tr.listing = recordMarked s ∧ tr.unweighted = tr ∧ (tr.nodes : Int) = s.nodecnt.toInt
          ∧ exec .trDeser s = .next { s with tree := some tr, fkind := none, finfo := 0 })

/-- R168: serialising a tree and deserialising the record gives the tree with weights 0; and a record that deserialises is written
back by `TR.SER`, with its index where that is a leaf of key 0x00, and -1 otherwise. -/
def Obligations.TreeSerialisationRoundTrip : Prop :=
  (∀ (s : State) (tr : HuffmanTree), s.tbuf.wf → s.tree = some tr → tr.Ok →
    ∃ t u, exec .trSer s = .next t ∧ exec .trDeser t = .next u ∧ u.fkind = none ∧ u.tree = some tr.unweighted)
  ∧ ∀ (s t : State), s.tbuf.wf → exec .trDeser s = .next t → t.fkind = none →
    ∃ u, exec .trSer t = .next u ∧ u.fkind = none ∧ u.nodecnt = s.nodecnt
      ∧ (∀ i, u.tbuf.read i = s.tbuf.read i)
      ∧ u.sli = if 0 ≤ s.sli.toInt ∧ s.tbuf.read s.sli.toNat = 0x00 then s.sli else 0xFFFF

/-! ## The checksum and the container -/

/-- R180, R182, R183: `CK.SUM` writes the checksum of the input, in closed form for every value of the three options. -/
def Obligations.CkSumClosedForm : Prop :=
  ∀ s : State,
    if s.ilen.toNat > s.cfg.inCap then exec .ckSum s = .next (faulted s .capacity 1)
    else exec .ckSum s = .next { s with cksum := checksumClosed s.cfg.ck (inputBytes s), fkind := none, finfo := 0 }

/-- R185, R186: `CN.BUILD` writes header and content region to `OBUF[0..16+|content|)`, sets `OLEN` and `CKSUM`, or faults. -/
def Obligations.CnBuildWritesContainer : Prop :=
  ∀ s : State, s.obuf.wf →
    let m := (s.pbits.toNat + 7) / 8
    if s.nodecnt.toInt < 0 then exec .cnBuild s = .next (faulted s .treeRegionOverflow s.nodecnt.toNat)
    else if Exceeds s.cfg.pbCap m then exec .cnBuild s = .next (faulted s .capacity 4)
    else if Exceeds s.cfg.outCap (28 + s.nodecnt.toNat + m) then exec .cnBuild s = .next (faulted s .capacity 2)
    else
      let body := contentBytes s
      let c := checksum s.cfg.ck body
      let file := headerBytes c body.length ++ body
      ∃ t, exec .cnBuild s = .next t ∧ t.cksum = c ∧ t.olen.toNat = 16 + body.length ∧ body.length = 12 + s.nodecnt.toNat + m
        ∧ (∀ i, t.obuf.read i = if i < file.length then file.getD i 0 else s.obuf.read i)
        ∧ t = { s with obuf := t.obuf, olen := t.olen, cksum := t.cksum, fkind := none, finfo := 0 }

/-- R188 to R195: the checks of `CN.PARSE` in their order, each with its fault and detail, and the records it writes when all pass. -/
def Obligations.CnParseChecksInOrder : Prop :=
  ∀ s : State, s.tbuf.wf → s.pbuf.wf →
    let total := s.ilen.toNat
    let g := fieldSum s.ibuf 0 4
    let h := fieldSum s.ibuf 4 4
    let len := fieldSum s.ibuf 8 8
    let c := checksum s.cfg.ck ((List.range len).map fun i => s.ibuf.read (16 + i))
    let n : Half := BitVec.ofNat 16 (fieldSum s.ibuf 16 2)
    let x : Half := BitVec.ofNat 16 (fieldSum s.ibuf 18 2)
    let k := fieldSum s.ibuf (20 + n.toNat) 8
    let m := (k + 7) / 8
    if total > s.cfg.inCap then exec .cnParse s = .next (faulted s .capacity 1)
    else if total < 28 then exec .cnParse s = .next (faulted s .truncatedLength total)
    else if g ≠ 0xCAFEF00D then exec .cnParse s = .next (faulted s .magicMismatch g)
    else if 16 + len > total then exec .cnParse s = .next (faulted s .contentLengthOverflow len)
    else if c.toNat ≠ h then exec .cnParse s = .next (faulted s .checksumMismatch (c.toNat * 2 ^ 32 + h))
    else if len < 4 then exec .cnParse s = .next (faulted s .treeRegionOverflow len)
    else if n.toInt < 0 ∨ n.toInt + 4 > len then exec .cnParse s = .next (faulted s .treeRegionOverflow n.toNat)
    else if x.toInt ≥ 0 ∧ x.toInt ≥ n.toInt then exec .cnParse s = .next (faulted s .specialLeafIndexRange x.toNat)
    else if 12 + n.toNat > len then exec .cnParse s = .next (faulted s .payloadRegionOverflow len)
    else if 12 + n.toNat + m > len then exec .cnParse s = .next (faulted s .payloadRegionOverflow k)
    else if Exceeds s.cfg.pbCap m then exec .cnParse s = .next (faulted s .capacity 4)
    else ∃ t, exec .cnParse s = .next t ∧ t.nodecnt = n ∧ t.sli = x ∧ t.pbits.toNat = k ∧ t.cksum = c
      ∧ (∀ i, t.tbuf.read i = if i < n.toNat then s.ibuf.read (20 + i) else s.tbuf.read i)
      ∧ (∀ i, t.pbuf.read i = if i < m then s.ibuf.read (28 + n.toNat + i) else s.pbuf.read i)
      ∧ t = { s with
          nodecnt := t.nodecnt, sli := t.sli, tbuf := t.tbuf, pbits := t.pbits, pbuf := t.pbuf
          cksum := t.cksum, fkind := none, finfo := 0 }

/-- R198: parsing what was built passes all checks and restores the records. -/
def Obligations.ParseRestoresBuiltRecords : Prop :=
  ∀ (s t : State) (m : Memory), BuffersCanonical s → s.cfg.InRange → 0 ≤ s.nodecnt.toInt →
    (s.sli.toInt < 0 ∨ s.sli.toInt < s.nodecnt.toInt) →
    exec .cnBuild s = .next t → t.fkind = none → HoldsOutput t m → t.olen.toNat ≤ s.cfg.inCap →
    ∃ u, exec .cnParse (copiedBack t m) = .next u ∧ u.fkind = none ∧ u.nodecnt = s.nodecnt ∧ u.sli = s.sli
      ∧ u.pbits = s.pbits ∧ u.cksum = t.cksum ∧ (∀ i, u.tbuf.read i = s.tbuf.read i)
      ∧ ∀ i, u.pbuf.read i = s.pbuf.read i

/-- R199's content region part: in a container that parses, changing any one byte of the content region, a single flipped bit among
such changes, is always a `ChecksumMismatch`; and of the header, any change of bytes 0 to 3 a `MagicMismatch`, of bytes 4 to 7 a
`ChecksumMismatch`. -/
def Obligations.CorruptedByteIsDetected : Prop :=
  ∀ (s t : State) (i : Nat) (v : Byte), s.ibuf.wf → exec .cnParse s = .next t → t.fkind = none →
    v ≠ s.ibuf.read i → i < 16 + fieldSum s.ibuf 8 8 → (i < 8 ∨ 16 ≤ i) →
    ∃ info, exec .cnParse { s with ibuf := s.ibuf.write i v } =
      .next (faulted { s with ibuf := s.ibuf.write i v } (if i < 4 then .magicMismatch else .checksumMismatch) info)

/-! ## The unpacker -/

/-- R210 to R216: `UP.DECODE` emits the keys of the whole codes in the stream, sets `TAIL` when an unfinished code is left, and writes
`OBUF[0..OLEN)`; or it faults with all state kept. The stream has a reading along the tree, and the result is that of every reading. -/
def Obligations.UpDecodeWalksTree : Prop :=
  ∀ s : State, s.obuf.wf →
    match s.tree with
    | none => exec .upDecode s = .next (faulted s .noTree 0)
    | some tr =>
      if Exceeds s.cfg.pbCap ((s.pbits.toNat + 7) / 8) then exec .upDecode s = .next (faulted s .capacity 4)
      else (∃ ks rest, Reads tr (payloadBits s) ks rest)
        ∧ ∀ ks rest, Reads tr (payloadBits s) ks rest →
          if Exceeds s.cfg.outCap ks.length then exec .upDecode s = .next (faulted s .capacity 2)
          else ∃ t, exec .upDecode s = .next t ∧ t.olen.toNat = ks.length ∧ t.tail = !rest.isEmpty
            ∧ (∀ i, t.obuf.read i = if i < ks.length then ks.getD i 0 else s.obuf.read i)
            ∧ t = { s with obuf := t.obuf, olen := t.olen, tail := t.tail, fkind := none, finfo := 0 }

/-- R214: along a tree whose root is a Leaf every bit of the stream emits the root's key, whatever the bit, and `TAIL` is 0. -/
def Obligations.UpDecodeOfLeafRoot : Prop :=
  ∀ (s : State) (key : Byte) (weight : DWord), s.obuf.wf → s.tree = some (.leaf key weight) →
    ¬ Exceeds s.cfg.pbCap ((s.pbits.toNat + 7) / 8) → ¬ Exceeds s.cfg.outCap s.pbits.toNat →
    ∃ t, exec .upDecode s = .next t ∧ t.olen = s.pbits
      ∧ (∀ i, t.obuf.read i = if i < s.pbits.toNat then key else s.obuf.read i)
      ∧ t = { s with obuf := t.obuf, olen := s.pbits, tail := false, fkind := none, finfo := 0 }

/-- R217: unpacking inverts packing, for any tree with distinct keys, and for the same tree with its weights forgotten. -/
def Obligations.UnpackInvertsPack : Prop :=
  ∀ (s a b : State) (tr dec : HuffmanTree), BuffersCanonical s → s.tree = some tr → tr.keys.Nodup →
    dec.unweighted = tr.unweighted → (∀ d ∈ inputBytes s, d ∈ tr.keys) → ¬ Exceeds s.cfg.outCap s.ilen.toNat →
    exec .trCodes s = .next a → a.fkind = none →
    runWhileOk [.pkRst, .pkEncode, .pkFlush] a = .ok b →
    ∃ t, exec .upDecode { b with tree := some dec } = .next t ∧ t.fkind = none ∧ t.olen = s.ilen ∧ t.tail = false
      ∧ ∀ i, i < s.ilen.toNat → t.obuf.read i = s.ibuf.read i

/-! ## The entry points -/

/-- R230: `COMPRESS` is its nine commands made atomic; an empty input writes `OLEN = 0` and nothing else. -/
def Obligations.CompressIsItsNineCommands : Prop :=
  ∀ s : State,
    if s.ilen.toNat > s.cfg.inCap then exec .compress s = .next (faulted s .capacity 1)
    else if s.ilen = 0 then exec .compress s = .next { s with olen := 0, fkind := none, finfo := 0 }
    else match runWhileOk [.fqClr, .fqCount, .trBuild, .trCodes, .pkRst, .pkEncode, .pkFlush, .trSer, .cnBuild] s with
      | .ok t => exec .compress s = .next t
      | .error f => exec .compress s = .next (faulted s f.kind f.info.toNat)

/-- R231: `DECOMPRESS` is its three commands made atomic; an empty input writes `OLEN = 0` and `TAIL = 0` and nothing else. -/
def Obligations.DecompressIsItsThreeCommands : Prop :=
  ∀ s : State,
    if s.ilen.toNat > s.cfg.inCap then exec .decompress s = .next (faulted s .capacity 1)
    else if s.ilen = 0 then exec .decompress s = .next { s with olen := 0, tail := false, fkind := none, finfo := 0 }
    else match runWhileOk [.cnParse, .trDeser, .upDecode] s with
      | .ok t => exec .decompress s = .next t
      | .error f => exec .decompress s = .next (faulted s f.kind f.info.toNat)

/-- R230, R234: `COMPRESS` completes on every input the block can hold when payload and output have room for 32 bytes a byte of input,
the output for 511 nodes besides (as unbounded buffers have). It leaves the input's counts, the tree built from them with its codes, and
the payload: the input's codes one after another, in the packer and in `PBUF`, with their bit count. The order among equal weights in
which that tree is built is the model's choice (log entry 7). -/
def Obligations.CompressCompletesAndLeavesResults : Prop :=
  ∀ s : State, BuffersCanonical s → s.cfg.InRange → 0 < s.ilen.toNat → s.ilen.toNat ≤ s.cfg.inCap →
    ¬ Exceeds s.cfg.pbCap (32 * s.ilen.toNat) → ¬ Exceeds s.cfg.outCap (539 + 32 * s.ilen.toNat) →
    ∃ t tr, exec .compress s = .next t ∧ t.fkind = none
      ∧ (∀ y, (tableGet t.freq y).toNat = (inputBytes s).count y)
      ∧ t.tree = some tr ∧ Builds (presentSymbols t.freq).length (startEntries t.freq) tr
      ∧ (∀ y c, tableGet t.ct y = some c → IsCode tr y c.bits)
      ∧ (∀ y, tableGet t.ct y ≠ none ↔ y ∈ inputBytes s)
      ∧ t.pbits = t.pk.bitcnt ∧ t.pk.stream = codeBits t.ct (inputBytes s)
      ∧ payloadBits t = codeBits t.ct (inputBytes s)
      ∧ t.ibuf = s.ibuf ∧ t.ilen = s.ilen ∧ t.tail = s.tail ∧ t.clen = s.clen ∧ t.cbits = s.cbits ∧ t.fsticky = s.fsticky

/-- R231 on a container: with the header and the content region of some records as input, `DECOMPRESS` completes, leaves those records, the
tree they list and the bytes that tree reads from the payload, and changes nothing else. -/
def Obligations.DecompressUnpacksContainer : Prop :=
  ∀ (s r : State) (tr : HuffmanTree) (ks : List Byte) (rest : List Bool), BuffersCanonical s → s.cfg.InRange →
    inputBytes s = headerBytes (checksum s.cfg.ck (contentBytes r)) (contentBytes r).length ++ contentBytes r →
    s.ilen.toNat ≤ s.cfg.inCap → ¬ Exceeds s.cfg.pbCap ((r.pbits.toNat + 7) / 8) → 0 ≤ r.nodecnt.toInt →
    (r.sli.toInt < 0 ∨ r.sli.toInt < r.nodecnt.toInt) → recordMarked r = tr.listing → tr.unweighted = tr →
    Reads tr (payloadBits r) ks rest → ¬ Exceeds s.cfg.outCap ks.length →
    ∃ t, exec .decompress s = .next t ∧ t.tree = some tr ∧ t.nodecnt = r.nodecnt ∧ t.sli = r.sli ∧ t.pbits = r.pbits
      ∧ t.cksum = checksum s.cfg.ck (contentBytes r)
      ∧ (∀ i, t.tbuf.read i = if i < r.nodecnt.toNat then r.tbuf.read i else s.tbuf.read i)
      ∧ (∀ i, t.pbuf.read i = if i < (r.pbits.toNat + 7) / 8 then r.pbuf.read i else s.pbuf.read i)
      ∧ t.olen.toNat = ks.length ∧ t.tail = !rest.isEmpty
      ∧ (∀ i, t.obuf.read i = if i < ks.length then ks.getD i 0 else s.obuf.read i)
      ∧ t = { s with
          nodecnt := t.nodecnt, sli := t.sli, tbuf := t.tbuf, pbits := t.pbits, pbuf := t.pbuf, cksum := t.cksum
          tree := t.tree, obuf := t.obuf, olen := t.olen, tail := t.tail, fkind := none, finfo := 0 }

/-- R232: decompressing what was compressed gives the original bytes. -/
def Obligations.CompressDecompressRoundTrip : Prop :=
  ∀ (s t : State) (m : Memory), BuffersCanonical s → s.cfg.InRange → exec .compress s = .next t → t.fkind = none →
    HoldsOutput t m → t.olen.toNat ≤ s.cfg.inCap → ¬ Exceeds s.cfg.outCap s.ilen.toNat →
    ∃ u, exec .decompress (copiedBack t m) = .next u ∧ u.fkind = none ∧ u.olen = s.ilen ∧ u.tail = false
      ∧ ∀ i, i < s.ilen.toNat → u.obuf.read i = s.ibuf.read i

/-- R233: what `COMPRESS` writes, the container and all else R230 has it write, is a function of the input bytes and the configuration
alone, not of earlier commands. An empty input writes nothing but `OLEN` and the fault record. -/
def Obligations.CompressDependsOnInputOnly : Prop :=
  ∀ (s t s' t' : State), BuffersCanonical s → BuffersCanonical s' → s.cfg = s'.cfg → s.ilen = s'.ilen →
    (∀ i, i < s.ilen.toNat → s.ibuf.read i = s'.ibuf.read i) →
    exec .compress s = .next t → exec .compress s' = .next t' →
    t.fkind = t'.fkind ∧ t.finfo = t'.finfo
      ∧ (t.fkind = none → t.olen = t'.olen ∧ ∀ i, i < t.olen.toNat → t.obuf.read i = t'.obuf.read i)
      ∧ (t.fkind = none → s.ilen ≠ 0 →
        t.freq = t'.freq ∧ t.tree = t'.tree ∧ t.ct = t'.ct ∧ t.pk = t'.pk ∧ t.cksum = t'.cksum
        ∧ t.nodecnt = t'.nodecnt ∧ t.sli = t'.sli ∧ (∀ i, i < t.nodecnt.toNat → t.tbuf.read i = t'.tbuf.read i)
        ∧ t.pbits = t'.pbits ∧ ∀ i, i < (t.pbits.toNat + 7) / 8 → t.pbuf.read i = t'.pbuf.read i)

/-! ## Invariants -/

/-- The reset state meets every invariant, whatever the configuration. -/
def Obligations.ResetMeetsInvariant : Prop :=
  ∀ cfg : Config, State.Inv { State.reset with cfg := cfg }

/-- Every step keeps every buffer in canonical form. -/
def Obligations.StepKeepsBuffersCanonical : Prop :=
  ∀ s t : State, BuffersCanonical s → step s = .next t → BuffersCanonical t

/-- R41: every step keeps the packer's invariants. -/
def Obligations.StepKeepsPackerInvariant : Prop :=
  ∀ s t : State, s.pk.Ok s.cfg.pbCap → step s = .next t → t.pk.Ok t.cfg.pbCap

/-- R35: every step keeps the code table's invariants. -/
def Obligations.StepKeepsCodeTableInvariant : Prop :=
  ∀ s t : State, CodesOk s.ct → step s = .next t → CodesOk t.ct

/-- R33, R37, R40: every step keeps the invariants of the tree held. -/
def Obligations.StepKeepsTreeInvariant : Prop :=
  ∀ s t : State, TreeOk s → step s = .next t → TreeOk t

/-- R251: every step keeps the fault record consistent. -/
def Obligations.StepKeepsFaultRecordConsistent : Prop :=
  ∀ s t : State, FaultRecordOk s → step s = .next t → FaultRecordOk t

/-- R42 to R45, R258: with the whole invariant, no step lists a byte outside its buffer or an `OLEN` above `OUT_CAP`. -/
def Obligations.StepKeepsAccessesInBounds : Prop :=
  ∀ s t : State, s.Inv → step s = .next t → BuffersInBounds t

/-- The whole invariant holds in every state a run from reset reaches. -/
def Obligations.ReachableStatesMeetInvariant : Prop :=
  ∀ s : State, Reachable s → s.Inv

/-! ## Whole-machine frames -/

/-- R25 to R45 ("Written by"): a command writes a piece of state only where the spec lists it; and none writes the configuration (R54)
or the model's other fields of its own. -/
def Obligations.CommandsWriteOnlyTheirState : Prop :=
  ∀ (i : Instr) (s t : State), exec i s = .next t →
    t.cfg = s.cfg ∧ t.host = s.host ∧ t.reply = s.reply ∧ t.openAnswers = s.openAnswers ∧ (i = .reset ∨
      (t.ilen = s.ilen ∧ t.clen = s.clen ∧ t.cbits = s.cbits ∧ t.ibuf = s.ibuf
      ∧ (i ∉ [Instr.upDecode, .decompress] → t.tail = s.tail)
      ∧ (i ∉ [Instr.cnBuild, .upDecode, .compress, .decompress] → t.olen = s.olen ∧ t.obuf = s.obuf)
      ∧ (i ∉ [Instr.trSer, .cnParse, .compress, .decompress] → t.nodecnt = s.nodecnt ∧ t.sli = s.sli ∧ t.tbuf = s.tbuf)
      ∧ (i ∉ [Instr.pkFlush, .cnParse, .compress, .decompress] → t.pbits = s.pbits ∧ t.pbuf = s.pbuf)
      ∧ (i ∉ [Instr.pkRst, .pkEncode, .compress] → (∀ y, i ≠ .pkAppend y) → t.pk = s.pk)
      ∧ (i ∉ [Instr.ckSum, .cnBuild, .cnParse, .compress, .decompress] → t.cksum = s.cksum)
      ∧ (i ∉ [Instr.ctClr, .trCodes, .compress] → (∀ y, i ≠ .ctLoad y) → t.ct = s.ct)
      ∧ (i ∉ [Instr.fqClr, .fqCount, .compress] → t.freq = s.freq)
      ∧ (i ∉ [Instr.trBuild, .trDeser, .compress, .decompress] → t.tree = s.tree)))

/-- R61: a little-endian field is the sum of its bytes, and writing one sets those bytes and no other. -/
def Obligations.LittleEndianFields : Prop :=
  ∀ (m : Memory) (a n v : Nat), m.wf → v < 256 ^ n →
    m.readLE a n = fieldSum m a n ∧ m.readLE a n < 256 ^ n ∧ (m.writeLE a n v).wf
      ∧ (m.writeLE a n v).readLE a n = v
      ∧ (∀ k, k < n → ((m.writeLE a n v).read (a + k)).toNat = v / 256 ^ k % 256)
      ∧ ∀ i, (i < a ∨ a + n ≤ i) → (m.writeLE a n v).read i = m.read i
end

