-- ==== Sys2Proof/Laws/Tables.lean ====
section
/-! SUPPORT. The laws of the symbol-indexed tables. -/

namespace Sys2Proof.Machine

@[simp] theorem tableGet_tableSet_same {α : Type} (t : Vector α Config.symbolCount) (s : Byte) (x : α) :
    tableGet (tableSet t s x) s = x := by
  simp [tableGet, tableSet]

theorem tableGet_tableSet_other {α : Type} (t : Vector α Config.symbolCount) {s r : Byte} (x : α) (h : r ≠ s) :
    tableGet (tableSet t s x) r = tableGet t r := by
  have : s.toNat ≠ r.toNat := fun e => h (BitVec.eq_of_toNat_eq e.symm)
  simp [tableGet, tableSet, this]

theorem tableGet_tableSet {α : Type} (t : Vector α Config.symbolCount) (s r : Byte) (x : α) :
    tableGet (tableSet t s x) r = if r = s then x else tableGet t r := by
  split
  · next h => rw [h, tableGet_tableSet_same]
  · next h => exact tableGet_tableSet_other t x h

@[simp] theorem tableGet_emptyCodes (s : Byte) : tableGet emptyCodes s = none := by
  simp [tableGet, emptyCodes]

@[simp] theorem tableGet_zeroCounts (s : Byte) : tableGet zeroCounts s = 0 := by
  simp [tableGet, zeroCounts]

/-- Two tables that agree on every symbol are equal. -/
theorem table_ext {α : Type} {t u : Vector α Config.symbolCount} (h : ∀ s, tableGet t s = tableGet u s) : t = u := by
  ext i hi
  have := h (BitVec.ofNat 8 i)
  simpa [tableGet, BitVec.toNat_ofNat, Nat.mod_eq_of_lt hi] using this

theorem mem_symbols (s : Byte) : s ∈ symbols := by
  rw [symbols, List.mem_map]
  exact ⟨s.toNat, List.mem_range.2 s.isLt, by simp⟩

theorem nodup_symbols : symbols.Nodup := by
  refine List.Nodup.map_on ?_ List.nodup_range
  intro i hi j hj h
  have := congrArg BitVec.toNat h
  simp only [List.mem_range] at hi hj
  simpa [BitVec.toNat_ofNat, Nat.mod_eq_of_lt hi, Nat.mod_eq_of_lt hj] using this

@[simp] theorem length_symbols : symbols.length = 256 := by simp [symbols]

/-- The entries, by symbol. -/
theorem tableEntries_eq {α : Type} (t : Vector α Config.symbolCount) : tableEntries t = symbols.map fun s => (s, tableGet t s) := by
  apply List.ext_getElem
  · simp [tableEntries]
  · intro i h1 h2
    have hi : i < 256 := by simpa using h2
    simp [tableEntries, symbols, tableGet, Nat.mod_eq_of_lt hi]

end Sys2Proof.Machine
end

