-- ==== Sys2Proof/Laws/State.lean ====
section
/-! SUPPORT. What each named update of the state does to each field, so that no later proof unfolds a record update. -/

namespace Sys2Proof.Machine

section
variable (s : State) (f : Raised)

/-! ### `completed` -/

@[simp] theorem completed_tail : (completed s).tail = s.tail := rfl
@[simp] theorem completed_fsticky : (completed s).fsticky = s.fsticky := rfl
@[simp] theorem completed_fkind : (completed s).fkind = none := rfl
@[simp] theorem completed_finfo : (completed s).finfo = 0 := rfl
@[simp] theorem completed_ilen : (completed s).ilen = s.ilen := rfl
@[simp] theorem completed_olen : (completed s).olen = s.olen := rfl
@[simp] theorem completed_nodecnt : (completed s).nodecnt = s.nodecnt := rfl
@[simp] theorem completed_sli : (completed s).sli = s.sli := rfl
@[simp] theorem completed_pbits : (completed s).pbits = s.pbits := rfl
@[simp] theorem completed_cksum : (completed s).cksum = s.cksum := rfl
@[simp] theorem completed_clen : (completed s).clen = s.clen := rfl
@[simp] theorem completed_cbits : (completed s).cbits = s.cbits := rfl
@[simp] theorem completed_pk : (completed s).pk = s.pk := rfl
@[simp] theorem completed_ct : (completed s).ct = s.ct := rfl
@[simp] theorem completed_freq : (completed s).freq = s.freq := rfl
@[simp] theorem completed_tree : (completed s).tree = s.tree := rfl
@[simp] theorem completed_ibuf : (completed s).ibuf = s.ibuf := rfl
@[simp] theorem completed_obuf : (completed s).obuf = s.obuf := rfl
@[simp] theorem completed_tbuf : (completed s).tbuf = s.tbuf := rfl
@[simp] theorem completed_pbuf : (completed s).pbuf = s.pbuf := rfl
@[simp] theorem completed_cfg : (completed s).cfg = s.cfg := rfl
@[simp] theorem completed_host : (completed s).host = s.host := rfl
@[simp] theorem completed_reply : (completed s).reply = s.reply := rfl
@[simp] theorem completed_openAnswers : (completed s).openAnswers = s.openAnswers := rfl

/-! ### `takeFault` -/

@[simp] theorem takeFault_tail : (takeFault s f).tail = s.tail := rfl
@[simp] theorem takeFault_fsticky : (takeFault s f).fsticky = true := rfl
@[simp] theorem takeFault_fkind : (takeFault s f).fkind = some f.kind := rfl
@[simp] theorem takeFault_finfo : (takeFault s f).finfo = f.info := rfl
@[simp] theorem takeFault_ilen : (takeFault s f).ilen = s.ilen := rfl
@[simp] theorem takeFault_olen : (takeFault s f).olen = s.olen := rfl
@[simp] theorem takeFault_nodecnt : (takeFault s f).nodecnt = s.nodecnt := rfl
@[simp] theorem takeFault_sli : (takeFault s f).sli = s.sli := rfl
@[simp] theorem takeFault_pbits : (takeFault s f).pbits = s.pbits := rfl
@[simp] theorem takeFault_cksum : (takeFault s f).cksum = s.cksum := rfl
@[simp] theorem takeFault_clen : (takeFault s f).clen = s.clen := rfl
@[simp] theorem takeFault_cbits : (takeFault s f).cbits = s.cbits := rfl
@[simp] theorem takeFault_pk : (takeFault s f).pk = s.pk := rfl
@[simp] theorem takeFault_ct : (takeFault s f).ct = s.ct := rfl
@[simp] theorem takeFault_freq : (takeFault s f).freq = s.freq := rfl
@[simp] theorem takeFault_tree : (takeFault s f).tree = s.tree := rfl
@[simp] theorem takeFault_ibuf : (takeFault s f).ibuf = s.ibuf := rfl
@[simp] theorem takeFault_obuf : (takeFault s f).obuf = s.obuf := rfl
@[simp] theorem takeFault_tbuf : (takeFault s f).tbuf = s.tbuf := rfl
@[simp] theorem takeFault_pbuf : (takeFault s f).pbuf = s.pbuf := rfl
@[simp] theorem takeFault_cfg : (takeFault s f).cfg = s.cfg := rfl
@[simp] theorem takeFault_host : (takeFault s f).host = s.host := rfl
@[simp] theorem takeFault_reply : (takeFault s f).reply = s.reply := rfl
@[simp] theorem takeFault_openAnswers : (takeFault s f).openAnswers = s.openAnswers := rfl

/-! ### `clearSticky` -/

@[simp] theorem clearSticky_tail : (clearSticky s).tail = s.tail := rfl
@[simp] theorem clearSticky_fsticky : (clearSticky s).fsticky = false := rfl
@[simp] theorem clearSticky_fkind : (clearSticky s).fkind = s.fkind := rfl
@[simp] theorem clearSticky_finfo : (clearSticky s).finfo = s.finfo := rfl
@[simp] theorem clearSticky_ilen : (clearSticky s).ilen = s.ilen := rfl
@[simp] theorem clearSticky_olen : (clearSticky s).olen = s.olen := rfl
@[simp] theorem clearSticky_nodecnt : (clearSticky s).nodecnt = s.nodecnt := rfl
@[simp] theorem clearSticky_sli : (clearSticky s).sli = s.sli := rfl
@[simp] theorem clearSticky_pbits : (clearSticky s).pbits = s.pbits := rfl
@[simp] theorem clearSticky_cksum : (clearSticky s).cksum = s.cksum := rfl
@[simp] theorem clearSticky_clen : (clearSticky s).clen = s.clen := rfl
@[simp] theorem clearSticky_cbits : (clearSticky s).cbits = s.cbits := rfl
@[simp] theorem clearSticky_pk : (clearSticky s).pk = s.pk := rfl
@[simp] theorem clearSticky_ct : (clearSticky s).ct = s.ct := rfl
@[simp] theorem clearSticky_freq : (clearSticky s).freq = s.freq := rfl
@[simp] theorem clearSticky_tree : (clearSticky s).tree = s.tree := rfl
@[simp] theorem clearSticky_ibuf : (clearSticky s).ibuf = s.ibuf := rfl
@[simp] theorem clearSticky_obuf : (clearSticky s).obuf = s.obuf := rfl
@[simp] theorem clearSticky_tbuf : (clearSticky s).tbuf = s.tbuf := rfl
@[simp] theorem clearSticky_pbuf : (clearSticky s).pbuf = s.pbuf := rfl
@[simp] theorem clearSticky_cfg : (clearSticky s).cfg = s.cfg := rfl
@[simp] theorem clearSticky_host : (clearSticky s).host = s.host := rfl
@[simp] theorem clearSticky_reply : (clearSticky s).reply = s.reply := rfl
@[simp] theorem clearSticky_openAnswers : (clearSticky s).openAnswers = s.openAnswers := rfl

/-! ### `dropAccess` -/

@[simp] theorem dropAccess_tail : (dropAccess s).tail = s.tail := rfl
@[simp] theorem dropAccess_fsticky : (dropAccess s).fsticky = s.fsticky := rfl
@[simp] theorem dropAccess_fkind : (dropAccess s).fkind = s.fkind := rfl
@[simp] theorem dropAccess_finfo : (dropAccess s).finfo = s.finfo := rfl
@[simp] theorem dropAccess_ilen : (dropAccess s).ilen = s.ilen := rfl
@[simp] theorem dropAccess_olen : (dropAccess s).olen = s.olen := rfl
@[simp] theorem dropAccess_nodecnt : (dropAccess s).nodecnt = s.nodecnt := rfl
@[simp] theorem dropAccess_sli : (dropAccess s).sli = s.sli := rfl
@[simp] theorem dropAccess_pbits : (dropAccess s).pbits = s.pbits := rfl
@[simp] theorem dropAccess_cksum : (dropAccess s).cksum = s.cksum := rfl
@[simp] theorem dropAccess_clen : (dropAccess s).clen = s.clen := rfl
@[simp] theorem dropAccess_cbits : (dropAccess s).cbits = s.cbits := rfl
@[simp] theorem dropAccess_pk : (dropAccess s).pk = s.pk := rfl
@[simp] theorem dropAccess_ct : (dropAccess s).ct = s.ct := rfl
@[simp] theorem dropAccess_freq : (dropAccess s).freq = s.freq := rfl
@[simp] theorem dropAccess_tree : (dropAccess s).tree = s.tree := rfl
@[simp] theorem dropAccess_ibuf : (dropAccess s).ibuf = s.ibuf := rfl
@[simp] theorem dropAccess_obuf : (dropAccess s).obuf = s.obuf := rfl
@[simp] theorem dropAccess_tbuf : (dropAccess s).tbuf = s.tbuf := rfl
@[simp] theorem dropAccess_pbuf : (dropAccess s).pbuf = s.pbuf := rfl
@[simp] theorem dropAccess_cfg : (dropAccess s).cfg = s.cfg := rfl
@[simp] theorem dropAccess_host : (dropAccess s).host = s.host.tail := rfl
@[simp] theorem dropAccess_reply : (dropAccess s).reply = s.reply := rfl
@[simp] theorem dropAccess_openAnswers : (dropAccess s).openAnswers = s.openAnswers := rfl

/-! ### `resetBlock` -/

@[simp] theorem resetBlock_tail : (resetBlock s).tail = State.reset.tail := rfl
@[simp] theorem resetBlock_fsticky : (resetBlock s).fsticky = State.reset.fsticky := rfl
@[simp] theorem resetBlock_fkind : (resetBlock s).fkind = State.reset.fkind := rfl
@[simp] theorem resetBlock_finfo : (resetBlock s).finfo = State.reset.finfo := rfl
@[simp] theorem resetBlock_ilen : (resetBlock s).ilen = State.reset.ilen := rfl
@[simp] theorem resetBlock_olen : (resetBlock s).olen = State.reset.olen := rfl
@[simp] theorem resetBlock_nodecnt : (resetBlock s).nodecnt = State.reset.nodecnt := rfl
@[simp] theorem resetBlock_sli : (resetBlock s).sli = State.reset.sli := rfl
@[simp] theorem resetBlock_pbits : (resetBlock s).pbits = State.reset.pbits := rfl
@[simp] theorem resetBlock_cksum : (resetBlock s).cksum = State.reset.cksum := rfl
@[simp] theorem resetBlock_clen : (resetBlock s).clen = State.reset.clen := rfl
@[simp] theorem resetBlock_cbits : (resetBlock s).cbits = State.reset.cbits := rfl
@[simp] theorem resetBlock_pk : (resetBlock s).pk = State.reset.pk := rfl
@[simp] theorem resetBlock_ct : (resetBlock s).ct = State.reset.ct := rfl
@[simp] theorem resetBlock_freq : (resetBlock s).freq = State.reset.freq := rfl
@[simp] theorem resetBlock_tree : (resetBlock s).tree = State.reset.tree := rfl
@[simp] theorem resetBlock_ibuf : (resetBlock s).ibuf = State.reset.ibuf := rfl
@[simp] theorem resetBlock_obuf : (resetBlock s).obuf = State.reset.obuf := rfl
@[simp] theorem resetBlock_tbuf : (resetBlock s).tbuf = State.reset.tbuf := rfl
@[simp] theorem resetBlock_pbuf : (resetBlock s).pbuf = State.reset.pbuf := rfl
@[simp] theorem resetBlock_cfg : (resetBlock s).cfg = s.cfg := rfl
@[simp] theorem resetBlock_host : (resetBlock s).host = s.host := rfl
@[simp] theorem resetBlock_reply : (resetBlock s).reply = s.reply := rfl
@[simp] theorem resetBlock_openAnswers : (resetBlock s).openAnswers = s.openAnswers := rfl

/-! ### `ctClr` -/

@[simp] theorem ctClr_tail : (ctClr s).tail = s.tail := rfl
@[simp] theorem ctClr_fsticky : (ctClr s).fsticky = s.fsticky := rfl
@[simp] theorem ctClr_fkind : (ctClr s).fkind = s.fkind := rfl
@[simp] theorem ctClr_finfo : (ctClr s).finfo = s.finfo := rfl
@[simp] theorem ctClr_ilen : (ctClr s).ilen = s.ilen := rfl
@[simp] theorem ctClr_olen : (ctClr s).olen = s.olen := rfl
@[simp] theorem ctClr_nodecnt : (ctClr s).nodecnt = s.nodecnt := rfl
@[simp] theorem ctClr_sli : (ctClr s).sli = s.sli := rfl
@[simp] theorem ctClr_pbits : (ctClr s).pbits = s.pbits := rfl
@[simp] theorem ctClr_cksum : (ctClr s).cksum = s.cksum := rfl
@[simp] theorem ctClr_clen : (ctClr s).clen = s.clen := rfl
@[simp] theorem ctClr_cbits : (ctClr s).cbits = s.cbits := rfl
@[simp] theorem ctClr_pk : (ctClr s).pk = s.pk := rfl
@[simp] theorem ctClr_ct : (ctClr s).ct = emptyCodes := rfl
@[simp] theorem ctClr_freq : (ctClr s).freq = s.freq := rfl
@[simp] theorem ctClr_tree : (ctClr s).tree = s.tree := rfl
@[simp] theorem ctClr_ibuf : (ctClr s).ibuf = s.ibuf := rfl
@[simp] theorem ctClr_obuf : (ctClr s).obuf = s.obuf := rfl
@[simp] theorem ctClr_tbuf : (ctClr s).tbuf = s.tbuf := rfl
@[simp] theorem ctClr_pbuf : (ctClr s).pbuf = s.pbuf := rfl
@[simp] theorem ctClr_cfg : (ctClr s).cfg = s.cfg := rfl
@[simp] theorem ctClr_host : (ctClr s).host = s.host := rfl
@[simp] theorem ctClr_reply : (ctClr s).reply = s.reply := rfl
@[simp] theorem ctClr_openAnswers : (ctClr s).openAnswers = s.openAnswers := rfl

/-! ### `pkRst` -/

@[simp] theorem pkRst_tail : (pkRst s).tail = s.tail := rfl
@[simp] theorem pkRst_fsticky : (pkRst s).fsticky = s.fsticky := rfl
@[simp] theorem pkRst_fkind : (pkRst s).fkind = s.fkind := rfl
@[simp] theorem pkRst_finfo : (pkRst s).finfo = s.finfo := rfl
@[simp] theorem pkRst_ilen : (pkRst s).ilen = s.ilen := rfl
@[simp] theorem pkRst_olen : (pkRst s).olen = s.olen := rfl
@[simp] theorem pkRst_nodecnt : (pkRst s).nodecnt = s.nodecnt := rfl
@[simp] theorem pkRst_sli : (pkRst s).sli = s.sli := rfl
@[simp] theorem pkRst_pbits : (pkRst s).pbits = s.pbits := rfl
@[simp] theorem pkRst_cksum : (pkRst s).cksum = s.cksum := rfl
@[simp] theorem pkRst_clen : (pkRst s).clen = s.clen := rfl
@[simp] theorem pkRst_cbits : (pkRst s).cbits = s.cbits := rfl
@[simp] theorem pkRst_pk : (pkRst s).pk = Packer.fresh := rfl
@[simp] theorem pkRst_ct : (pkRst s).ct = s.ct := rfl
@[simp] theorem pkRst_freq : (pkRst s).freq = s.freq := rfl
@[simp] theorem pkRst_tree : (pkRst s).tree = s.tree := rfl
@[simp] theorem pkRst_ibuf : (pkRst s).ibuf = s.ibuf := rfl
@[simp] theorem pkRst_obuf : (pkRst s).obuf = s.obuf := rfl
@[simp] theorem pkRst_tbuf : (pkRst s).tbuf = s.tbuf := rfl
@[simp] theorem pkRst_pbuf : (pkRst s).pbuf = s.pbuf := rfl
@[simp] theorem pkRst_cfg : (pkRst s).cfg = s.cfg := rfl
@[simp] theorem pkRst_host : (pkRst s).host = s.host := rfl
@[simp] theorem pkRst_reply : (pkRst s).reply = s.reply := rfl
@[simp] theorem pkRst_openAnswers : (pkRst s).openAnswers = s.openAnswers := rfl

/-! ### `pkFlush` -/

@[simp] theorem pkFlush_tail : (pkFlush s).tail = s.tail := rfl
@[simp] theorem pkFlush_fsticky : (pkFlush s).fsticky = s.fsticky := rfl
@[simp] theorem pkFlush_fkind : (pkFlush s).fkind = s.fkind := rfl
@[simp] theorem pkFlush_finfo : (pkFlush s).finfo = s.finfo := rfl
@[simp] theorem pkFlush_ilen : (pkFlush s).ilen = s.ilen := rfl
@[simp] theorem pkFlush_olen : (pkFlush s).olen = s.olen := rfl
@[simp] theorem pkFlush_nodecnt : (pkFlush s).nodecnt = s.nodecnt := rfl
@[simp] theorem pkFlush_sli : (pkFlush s).sli = s.sli := rfl
@[simp] theorem pkFlush_pbits : (pkFlush s).pbits = s.pk.bitcnt := rfl
@[simp] theorem pkFlush_cksum : (pkFlush s).cksum = s.cksum := rfl
@[simp] theorem pkFlush_clen : (pkFlush s).clen = s.clen := rfl
@[simp] theorem pkFlush_cbits : (pkFlush s).cbits = s.cbits := rfl
@[simp] theorem pkFlush_pk : (pkFlush s).pk = s.pk := rfl
@[simp] theorem pkFlush_ct : (pkFlush s).ct = s.ct := rfl
@[simp] theorem pkFlush_freq : (pkFlush s).freq = s.freq := rfl
@[simp] theorem pkFlush_tree : (pkFlush s).tree = s.tree := rfl
@[simp] theorem pkFlush_ibuf : (pkFlush s).ibuf = s.ibuf := rfl
@[simp] theorem pkFlush_obuf : (pkFlush s).obuf = s.obuf := rfl
@[simp] theorem pkFlush_tbuf : (pkFlush s).tbuf = s.tbuf := rfl
@[simp] theorem pkFlush_pbuf : (pkFlush s).pbuf = s.pbuf.writeBytes 0 s.pk.bytes := rfl
@[simp] theorem pkFlush_cfg : (pkFlush s).cfg = s.cfg := rfl
@[simp] theorem pkFlush_host : (pkFlush s).host = s.host := rfl
@[simp] theorem pkFlush_reply : (pkFlush s).reply = s.reply := rfl
@[simp] theorem pkFlush_openAnswers : (pkFlush s).openAnswers = s.openAnswers := rfl

/-! ### `fqClr` -/

@[simp] theorem fqClr_tail : (fqClr s).tail = s.tail := rfl
@[simp] theorem fqClr_fsticky : (fqClr s).fsticky = s.fsticky := rfl
@[simp] theorem fqClr_fkind : (fqClr s).fkind = s.fkind := rfl
@[simp] theorem fqClr_finfo : (fqClr s).finfo = s.finfo := rfl
@[simp] theorem fqClr_ilen : (fqClr s).ilen = s.ilen := rfl
@[simp] theorem fqClr_olen : (fqClr s).olen = s.olen := rfl
@[simp] theorem fqClr_nodecnt : (fqClr s).nodecnt = s.nodecnt := rfl
@[simp] theorem fqClr_sli : (fqClr s).sli = s.sli := rfl
@[simp] theorem fqClr_pbits : (fqClr s).pbits = s.pbits := rfl
@[simp] theorem fqClr_cksum : (fqClr s).cksum = s.cksum := rfl
@[simp] theorem fqClr_clen : (fqClr s).clen = s.clen := rfl
@[simp] theorem fqClr_cbits : (fqClr s).cbits = s.cbits := rfl
@[simp] theorem fqClr_pk : (fqClr s).pk = s.pk := rfl
@[simp] theorem fqClr_ct : (fqClr s).ct = s.ct := rfl
@[simp] theorem fqClr_freq : (fqClr s).freq = zeroCounts := rfl
@[simp] theorem fqClr_tree : (fqClr s).tree = s.tree := rfl
@[simp] theorem fqClr_ibuf : (fqClr s).ibuf = s.ibuf := rfl
@[simp] theorem fqClr_obuf : (fqClr s).obuf = s.obuf := rfl
@[simp] theorem fqClr_tbuf : (fqClr s).tbuf = s.tbuf := rfl
@[simp] theorem fqClr_pbuf : (fqClr s).pbuf = s.pbuf := rfl
@[simp] theorem fqClr_cfg : (fqClr s).cfg = s.cfg := rfl
@[simp] theorem fqClr_host : (fqClr s).host = s.host := rfl
@[simp] theorem fqClr_reply : (fqClr s).reply = s.reply := rfl
@[simp] theorem fqClr_openAnswers : (fqClr s).openAnswers = s.openAnswers := rfl

/-! ### `State.answerOpen` -/

variable (answer : Nat → Reply)

@[simp] theorem answerOpen_tail : (s.answerOpen answer).tail = s.tail := rfl
@[simp] theorem answerOpen_fsticky : (s.answerOpen answer).fsticky = s.fsticky := rfl
@[simp] theorem answerOpen_fkind : (s.answerOpen answer).fkind = s.fkind := rfl
@[simp] theorem answerOpen_finfo : (s.answerOpen answer).finfo = s.finfo := rfl
@[simp] theorem answerOpen_ilen : (s.answerOpen answer).ilen = s.ilen := rfl
@[simp] theorem answerOpen_olen : (s.answerOpen answer).olen = s.olen := rfl
@[simp] theorem answerOpen_nodecnt : (s.answerOpen answer).nodecnt = s.nodecnt := rfl
@[simp] theorem answerOpen_sli : (s.answerOpen answer).sli = s.sli := rfl
@[simp] theorem answerOpen_pbits : (s.answerOpen answer).pbits = s.pbits := rfl
@[simp] theorem answerOpen_cksum : (s.answerOpen answer).cksum = s.cksum := rfl
@[simp] theorem answerOpen_clen : (s.answerOpen answer).clen = s.clen := rfl
@[simp] theorem answerOpen_cbits : (s.answerOpen answer).cbits = s.cbits := rfl
@[simp] theorem answerOpen_pk : (s.answerOpen answer).pk = s.pk := rfl
@[simp] theorem answerOpen_ct : (s.answerOpen answer).ct = s.ct := rfl
@[simp] theorem answerOpen_freq : (s.answerOpen answer).freq = s.freq := rfl
@[simp] theorem answerOpen_tree : (s.answerOpen answer).tree = s.tree := rfl
@[simp] theorem answerOpen_ibuf : (s.answerOpen answer).ibuf = s.ibuf := rfl
@[simp] theorem answerOpen_obuf : (s.answerOpen answer).obuf = s.obuf := rfl
@[simp] theorem answerOpen_tbuf : (s.answerOpen answer).tbuf = s.tbuf := rfl
@[simp] theorem answerOpen_pbuf : (s.answerOpen answer).pbuf = s.pbuf := rfl
@[simp] theorem answerOpen_cfg : (s.answerOpen answer).cfg = s.cfg := rfl
@[simp] theorem answerOpen_host : (s.answerOpen answer).host = s.host := rfl
@[simp] theorem answerOpen_reply : (s.answerOpen answer).reply = answer s.openAnswers := rfl
@[simp] theorem answerOpen_openAnswers : (s.answerOpen answer).openAnswers = s.openAnswers + 1 := rfl

end

end Sys2Proof.Machine
end

