-- ==== Sys2Proof/Laws/Fault.lean ====
section
/-! SUPPORT. How every command ends: the effect of each command, and the two ways `finish` ends it. -/

namespace Sys2Proof.Machine

/-- The effect of each command before the fault record is written: its state, or what it raises. -/
def effect (i : Instr) (s : State) : Except Raised State :=
  match i with
  | .nop => .ok s
  | .reset => .ok (resetBlock s)
  | .clrf => .ok (clearSticky s)
  | .ctClr => .ok (ctClr s)
  | .ctLoad sym => ctLoad sym s
  | .pkRst => .ok (pkRst s)
  | .pkAppend sym => pkAppend sym s
  | .pkEncode => pkEncode s
  | .pkFlush => .ok (pkFlush s)
  | .fqClr => .ok (fqClr s)
  | .fqCount => fqCount s
  | .trBuild => trBuild s
  | .trCodes => trCodes s
  | .trSer => trSer s
  | .trDeser => trDeser s
  | .ckSum => ckSum s
  | .cnBuild => cnBuild s
  | .cnParse => cnParse s
  | .upDecode => upDecode s
  | .compress => compress s
  | .decompress => decompress s

/-- Every command is its effect, finished. -/
theorem exec_eq_finish (i : Instr) (s : State) : exec i s = finish s (effect i s) := by
  cases i <;> rfl

@[simp] theorem finish_ok (s t : State) : finish s (.ok t) = .next (completed t) := rfl

@[simp] theorem finish_error (s : State) (f : Raised) : finish s (.error f) = .next (takeFault s f) := rfl

theorem exec_of_ok {i : Instr} {s u : State} (h : effect i s = .ok u) : exec i s = .next (completed u) := by
  rw [exec_eq_finish, h, finish_ok]

theorem exec_of_error {i : Instr} {s : State} {f : Raised} (h : effect i s = .error f) :
    exec i s = .next (takeFault s f) := by
  rw [exec_eq_finish, h, finish_error]

/-- What a command that answers `next t` did: its effect, completed, or a fault and nothing else. -/
theorem finish_next {s t : State} {r : Except Raised State} (h : finish s r = .next t) :
    (∃ u, r = .ok u ∧ t = completed u) ∨ (∃ f, r = .error f ∧ t = takeFault s f) := by
  cases r with
  | ok u => exact .inl ⟨u, rfl, by simpa using h.symm⟩
  | error f => exact .inr ⟨f, rfl, by simpa using h.symm⟩

theorem exec_next {i : Instr} {s t : State} (h : exec i s = .next t) :
    (∃ u, effect i s = .ok u ∧ t = completed u) ∨ (∃ f, effect i s = .error f ∧ t = takeFault s f) :=
  finish_next (exec_eq_finish i s ▸ h)

/-- A command that leaves no fault kind completed. -/
theorem exec_completed {i : Instr} {s t : State} (h : exec i s = .next t) (ht : t.fkind = none) :
    ∃ u, effect i s = .ok u ∧ t = completed u := by
  rcases exec_next h with h | ⟨f, -, rfl⟩
  · exact h
  · simp at ht

@[simp] theorem raise_eq {α : Type} (k : FaultKind) (n : Nat) :
    (raise k n : Except Raised α) = .error { kind := k, info := BitVec.ofNat 64 n } := rfl

end Sys2Proof.Machine
end

