-- ==== Sys2Proof/Laws/Tree.lean ====
section
/-! SUPPORT. The laws of tree values: measures, paths, the unpacker's walk, the serialised form and its replay. -/

namespace Sys2Proof.Machine

namespace HuffmanTree

/-! ## Measures -/

theorem leaves_length_pos (t : HuffmanTree) : 0 < t.leaves.length := by
  induction t with
  | leaf => simp [leaves]
  | node w l r ihl ihr => simp [leaves]; omega

/-- A tree with `n` leaves has `2n - 1` nodes (spec/43_tree_codec.md R163). -/
theorem nodes_eq (t : HuffmanTree) : t.nodes + 1 = 2 * t.leaves.length := by
  induction t with
  | leaf => rfl
  | node w l r ihl ihr => simp [leaves, nodes]; omega

theorem depth_lt_leaves (t : HuffmanTree) : t.depth < t.leaves.length := by
  induction t with
  | leaf => simp [leaves, depth]
  | node w l r ihl ihr =>
    have := l.leaves_length_pos
    have := r.leaves_length_pos
    simp [leaves, depth]
    omega

@[simp] theorem keys_leaf (k : Byte) (w : DWord) : (leaf k w).keys = [k] := rfl

@[simp] theorem keys_node (w : DWord) (l r : HuffmanTree) : (node w l r).keys = l.keys ++ r.keys := by
  simp [keys, leaves]

@[simp] theorem length_listing (t : HuffmanTree) : t.listing.length = t.nodes := by
  induction t with
  | leaf => rfl
  | node w l r ihl ihr => simp [listing, nodes, ihl, ihr, Nat.add_assoc]

@[simp] theorem nodes_unweighted (t : HuffmanTree) : t.unweighted.nodes = t.nodes := by
  induction t with
  | leaf => rfl
  | node w l r ihl ihr => simp [unweighted, nodes, ihl, ihr]

@[simp] theorem keys_unweighted (t : HuffmanTree) : t.unweighted.keys = t.keys := by
  induction t with
  | leaf => rfl
  | node w l r ihl ihr => simp [unweighted, ihl, ihr]

@[simp] theorem listing_unweighted (t : HuffmanTree) : t.unweighted.listing = t.listing := by
  induction t with
  | leaf => rfl
  | node w l r ihl ihr => simp [unweighted, listing, ihl, ihr]

@[simp] theorem unweighted_unweighted (t : HuffmanTree) : t.unweighted.unweighted = t.unweighted := by
  induction t with
  | leaf => rfl
  | node w l r ihl ihr => simp [unweighted, ihl, ihr]

@[simp] theorem isLeaf_unweighted (t : HuffmanTree) : t.unweighted.isLeaf = t.isLeaf := by
  cases t <;> rfl

@[simp] theorem weight_unweighted (t : HuffmanTree) : t.unweighted.weight = 0 := by
  cases t <;> rfl

@[simp] theorem weightsAdd_unweighted (t : HuffmanTree) : t.unweighted.weightsAdd = true := by
  induction t with
  | leaf => rfl
  | node w l r ihl ihr => simp [unweighted, weightsAdd, ihl, ihr]

/-- The leaves of the listing are the keys. -/
theorem listing_leaf_keys (t : HuffmanTree) : (t.listing.filter (·.2)).map Prod.fst = t.keys := by
  induction t with
  | leaf => rfl
  | node w l r ihl ihr => simp [listing, List.filter_append, ihl, ihr]

/-! ## Paths -/

@[simp] theorem follow_nil (t : HuffmanTree) : t.follow [] = some t := by cases t <;> rfl

@[simp] theorem follow_leaf_cons (k : Byte) (w : DWord) (b : Bool) (p : List Bool) :
    (leaf k w).follow (b :: p) = none := rfl

@[simp] theorem follow_node_cons (w : DWord) (l r : HuffmanTree) (b : Bool) (p : List Bool) :
    (node w l r).follow (b :: p) = if b then r.follow p else l.follow p := rfl

theorem follow_append (t : HuffmanTree) (p q : List Bool) :
    t.follow (p ++ q) = (t.follow p).bind fun u => u.follow q := by
  induction p generalizing t with
  | nil => simp
  | cons b p ih =>
    cases t with
    | leaf => simp
    | node w l r => cases b <;> simp [ih]

theorem keyAt_eq_some {t : HuffmanTree} {p : List Bool} {k : Byte} :
    t.keyAt p = some k ↔ ∃ w, t.follow p = some (leaf k w) := by
  unfold keyAt
  split
  · next k' w h => simp [h]
  · next h => simp; intro w hw; exact h k w hw

@[simp] theorem keyAt_leaf_nil (k : Byte) (w : DWord) : (leaf k w).keyAt [] = some k := rfl

@[simp] theorem keyAt_leaf_cons (k : Byte) (w : DWord) (b : Bool) (p : List Bool) :
    (leaf k w).keyAt (b :: p) = none := rfl

@[simp] theorem keyAt_node_nil (w : DWord) (l r : HuffmanTree) : (node w l r).keyAt [] = none := rfl

@[simp] theorem keyAt_node_cons (w : DWord) (l r : HuffmanTree) (b : Bool) (p : List Bool) :
    (node w l r).keyAt (b :: p) = if b then r.keyAt p else l.keyAt p := by
  cases b <;> rfl

theorem keyAt_length_le {t : HuffmanTree} {p : List Bool} {k : Byte} (h : t.keyAt p = some k) : p.length ≤ t.depth := by
  induction t generalizing p with
  | leaf k w => cases p <;> simp_all
  | node w l r ihl ihr =>
    cases p with
    | nil => simp at h
    | cons b p =>
      cases b with
      | false => have := ihl (by simpa using h); simp [depth]; omega
      | true => have := ihr (by simpa using h); simp [depth]; omega

theorem keyAt_mem_keys {t : HuffmanTree} {p : List Bool} {k : Byte} (h : t.keyAt p = some k) : k ∈ t.keys := by
  induction t generalizing p with
  | leaf k w => cases p <;> simp_all
  | node w l r ihl ihr =>
    cases p with
    | nil => simp at h
    | cons b p =>
      cases b with
      | false => simp [ihl (by simpa using h)]
      | true => simp [ihr (by simpa using h)]

theorem exists_keyAt {t : HuffmanTree} {k : Byte} (h : k ∈ t.keys) : ∃ p, t.keyAt p = some k := by
  induction t with
  | leaf k' w => exact ⟨[], by simp_all⟩
  | node w l r ihl ihr =>
    rcases List.mem_append.1 (keys_node w l r ▸ h) with h | h
    · obtain ⟨p, hp⟩ := ihl h
      exact ⟨false :: p, by simpa using hp⟩
    · obtain ⟨p, hp⟩ := ihr h
      exact ⟨true :: p, by simpa using hp⟩

@[simp] theorem keyAt_unweighted (t : HuffmanTree) (p : List Bool) : t.unweighted.keyAt p = t.keyAt p := by
  induction t generalizing p with
  | leaf k w => cases p <;> rfl
  | node w l r ihl ihr => cases p <;> simp [unweighted, ihl, ihr]

/-- With distinct keys a key has one path. -/
theorem keyAt_unique {t : HuffmanTree} (hd : t.keys.Nodup) {p q : List Bool} {k : Byte}
    (hp : t.keyAt p = some k) (hq : t.keyAt q = some k) : p = q := by
  induction t generalizing p q with
  | leaf k w => cases p <;> cases q <;> simp_all
  | node w l r ihl ihr =>
    rw [keys_node, List.nodup_append'] at hd
    obtain ⟨hl, hr, hlr⟩ := hd
    cases p with
    | nil => simp at hp
    | cons b p =>
      cases q with
      | nil => simp at hq
      | cons c q =>
        cases b <;> cases c
        · simp [ihl hl (by simpa using hp) (by simpa using hq)]
        · exact absurd (keyAt_mem_keys (by simpa using hq)) (hlr (keyAt_mem_keys (by simpa using hp)))
        · exact absurd (keyAt_mem_keys (by simpa using hp)) (hlr (keyAt_mem_keys (by simpa using hq)))
        · simp [ihr hr (by simpa using hp) (by simpa using hq)]

/-- No leaf's path goes on to another leaf. -/
theorem keyAt_prefix {t : HuffmanTree} {p r : List Bool} {k j : Byte}
    (hp : t.keyAt p = some k) (hq : t.keyAt (p ++ r) = some j) : r = [] := by
  induction t generalizing p with
  | leaf k w =>
    cases p with
    | nil => cases r <;> simp_all
    | cons => simp at hp
  | node w l r' ihl ihr =>
    cases p with
    | nil => simp at hp
    | cons b p =>
      cases b with
      | false => exact ihl (by simpa using hp) (by simpa using hq)
      | true => exact ihr (by simpa using hp) (by simpa using hq)

end HuffmanTree

/-! ## The unpacker's walk (spec/45_unpacker.md R212, R214) -/

section Walk
open HuffmanTree
variable {w₀ : DWord} {l₀ r₀ : HuffmanTree}

/-- A path to a leaf from a cursor at an internal node emits the leaf's key and comes back to the root. -/
theorem walk_to_leaf {cur : HuffmanTree} {p : List Bool} {k : Byte} (hp : cur.keyAt p = some k) (hne : p ≠ [])
    (mid : Bool) (out : List Byte) :
    p.foldl (walkStep (node w₀ l₀ r₀)) { cur := cur, mid := mid, out := out }
      = { cur := node w₀ l₀ r₀, mid := false, out := out ++ [k] } := by
  induction p generalizing cur mid with
  | nil => exact absurd rfl hne
  | cons b p ih =>
    cases cur with
    | leaf => simp at hp
    | node w l r =>
      have hc : ((node w l r).child b).keyAt p = some k := by
        cases b <;> simpa [child] using hp
      rw [List.foldl_cons]
      cases hcb : (node w l r).child b with
      | leaf j v =>
        rw [hcb] at hc
        cases p with
        | cons => simp at hc
        | nil =>
          simp only [keyAt_leaf_nil, Option.some.injEq] at hc
          simp [walkStep, hcb, hc]
      | node v l' r' =>
        rw [hcb] at hc
        cases p with
        | nil => simp at hc
        | cons c p =>
          rw [show walkStep (node w₀ l₀ r₀) { cur := node w l r, mid := mid, out := out } b
              = { cur := node v l' r', mid := true, out := out } by simp [walkStep, hcb]]
          exact ih hc (by simp) true

/-- A path that stays among internal nodes emits nothing. -/
theorem walk_inside {cur : HuffmanTree} {p : List Bool} {v : DWord} {l r : HuffmanTree}
    (hp : cur.follow p = some (node v l r)) (mid : Bool) (out : List Byte) :
    p.foldl (walkStep (node w₀ l₀ r₀)) { cur := cur, mid := mid, out := out }
      = { cur := node v l r, mid := mid || !p.isEmpty, out := out } := by
  induction p generalizing cur mid with
  | nil => simp at hp; simp [hp]
  | cons b p ih =>
    cases cur with
    | leaf => simp at hp
    | node w l' r' =>
      have hc : ((node w l' r').child b).follow p = some (node v l r) := by
        cases b <;> simpa [child] using hp
      rw [List.foldl_cons]
      cases hcb : (node w l' r').child b with
      | leaf j u =>
        rw [hcb] at hc
        cases p <;> simp at hc
      | node u l'' r'' =>
        rw [hcb] at hc
        rw [show walkStep (node w₀ l₀ r₀) { cur := node w l' r', mid := mid, out := out } b
            = { cur := node u l'' r'', mid := true, out := out } by simp [walkStep, hcb]]
        rw [ih hc]
        simp

/-- A stream of whole codes decodes to their keys, one after another. -/
theorem walk_codes {codes : List (List Bool)} {ks : List Byte}
    (h : List.Forall₂ (fun p k => (node w₀ l₀ r₀).keyAt p = some k) codes ks) (out : List Byte) :
    codes.flatten.foldl (walkStep (node w₀ l₀ r₀)) { cur := node w₀ l₀ r₀, mid := false, out := out }
      = { cur := node w₀ l₀ r₀, mid := false, out := out ++ ks } := by
  induction h generalizing out with
  | nil => simp
  | @cons p k ps ks hp _ ih =>
    have hne : p ≠ [] := by
      rintro rfl
      simp at hp
    rw [List.flatten_cons, List.foldl_append, walk_to_leaf hp hne, ih]
    simp

/-- Under a Leaf root every bit emits the key (R214). -/
theorem walk_leaf_root (k : Byte) (w : DWord) (bits : List Bool) (mid : Bool) (out : List Byte) :
    bits.foldl (walkStep (leaf k w)) { cur := leaf k w, mid := mid, out := out }
      = { cur := leaf k w, mid := mid && bits.isEmpty, out := out ++ List.replicate bits.length k } := by
  induction bits generalizing mid out with
  | nil => simp
  | cons b bits ih =>
    rw [List.foldl_cons, show walkStep (leaf k w) { cur := leaf k w, mid := mid, out := out } b
      = { cur := leaf k w, mid := false, out := out ++ [k] } from rfl, ih]
    simp [List.replicate_succ]

theorem length_walkStep_out (root : HuffmanTree) (w : Walker) (b : Bool) :
    (walkStep root w b).out.length ≤ w.out.length + 1 := by
  unfold walkStep
  split
  · simp
  · split <;> simp

/-- Every emitted byte costs at least one bit (R210). -/
theorem length_walkBits_out (root : HuffmanTree) (bits : List Bool) : (walkBits root bits).out.length ≤ bits.length := by
  suffices h : ∀ w : Walker, (bits.foldl (walkStep root) w).out.length ≤ w.out.length + bits.length by
    simpa [walkBits] using h { cur := root, mid := false, out := [] }
  induction bits with
  | nil => simp
  | cons b bits ih =>
    intro w
    have := length_walkStep_out root w b
    have := ih (walkStep root w b)
    simp only [List.foldl_cons, List.length_cons]
    omega

end Walk

/-! ## The serialised form (spec/43_tree_codec.md R161 to R168) -/

@[simp] theorem length_markedBytes (x : Int) (i : Nat) (bs : List Byte) : (markedBytes x i bs).length = bs.length := by
  induction bs generalizing i with
  | nil => rfl
  | cons b bs ih => simp [markedBytes, ih]

@[simp] theorem markedBytes_map_fst (x : Int) (i : Nat) (bs : List Byte) : (markedBytes x i bs).map Prod.fst = bs := by
  induction bs generalizing i with
  | nil => rfl
  | cons b bs ih => simp [markedBytes, ih]

theorem markedBytes_append (x : Int) (i : Nat) (bs cs : List Byte) :
    markedBytes x i (bs ++ cs) = markedBytes x i bs ++ markedBytes x (i + bs.length) cs := by
  induction bs generalizing i with
  | nil => simp [markedBytes]
  | cons b bs ih =>
    simp only [List.cons_append, markedBytes, ih, List.length_cons]
    rw [show i + (bs.length + 1) = i + 1 + bs.length by omega]

/-- The bytes `Emit` puts out are the listing's. -/
theorem emit_out (t : HuffmanTree) (e : Emitted) : (t.emit e).out = e.out ++ t.listing.map Prod.fst := by
  induction t generalizing e with
  | leaf k w => simp [HuffmanTree.emit, HuffmanTree.listing]
  | node w l r ihl ihr => simp [HuffmanTree.emit, HuffmanTree.listing, ihl, ihr]

/-- The index `Emit` records is the place of a `0x00` byte it put out, or the index it was given. -/
theorem emit_sli_at (t : HuffmanTree) (e : Emitted) :
    (t.emit e).sli = e.sli ∨ ∃ i : Nat, (t.emit e).sli = i ∧ (t.emit e).out[i]? = some Config.sentinel := by
  induction t generalizing e with
  | leaf k w =>
    by_cases hk : k = Config.sentinel
    · exact .inr ⟨e.out.length, by simp [HuffmanTree.emit, hk], by simp [HuffmanTree.emit, hk]⟩
    · exact .inl (by simp [HuffmanTree.emit, hk])
  | node w l r ihl ihr =>
    have grow : ∀ {a b : List Byte} {i : Nat}, a[i]? = some Config.sentinel → (a ++ b)[i]? = some Config.sentinel := by
      intro a b i h
      rw [List.getElem?_append_left (List.getElem?_eq_some_iff.1 h).1, h]
    simp only [HuffmanTree.emit]
    rcases ihr (l.emit e) with h | ⟨i, h1, h2⟩
    · rw [h]
      rcases ihl e with h' | ⟨i, h1, h2⟩
      · exact .inl h'
      · refine .inr ⟨i, h1, grow ?_⟩
        rw [emit_out]
        exact grow h2
    · exact .inr ⟨i, h1, grow h2⟩

/-- A tree without a Leaf of key `0x00` leaves the index alone. -/
theorem emit_sli_of_no_zero (t : HuffmanTree) (e : Emitted) (h : t.keys.count Config.sentinel = 0) :
    (t.emit e).sli = e.sli := by
  induction t generalizing e with
  | leaf k w =>
    have : ¬ k = Config.sentinel := by
      intro hk
      simp [hk] at h
    simp [HuffmanTree.emit, this]
  | node w l r ihl ihr =>
    rw [HuffmanTree.keys_node, List.count_append] at h
    simp [HuffmanTree.emit, ihr _ (by omega : r.keys.count _ = 0), ihl _ (by omega : l.keys.count _ = 0)]

/-- A tree whose reading has no special leaf is read back under any index outside it. -/
theorem marked_of_no_zero (t : HuffmanTree) (x : Int) (i : Nat) (h : t.keys.count Config.sentinel = 0)
    (hx : x < i ∨ (i : Int) + t.nodes ≤ x) : markedBytes x i (t.listing.map Prod.fst) = t.listing := by
  induction t generalizing i with
  | leaf k w =>
    have : ¬ k = Config.sentinel := by
      intro hk
      simp [hk] at h
    simp [HuffmanTree.listing, markedBytes, this]
  | node w l r ihl ihr =>
    rw [HuffmanTree.keys_node, List.count_append] at h
    simp only [HuffmanTree.nodes, Nat.cast_add, Nat.cast_one] at hx
    rw [HuffmanTree.listing, List.map_append, List.map_append, markedBytes_append, markedBytes_append,
      ihl i (by omega) (by omega)]
    simp only [List.length_map, HuffmanTree.length_listing, List.length_append]
    rw [ihr (i + l.nodes) (by omega) (by push_cast; omega)]
    congr 1
    have : (i : Int) + (l.nodes + r.nodes : Nat) ≠ x := by push_cast; omega
    simp only [List.map_cons, List.map_nil, markedBytes]
    simp
    push_cast at this
    omega

/-- The index `Emit` records makes the emitted bytes read back as the listing. -/
theorem marked_emit (t : HuffmanTree) (e : Emitted) (h : t.keys.count Config.sentinel ≤ 1) (he : e.sli < 0) :
    markedBytes (t.emit e).sli e.out.length (t.listing.map Prod.fst) = t.listing
      ∧ ((t.emit e).sli = e.sli ∨ (e.out.length : Int) ≤ (t.emit e).sli ∧ (t.emit e).sli < e.out.length + t.nodes) := by
  induction t generalizing e with
  | leaf k w =>
    by_cases hk : k = Config.sentinel
    · simp [HuffmanTree.emit, HuffmanTree.listing, markedBytes, hk, HuffmanTree.nodes]
    · simp [HuffmanTree.emit, HuffmanTree.listing, markedBytes, hk]
  | node w l r ihl ihr =>
    rw [HuffmanTree.keys_node, List.count_append] at h
    have hlen : (l.emit e).out.length = e.out.length + l.nodes := by simp [emit_out]
    by_cases hl0 : l.keys.count Config.sentinel = 0
    · have hsl := emit_sli_of_no_zero l e hl0
      obtain ⟨hm, hrange⟩ := ihr (l.emit e) (by omega) (by omega)
      have hsli : ((HuffmanTree.node w l r).emit e).sli = (r.emit (l.emit e)).sli := rfl
      rw [hsl, hlen] at hrange
      rw [hlen] at hm
      push_cast at hrange
      rw [hsli]
      refine ⟨?_, ?_⟩
      · rw [HuffmanTree.listing, List.map_append, List.map_append, markedBytes_append, markedBytes_append,
          marked_of_no_zero l _ _ hl0 (by omega)]
        simp only [List.length_map, HuffmanTree.length_listing, List.length_append]
        rw [hm]
        congr 1
        simp [markedBytes]
        omega
      · simp only [HuffmanTree.nodes]
        push_cast
        omega
    · have hr0 : r.keys.count Config.sentinel = 0 := by omega
      have hsr := emit_sli_of_no_zero r (l.emit e) hr0
      obtain ⟨hm, hrange⟩ := ihl e (by omega) he
      have hsli : ((HuffmanTree.node w l r).emit e).sli = (l.emit e).sli := hsr
      rw [hsli]
      refine ⟨?_, ?_⟩
      · rw [HuffmanTree.listing, List.map_append, List.map_append, markedBytes_append, markedBytes_append, hm]
        simp only [List.length_map, HuffmanTree.length_listing, List.length_append]
        rw [marked_of_no_zero r _ _ hr0 (by push_cast; omega)]
        congr 1
        simp [markedBytes]
        omega
      · simp only [HuffmanTree.nodes]
        push_cast
        omega

theorem replay_marker {x : Int} {i : Nat} {b : Byte} (h : b = Config.sentinel ∧ (i : Int) ≠ x) (r l : HuffmanTree)
    (rest : List HuffmanTree) (bs : List Byte) :
    replay x i (r :: l :: rest) (b :: bs) = replay x (i + 1) (.node 0 l r :: rest) bs := by
  rw [replay, if_pos h]

theorem replay_underflow {x : Int} {i : Nat} {b : Byte} (h : b = Config.sentinel ∧ (i : Int) ≠ x)
    {stack : List HuffmanTree} (hs : stack.length < 2) (bs : List Byte) :
    replay x i stack (b :: bs) = raise .stackUnderflow i := by
  rcases stack with _ | ⟨r, _ | ⟨l, rest⟩⟩
  · rw [replay, if_pos h]
    simp
  · rw [replay, if_pos h]
    simp
  · simp at hs

theorem replay_byte {x : Int} {i : Nat} {b : Byte} (h : ¬ (b = Config.sentinel ∧ (i : Int) ≠ x))
    (stack : List HuffmanTree) (bs : List Byte) :
    replay x i stack (b :: bs) = replay x (i + 1) (.leaf b 0 :: stack) bs := by
  rcases stack with _ | ⟨r, _ | ⟨l, rest⟩⟩ <;> simp only [replay, if_neg h]

/-- Replaying the listing of a tree pushes the tree, weights 0. -/
theorem replay_listing (x : Int) (t : HuffmanTree) (i : Nat) (stack : List HuffmanTree) (bs rest : List Byte)
    (h : markedBytes x i bs = t.listing) :
    replay x i stack (bs ++ rest) = replay x (i + bs.length) (t.unweighted :: stack) rest := by
  induction t generalizing i stack bs rest with
  | leaf k w =>
    have hb : bs = [k] := by simpa [HuffmanTree.listing] using congrArg (List.map Prod.fst) h
    subst hb
    have : ¬ (k = Config.sentinel ∧ (i : Int) ≠ x) := by
      have h : (!decide (k = Config.sentinel ∧ (i : Int) ≠ x)) = true := by
        simpa only [HuffmanTree.listing, markedBytes, List.cons.injEq, Prod.mk.injEq, true_and, and_true] using h
      simpa only [Bool.not_eq_true', decide_eq_false_iff_not] using h
    rw [List.singleton_append, replay_byte this]
    rfl
  | node w l r ihl ihr =>
    have hb : bs = l.listing.map Prod.fst ++ (r.listing.map Prod.fst ++ [Config.sentinel]) := by
      simpa [HuffmanTree.listing] using congrArg (List.map Prod.fst) h
    subst hb
    rw [markedBytes_append, markedBytes_append, HuffmanTree.listing, List.append_assoc] at h
    obtain ⟨hl, h⟩ := List.append_inj h (by simp)
    obtain ⟨hr, hs⟩ := List.append_inj h (by simp)
    rw [List.append_assoc, ihl i stack _ _ hl, List.append_assoc, ihr _ _ _ _ hr]
    have : Config.sentinel = Config.sentinel ∧
        ((i + (l.listing.map Prod.fst).length + (r.listing.map Prod.fst).length : Nat) : Int) ≠ x := by
      simpa [markedBytes] using hs
    rw [List.singleton_append, replay_marker this]
    simp only [HuffmanTree.unweighted, List.length_append, List.length_singleton, Nat.add_assoc]

/-- What a successful replay read: the bytes, marked, are the listings of the stack, bottom first, and of the bytes left; and the
tree's weights are 0 if the stack's were. -/
theorem replay_ok {x : Int} {i : Nat} {stack : List HuffmanTree} {bs : List Byte} {t : HuffmanTree}
    (h : replay x i stack bs = .ok t) (hs : ∀ u ∈ stack, u.unweighted = u) :
    t.listing = stack.reverse.flatMap HuffmanTree.listing ++ markedBytes x i bs ∧ t.unweighted = t := by
  induction bs generalizing i stack with
  | nil =>
    rw [replay] at h
    match stack, h, hs with
    | [u], h, hs =>
      have : u = t := by simpa [replayEnd] using h
      subst this
      exact ⟨by simp [markedBytes], hs _ (by simp)⟩
    | [], h, _ => simp [replayEnd] at h
    | _ :: _ :: _, h, _ => simp [replayEnd] at h
  | cons b bs ih =>
    by_cases hb : b = Config.sentinel ∧ (i : Int) ≠ x
    · match stack, h, hs with
      | [], h, _ => simp [replay_underflow hb] at h
      | [_], h, _ => simp [replay_underflow hb] at h
      | r :: l :: rest, h, hs =>
        rw [replay_marker hb] at h
        obtain ⟨h1, h2⟩ := ih h fun u hu => by
          rcases List.mem_cons.1 hu with rfl | hu
          · simp [HuffmanTree.unweighted, hs l (by simp), hs r (by simp)]
          · exact hs u (by simp [hu])
        refine ⟨?_, h2⟩
        rw [h1, markedBytes]
        simp [HuffmanTree.listing, hb]
    · rw [replay_byte hb] at h
      obtain ⟨h1, h2⟩ := ih h fun u hu => by
        rcases List.mem_cons.1 hu with rfl | hu
        · rfl
        · exact hs u hu
      refine ⟨?_, h2⟩
      rw [h1, markedBytes, decide_eq_false hb]
      simp [HuffmanTree.listing]

end Sys2Proof.Machine
end

