-- ==== Sys2Proof/Laws/Build.lean ====
section
/-! SUPPORT. Tree construction and code derivation (spec/42_tree_build.md R143 to R151): the combining loop is the relation
`Builds`, what every built tree is, and what the code table holds after a walk. -/

namespace Sys2Proof.Machine

/-! ## The order of extraction -/

namespace QueueEntry

theorem before_iff {a b : QueueEntry} :
    a.before b = true ↔ a.weight < b.weight ∨ a.weight = b.weight ∧ a.seq < b.seq := by
  simp [before]

theorem before_trans {a b c : QueueEntry} (h : a.before b = true) (h' : b.before c = true) : a.before c = true := by
  rw [before_iff] at *
  omega

theorem before_of_not {a b : QueueEntry} (hne : a.seq ≠ b.seq) (h : ¬ a.before b = true) : b.before a = true := by
  rw [before_iff] at *
  omega

end QueueEntry

theorem extractMin_perm (e : QueueEntry) (q : List QueueEntry) :
    (e :: q).Perm ((extractMin e q).1 :: (extractMin e q).2) := by
  induction q generalizing e with
  | nil => exact List.Perm.refl _
  | cons x xs ih =>
    rw [extractMin]
    dsimp only
    split
    · exact (ih x).cons e
    · exact ((ih x).cons e).trans (List.Perm.swap _ _ _)

/-- With distinct sequence numbers the entry extracted comes before every entry left. -/
theorem extractMin_least (e : QueueEntry) (q : List QueueEntry) (hd : ((e :: q).map QueueEntry.seq).Nodup) :
    ∀ y ∈ (extractMin e q).2, (extractMin e q).1.before y = true := by
  induction q generalizing e with
  | nil => simp [extractMin]
  | cons x xs ih =>
    have hp := extractMin_perm x xs
    rw [List.map_cons, List.nodup_cons] at hd
    have ih := ih x hd.2
    have hm : (extractMin x xs).1 ∈ x :: xs := hp.symm.subset (by simp)
    have hne : e.seq ≠ (extractMin x xs).1.seq := fun h =>
      hd.1 (h ▸ List.mem_map_of_mem hm)
    rw [extractMin]
    dsimp only
    split
    · next hb =>
      intro y hy
      rcases List.mem_cons.1 hy with rfl | hy
      · exact hb
      · exact QueueEntry.before_trans hb (ih y hy)
    · next hb =>
      have hb' := QueueEntry.before_of_not hne hb
      intro y hy
      rcases List.mem_cons.1 hy with rfl | hy
      · exact hb'
      · exact ih y hy

theorem extractMin_length (e : QueueEntry) (q : List QueueEntry) : (extractMin e q).2.length = q.length := by
  have := (extractMin_perm e q).length_eq
  simpa using this.symm

/-- The combining loop is the relation of R144, when the sequence numbers are distinct and below the next one. -/
theorem builds_combineLoop (rounds seq : Nat) (e : QueueEntry) (q : List QueueEntry) (hr : q.length ≤ rounds)
    (hd : ((e :: q).map QueueEntry.seq).Nodup) (hlt : ∀ y ∈ e :: q, y.seq < seq) :
    Builds seq (e :: q) (combineLoop rounds seq e q) := by
  induction rounds generalizing seq e q with
  | zero =>
    have : q = [] := List.length_eq_zero_iff.1 (by omega)
    subst this
    exact Builds.last seq e
  | succ rounds ih =>
    rcases q with _ | ⟨x, xs⟩
    · exact Builds.last seq e
    · have hp := extractMin_perm e (x :: xs)
      have hleast := extractMin_least e (x :: xs) hd
      have hlen := extractMin_length e (x :: xs)
      rw [combineLoop]
      generalize extractMin e (x :: xs) = m at hp hleast hlen
      obtain ⟨a, q₁⟩ := m
      rcases q₁ with _ | ⟨y, ys⟩
      · simp at hlen
      · dsimp only at hp hleast hlen ⊢
        have hd₁ : ((a :: y :: ys).map QueueEntry.seq).Nodup := (hp.map _).nodup_iff.1 hd
        have hd₂ : ((y :: ys).map QueueEntry.seq).Nodup := (List.nodup_cons.1 (List.map_cons ▸ hd₁)).2
        have hp₂ := extractMin_perm y ys
        have hleast₂ := extractMin_least y ys hd₂
        have hlen₂ := extractMin_length y ys
        generalize extractMin y ys = m at hp₂ hleast₂ hlen₂
        obtain ⟨b, rest⟩ := m
        dsimp only at hp₂ hleast₂ hlen₂ ⊢
        have htaken := hp.trans (hp₂.cons a)
        have hd₃ : ((a :: b :: rest).map QueueEntry.seq).Nodup := (htaken.map _).nodup_iff.1 hd
        have hmem : ∀ z ∈ a :: b :: rest, z.seq < seq := fun z hz => hlt z (htaken.symm.subset hz)
        refine Builds.combine htaken (fun z hz => hleast z (hp₂.symm.subset hz)) hleast₂ ?_
        refine ih (seq + 1) (combineEntries a b seq) rest (by simp at hlen hr; omega) ?_ ?_
        · rw [List.map_cons, List.nodup_cons]
          refine ⟨fun h => ?_, ?_⟩
          · obtain ⟨z, hz, hzs⟩ := List.mem_map.1 h
            have := hmem z (by simp [hz])
            simp only [combineEntries] at hzs
            omega
          · simp only [List.map_cons, List.nodup_cons] at hd₃
            exact hd₃.2.2
        · intro z hz
          rcases List.mem_cons.1 hz with rfl | hz
          · simp [combineEntries]
          · have := hmem z (by simp [hz])
            omega

/-! ## What is built -/

/-- The leaves of a built tree are the leaves of the entries it was built from. -/
theorem Builds.leaves_perm {seq : Nat} {q : List QueueEntry} {t : HuffmanTree} (h : Builds seq q t) :
    t.leaves.Perm (q.flatMap fun e => e.tree.leaves) := by
  induction h with
  | last seq e => simp
  | combine taken _ _ _ ih =>
    refine ih.trans ?_
    refine List.Perm.trans ?_ (taken.flatMap_right _).symm
    simp [HuffmanTree.leaves]

/-- An entry whose weight is its tree's. -/
def QueueEntry.Sound (e : QueueEntry) : Prop := e.tree.weight.toNat = e.weight ∧ e.tree.weightsAdd = true

/-- The weights of a built tree add up, and its root weighs what the entries weigh together. -/
theorem Builds.weights {seq : Nat} {q : List QueueEntry} {t : HuffmanTree} (h : Builds seq q t)
    (hq : ∀ e ∈ q, e.Sound) (hs : (q.map QueueEntry.weight).sum < 2 ^ 64) :
    t.weightsAdd = true ∧ t.weight.toNat = (q.map QueueEntry.weight).sum := by
  induction h with
  | last seq e =>
    obtain ⟨hw, ha⟩ := hq e (by simp)
    simp [hw, ha]
  | @combine seq q rest a b t taken _ _ _ ih =>
    have hsum : (q.map QueueEntry.weight).sum = a.weight + (b.weight + (rest.map QueueEntry.weight).sum) := by
      rw [(taken.map _).sum_eq]
      simp
    obtain ⟨ha, ha'⟩ := hq a (taken.symm.subset (by simp))
    obtain ⟨hb, hb'⟩ := hq b (taken.symm.subset (by simp))
    have hab : a.weight + b.weight < 2 ^ 64 := by omega
    have hsound : ∀ e ∈ combineEntries a b seq :: rest, e.Sound := by
      intro e he
      rcases List.mem_cons.1 he with rfl | he
      · refine ⟨?_, ?_⟩
        · simpa [combineEntries, HuffmanTree.weight] using hab
        · simpa [combineEntries, HuffmanTree.weightsAdd, ha, hb, ha', hb'] using hab
      · exact hq e (taken.symm.subset (by simp [he]))
    have hweight : ((combineEntries a b seq :: rest).map QueueEntry.weight).sum = (q.map QueueEntry.weight).sum := by
      rw [hsum, List.map_cons, List.sum_cons, combineEntries]
      exact Nat.add_assoc _ _ _
    obtain ⟨h1, h2⟩ := ih hsound (hweight ▸ hs)
    exact ⟨h1, h2.trans hweight⟩

/-! ## The leaf entries (R143) -/

theorem leafEntries_eq (freq : Vector DWord Config.symbolCount) :
    leafEntries freq = (presentSymbols freq).zipIdx.map fun (s, i) =>
      { tree := .leaf s (tableGet freq s), weight := (tableGet freq s).toNat, seq := i } := by
  rw [leafEntries, tableEntries_eq, List.filter_map, List.zipIdx_map, List.map_map]
  rfl

theorem totalCount_eq (freq : Vector DWord Config.symbolCount) : totalCount freq = (symbols.map fun s => (tableGet freq s).toNat).sum := by
  rw [totalCount, tableEntries_eq, List.map_map]
  rfl

@[simp] theorem length_leafEntries (freq : Vector DWord Config.symbolCount) :
    (leafEntries freq).length = (presentSymbols freq).length := by
  simp [leafEntries_eq]

theorem leafEntries_seqs (freq : Vector DWord Config.symbolCount) :
    (leafEntries freq).map QueueEntry.seq = List.range (presentSymbols freq).length := by
  rw [leafEntries_eq, List.map_map, List.range_eq_range']
  exact List.zipIdx_map_snd 0 _

theorem leafEntries_leaves (freq : Vector DWord Config.symbolCount) :
    ((leafEntries freq).flatMap fun e => e.tree.leaves) = (presentSymbols freq).map fun s => (s, tableGet freq s) := by
  rw [leafEntries_eq, List.flatMap_map]
  have : ∀ (l : List Byte) (n : Nat),
      ((l.zipIdx n).flatMap fun p => (HuffmanTree.leaf p.1 (tableGet freq p.1)).leaves)
        = l.map fun s => (s, tableGet freq s) := by
    intro l
    induction l with
    | nil => simp
    | cons s l ih =>
      intro n
      rw [List.zipIdx_cons, List.flatMap_cons, ih, List.map_cons]
      rfl
  exact this _ 0

theorem leafEntries_sound (freq : Vector DWord Config.symbolCount) : ∀ e ∈ leafEntries freq, e.Sound := by
  intro e he
  rw [leafEntries_eq, List.mem_map] at he
  obtain ⟨⟨s, i⟩, -, rfl⟩ := he
  exact ⟨rfl, rfl⟩

theorem sum_present (freq : Vector DWord Config.symbolCount) (l : List Byte) :
    ((l.filter fun s => tableGet freq s ≠ 0).map fun s => (tableGet freq s).toNat).sum
      = (l.map fun s => (tableGet freq s).toNat).sum := by
  induction l with
  | nil => rfl
  | cons s l ih =>
    by_cases h : tableGet freq s = 0
    · rw [List.filter_cons_of_neg (by simp [h]), ih, List.map_cons, List.sum_cons, h]
      simp
    · rw [List.filter_cons_of_pos (by simpa using h), List.map_cons, List.sum_cons, ih, List.map_cons, List.sum_cons]

theorem leafEntries_weight (freq : Vector DWord Config.symbolCount) :
    ((leafEntries freq).map QueueEntry.weight).sum = totalCount freq := by
  rw [totalCount_eq, ← sum_present, leafEntries_eq, List.map_map]
  have : ∀ (l : List Byte) (n : Nat), ((l.zipIdx n).map fun p => (tableGet freq p.1).toNat)
      = l.map fun s => (tableGet freq s).toNat := by
    intro l
    induction l with
    | nil => simp
    | cons s l ih => intro n; simp [ih]
  exact congrArg List.sum (this _ 0)

theorem nodup_presentSymbols (freq : Vector DWord Config.symbolCount) : (presentSymbols freq).Nodup := nodup_symbols.filter _

theorem mem_presentSymbols {freq : Vector DWord Config.symbolCount} {s : Byte} : s ∈ presentSymbols freq ↔ tableGet freq s ≠ 0 := by
  simp [presentSymbols, mem_symbols]

theorem length_presentSymbols_le (freq : Vector DWord Config.symbolCount) : (presentSymbols freq).length ≤ 256 := by
  have := List.length_filter_le (fun s => decide (tableGet freq s ≠ 0)) symbols
  simpa [presentSymbols] using this

/-- The tree `TR.BUILD` builds (R142 to R145). -/
structure BuiltFrom (freq : Vector DWord Config.symbolCount) (t : HuffmanTree) : Prop where
  builds : Builds (presentSymbols freq).length (leafEntries freq) t
  leaves : t.leaves.Perm ((presentSymbols freq).map fun s => (s, tableGet freq s))
  weightsAdd : t.weightsAdd = true
  weight : t.weight.toNat = totalCount freq

theorem trBuild_ok {s u : State} (h : trBuild s = .ok u) :
    ∃ t, u = { s with tree := some t } ∧ BuiltFrom s.freq t := by
  unfold trBuild at h
  split at h
  · simp at h
  · next e q he =>
    split at h
    · simp at h
    · next hsum =>
      refine ⟨_, (by simpa using h.symm), ?_⟩
      have hseqs := leafEntries_seqs s.freq
      have hlen := length_leafEntries s.freq
      have hlv := leafEntries_leaves s.freq
      have hw := leafEntries_weight s.freq
      have hso := leafEntries_sound s.freq
      rw [he] at hseqs hlen hlv hw hso
      have hn : (presentSymbols s.freq).length = q.length + 1 := by simpa using hlen.symm
      have hb : Builds (q.length + 1) (e :: q) (combineLoop q.length (q.length + 1) e q) := by
        refine builds_combineLoop _ _ _ _ (Nat.le_refl _) (by rw [hseqs]; exact List.nodup_range) fun y hy => ?_
        have : y.seq ∈ (e :: q).map QueueEntry.seq := List.mem_map_of_mem hy
        rw [hseqs, hn, List.mem_range] at this
        exact this
      obtain ⟨h1, h2⟩ := hb.weights hso (by omega)
      exact ⟨by rw [hn, he]; exact hb, by rw [← hlv]; exact hb.leaves_perm, h1, by rw [h2, hw]⟩

theorem BuiltFrom.keys_perm {freq : Vector DWord Config.symbolCount} {t : HuffmanTree} (h : BuiltFrom freq t) :
    t.keys.Perm (presentSymbols freq) := by
  have := h.leaves.map Prod.fst
  simpa [HuffmanTree.keys, List.map_map, Function.comp_def] using this

theorem BuiltFrom.keys_nodup {freq : Vector DWord Config.symbolCount} {t : HuffmanTree} (h : BuiltFrom freq t) : t.keys.Nodup :=
  h.keys_perm.nodup_iff.2 (nodup_presentSymbols freq)

theorem BuiltFrom.length_leaves_le {freq : Vector DWord Config.symbolCount} {t : HuffmanTree} (h : BuiltFrom freq t) :
    t.leaves.length ≤ 256 := by
  have := h.leaves.length_eq
  have := length_presentSymbols_le freq
  simp_all

theorem BuiltFrom.depth_le {freq : Vector DWord Config.symbolCount} {t : HuffmanTree} (h : BuiltFrom freq t) : t.depth ≤ 255 := by
  have := h.length_leaves_le
  have := t.depth_lt_leaves
  omega

theorem BuiltFrom.nodes_le {freq : Vector DWord Config.symbolCount} {t : HuffmanTree} (h : BuiltFrom freq t) : t.nodes ≤ 511 := by
  have := h.length_leaves_le
  have := t.nodes_eq
  omega

/-! ## Code derivation (R146 to R151) -/

namespace HuffmanTree

/-- The walk lists each leaf's path. -/
theorem mem_walk {t : HuffmanTree} {p q : List Bool} {k : Byte} :
    (k, q) ∈ t.walk p ↔ ∃ r, q = p ++ r ∧ t.keyAt r = some k := by
  induction t generalizing p with
  | leaf j w =>
    simp only [walk, List.mem_singleton, Prod.mk.injEq]
    constructor
    · rintro ⟨rfl, rfl⟩
      exact ⟨[], by simp, rfl⟩
    · rintro ⟨r, rfl, hr⟩
      cases r <;> simp_all
  | node w l r ihl ihr =>
    rw [walk, List.mem_append, ihl, ihr]
    constructor
    · rintro (⟨r, rfl, hr⟩ | ⟨r, rfl, hr⟩)
      · exact ⟨false :: r, by simp, by simpa using hr⟩
      · exact ⟨true :: r, by simp, by simpa using hr⟩
    · rintro ⟨r, rfl, hr⟩
      rcases r with _ | ⟨b, r⟩
      · simp at hr
      · cases b
        · exact .inl ⟨r, by simp, by simpa using hr⟩
        · exact .inr ⟨r, by simp, by simpa using hr⟩

@[simp] theorem walk_map_fst (t : HuffmanTree) (p : List Bool) : (t.walk p).map Prod.fst = t.keys := by
  induction t generalizing p with
  | leaf => rfl
  | node w l r ihl ihr => simp [walk, ihl, ihr]

/-- The walk goes from left to right. -/
theorem walk_pairwise (t : HuffmanTree) (p : List Bool) :
    (t.walk p).Pairwise fun c d => leftOf c.2 d.2 = true := by
  have common : ∀ (p q r : List Bool), leftOf (p ++ q) (p ++ r) = leftOf q r := by
    intro p q r
    induction p with
    | nil => rfl
    | cons b p ih => simp [leftOf, ih]
  induction t generalizing p with
  | leaf => simp [walk]
  | node w l r ihl ihr =>
    rw [walk, List.pairwise_append]
    refine ⟨ihl _, ihr _, ?_⟩
    rintro ⟨k, q⟩ hq ⟨j, s⟩ hs
    obtain ⟨q, rfl, -⟩ := mem_walk.1 hq
    obtain ⟨s, rfl, -⟩ := mem_walk.1 hs
    simp only [List.append_assoc, List.singleton_append, common, leftOf]
    simp

/-- A tree of depth at most 256 has no leaf too deep. -/
theorem tooDeep_eq_none {t : HuffmanTree} (h : t.depth ≤ 256) : t.tooDeep = none := by
  rw [tooDeep, List.find?_eq_none]
  rintro ⟨k, q⟩ hq
  obtain ⟨r, rfl, hr⟩ := mem_walk.1 hq
  have := keyAt_length_le hr
  simp only [decide_eq_true_eq, gt_iff_lt, Config.maxCodeBits]
  omega

end HuffmanTree

theorem writeCodes_append_singleton (ct : Vector (Option BitSequence) Config.symbolCount) (cs : List (Byte × List Bool))
    (c : Byte × List Bool) :
    writeCodes ct (cs ++ [c]) = tableSet (writeCodes ct cs) c.1 (some { sym := c.1, bits := c.2 }) := by
  simp [writeCodes]

/-- A symbol no code is written for keeps its entry. -/
theorem tableGet_writeCodes_absent (ct : Vector (Option BitSequence) Config.symbolCount) (cs : List (Byte × List Bool)) {k : Byte}
    (h : k ∉ cs.map Prod.fst) : tableGet (writeCodes ct cs) k = tableGet ct k := by
  induction cs using List.reverseRecOn with
  | nil => rfl
  | append_singleton cs c ih =>
    simp only [List.map_append, List.map_cons, List.map_nil, List.mem_append, List.mem_singleton, not_or] at h
    rw [writeCodes_append_singleton, tableGet_tableSet_other _ _ h.2, ih h.1]

/-- Of the codes written for a symbol the last one stands (R149). -/
theorem tableGet_writeCodes_last (ct : Vector (Option BitSequence) Config.symbolCount) (as bs : List (Byte × List Bool)) {k : Byte}
    (p : List Bool) (h : k ∉ bs.map Prod.fst) :
    tableGet (writeCodes ct (as ++ (k, p) :: bs)) k = some { sym := k, bits := p } := by
  induction bs using List.reverseRecOn with
  | nil => rw [writeCodes_append_singleton, tableGet_tableSet_same]
  | append_singleton bs c ih =>
    simp only [List.map_append, List.map_cons, List.map_nil, List.mem_append, List.mem_singleton, not_or] at h
    rw [← List.cons_append, ← List.append_assoc, writeCodes_append_singleton, tableGet_tableSet_other _ _ h.2, ih h.1]

/-- With one code for each symbol every code written stands. -/
theorem tableGet_writeCodes {ct : Vector (Option BitSequence) Config.symbolCount} {cs : List (Byte × List Bool)}
    (hd : (cs.map Prod.fst).Nodup) {k : Byte} {p : List Bool} (h : (k, p) ∈ cs) :
    tableGet (writeCodes ct cs) k = some { sym := k, bits := p } := by
  obtain ⟨as, bs, rfl⟩ := List.append_of_mem h
  refine tableGet_writeCodes_last ct as bs p fun hk => ?_
  rw [List.map_append, List.map_cons, List.nodup_append'] at hd
  exact (List.nodup_cons.1 hd.2.1).1 hk

/-- Any entry after the writing is one of the codes written or was there before. -/
theorem tableGet_writeCodes_cases (ct : Vector (Option BitSequence) Config.symbolCount) (cs : List (Byte × List Bool)) (k : Byte) :
    tableGet (writeCodes ct cs) k = tableGet ct k
      ∨ ∃ p, (k, p) ∈ cs ∧ tableGet (writeCodes ct cs) k = some { sym := k, bits := p } := by
  induction cs using List.reverseRecOn with
  | nil => exact .inl rfl
  | append_singleton cs c ih =>
    rw [writeCodes_append_singleton, tableGet_tableSet]
    split
    · next h => exact .inr ⟨c.2, by simp [h], by simp [h]⟩
    · rcases ih with ih | ⟨p, hp, ih⟩
      · exact .inl ih
      · exact .inr ⟨p, by simp [hp], ih⟩

end Sys2Proof.Machine
end

