-- ==== Sys2Proof/Laws/Checksum.lean ====
section
/-! SUPPORT. The checksum chunk by chunk (spec/44_container.md R181, R182), and that one changed byte changes it (R184). -/

namespace Sys2Proof.Machine

/-- The accumulator after the bytes of one chunk. -/
def chunkAcc (o : ChecksumOptions) (acc : Word) (c : List Byte) : Word :=
  c.foldl (fun acc b => Config.ckMult * acc + checksumByte o b) acc

/-- The checksum from a given aggregate. -/
def checksumFrom (o : ChecksumOptions) (agg : Word) (bs : List Byte) : Word :=
  checksumEnd o (bs.foldl (checksumStep o) { agg := agg, acc := 1, cnt := 0 })

theorem checksum_eq_from (o : ChecksumOptions) (bs : List Byte) : checksum o bs = checksumFrom o o.aggInit bs := rfl

/-- Within a chunk only the accumulator and the count move. -/
theorem foldl_within (o : ChecksumOptions) (agg acc : Word) (cnt : Nat) (c : List Byte) (h : cnt + c.length ≤ 8) :
    c.foldl (checksumStep o) { agg := agg, acc := acc, cnt := cnt }
      = { agg := agg, acc := chunkAcc o acc c, cnt := cnt + c.length } := by
  induction c generalizing acc cnt with
  | nil => rfl
  | cons b c ih =>
    rw [List.length_cons] at h
    have hne : ¬ cnt = Config.chunk := by
      rw [show Config.chunk = 8 from rfl]
      omega
    have first : checksumStep o { agg := agg, acc := acc, cnt := cnt } b
        = { agg := agg, acc := Config.ckMult * acc + checksumByte o b, cnt := cnt + 1 } := by
      simp only [checksumStep, if_neg hne]
    rw [List.foldl_cons, first, ih _ _ (by omega)]
    simp only [chunkAcc, List.foldl_cons, List.length_cons, ChecksumState.mk.injEq, true_and]
    omega

/-- At most one chunk. -/
theorem checksumFrom_short (o : ChecksumOptions) (agg : Word) (c : List Byte) (h : c.length ≤ 8) :
    checksumFrom o agg c = agg ^^^ chunkAcc o 1 c ^^^ if o.finalEmpty ∧ c.length = 8 then 1 else 0 := by
  rw [checksumFrom, foldl_within o agg 1 0 c (by omega), checksumEnd, Nat.zero_add]
  have : Config.chunk = 8 := rfl
  simp only [this]
  split <;> simp

/-- A full chunk with a byte behind it goes into the aggregate. -/
theorem checksumFrom_long (o : ChecksumOptions) (agg : Word) (c bs : List Byte) (hc : c.length = 8) (hb : bs ≠ []) :
    checksumFrom o agg (c ++ bs) = checksumFrom o (agg ^^^ chunkAcc o 1 c) bs := by
  obtain ⟨b, bs, rfl⟩ := List.exists_cons_of_ne_nil hb
  rw [checksumFrom, checksumFrom, List.foldl_append, foldl_within o agg 1 0 c (by omega)]
  simp only [List.foldl_cons]
  congr 1
  congr 1
  have e8 : Config.chunk = 8 := rfl
  simp [checksumStep, hc, e8]

/-- The aggregate is only XORed to. -/
theorem checksumFrom_xor (o : ChecksumOptions) (agg : Word) (bs : List Byte) :
    checksumFrom o agg bs = agg ^^^ checksumFrom o 0 bs := by
  induction hn : bs.length using Nat.strongRecOn generalizing agg bs with
  | _ n ih =>
    by_cases h : bs.length ≤ 8
    · rw [checksumFrom_short o _ _ h, checksumFrom_short o _ _ h]
      simp [BitVec.xor_assoc]
    · have e : bs = bs.take 8 ++ bs.drop 8 := (List.take_append_drop 8 bs).symm
      have hl : (bs.take 8).length = 8 := by simp; omega
      have hd : bs.drop 8 ≠ [] := by
        intro hd
        have := congrArg List.length hd
        simp at this
        omega
      rw [e, checksumFrom_long o _ _ _ hl hd, checksumFrom_long o _ _ _ hl hd]
      have hlt : (bs.drop 8).length < n := by simp; omega
      rw [ih _ hlt (agg ^^^ _) _ rfl, ih _ hlt (0 ^^^ _) _ rfl]
      simp [BitVec.xor_assoc]

/-! ## One byte changed -/

theorem mult_injective {a b : Word} (h : Config.ckMult * a = Config.ckMult * b) : a = b := by
  have e : ∀ x : Word, 3186588639 * (Config.ckMult * x) = x := by
    intro x
    rw [← BitVec.mul_assoc, show (3186588639 : Word) * Config.ckMult = 1#32 from by decide, BitVec.one_mul]
  rw [← e a, ← e b, h]

theorem add_left_injective_word {a b c : Word} (h : a + c = b + c) : a = b := by
  have := congrArg (· - c) h
  simpa using this

theorem checksumByte_injective (o : ChecksumOptions) {a b : Byte} (h : checksumByte o a = checksumByte o b) : a = b := by
  have low : ∀ x : Byte, (checksumByte o x).setWidth 8 = x := by
    unfold checksumByte
    cases o.byteSigned <;> decide +kernel
  rw [← low a, ← low b, h]

theorem chunkAcc_injective (o : ChecksumOptions) {a b : Word} (c : List Byte) (h : chunkAcc o a c = chunkAcc o b c) :
    a = b := by
  induction c generalizing a b with
  | nil => exact h
  | cons x c ih => exact mult_injective (add_left_injective_word (ih h))

/-- One byte of a chunk changed changes its accumulator. -/
theorem chunkAcc_change (o : ChecksumOptions) (acc : Word) (pre post : List Byte) {a b : Byte}
    (h : chunkAcc o acc (pre ++ a :: post) = chunkAcc o acc (pre ++ b :: post)) : a = b := by
  simp only [chunkAcc, List.foldl_append, List.foldl_cons] at h
  have := chunkAcc_injective o post h
  refine checksumByte_injective o ?_
  rw [BitVec.add_comm, BitVec.add_comm (_ * _)] at this
  exact add_left_injective_word this

theorem xor_cancel_left {a b c : Word} (h : a ^^^ b = a ^^^ c) : b = c := by
  have := congrArg (a ^^^ ·) h
  simpa [← BitVec.xor_assoc] using this

theorem xor_cancel_right {a b c : Word} (h : b ^^^ a = c ^^^ a) : b = c := by
  rw [BitVec.xor_comm, BitVec.xor_comm c] at h
  exact xor_cancel_left h

/-- One byte changed changes the checksum. -/
theorem checksumFrom_change (o : ChecksumOptions) (agg : Word) (pre post : List Byte) {a b : Byte}
    (h : checksumFrom o agg (pre ++ a :: post) = checksumFrom o agg (pre ++ b :: post)) : a = b := by
  induction hn : pre.length using Nat.strongRecOn generalizing agg pre with
  | _ n ih =>
    by_cases hp : 8 ≤ pre.length
    · have e : pre = pre.take 8 ++ pre.drop 8 := (List.take_append_drop 8 pre).symm
      have hl : (pre.take 8).length = 8 := by simp; omega
      rw [e, List.append_assoc, List.append_assoc, checksumFrom_long o _ _ _ hl (by simp),
        checksumFrom_long o _ _ _ hl (by simp)] at h
      exact ih _ (by simp; omega) _ _ h rfl
    · by_cases hq : pre.length + 1 + post.length ≤ 8
      · rw [checksumFrom_short o _ _ (by simp; omega), checksumFrom_short o _ _ (by simp; omega)] at h
        simp only [List.length_append, List.length_cons] at h
        exact chunkAcc_change o 1 pre post (xor_cancel_left (xor_cancel_right h))
      · have split : ∀ x : Byte, pre ++ x :: post
            = (pre ++ x :: post.take (7 - pre.length)) ++ post.drop (7 - pre.length) := by
          intro x
          simp
        have hl : ∀ x : Byte, (pre ++ x :: post.take (7 - pre.length)).length = 8 := by
          intro x
          simp
          omega
        have hd : post.drop (7 - pre.length) ≠ [] := by
          intro hd
          have := congrArg List.length hd
          simp at this
          omega
        rw [split a, split b, checksumFrom_long o _ _ _ (hl a) hd, checksumFrom_long o _ _ _ (hl b) hd,
          checksumFrom_xor, checksumFrom_xor o (agg ^^^ chunkAcc o 1 (pre ++ b :: _))] at h
        exact chunkAcc_change o 1 pre _ (xor_cancel_left (xor_cancel_right h))

end Sys2Proof.Machine
end

