-- ==== Sys2Proof/Laws/Memory.lean ====
section
/-! SUPPORT. The laws of the byte memories: read after write, the canonical form, byte sequences, little-endian fields. -/

namespace Sys2Proof.Machine

namespace Memory

/-! ## One byte -/

@[simp] theorem read_nil (a : Nat) : Memory.read [] a = unlisted := rfl

theorem read_cons (k : Nat) (v : Byte) (m : Memory) (a : Nat) :
    Memory.read ((k, v) :: m) a = if a = k then v else Memory.read m a := rfl

/-- A byte below every listed index reads as unlisted. -/
theorem read_below {m : Memory} {a : Nat} (h : ∀ p ∈ m, a < p.1) : m.read a = unlisted := by
  induction m with
  | nil => rfl
  | cons p m ih =>
    obtain ⟨k, v⟩ := p
    have hk := h (k, v) (by simp)
    rw [read_cons, if_neg (by simp at hk; omega)]
    exact ih fun p hp => h p (by simp [hp])

theorem read_list_other {a b : Nat} (v : Byte) (m : Memory) (h : b ≠ a) :
    (Memory.list a v m).read b = m.read b := by
  unfold Memory.list
  split
  · rfl
  · rw [read_cons, if_neg h]

theorem read_list_same {a : Nat} (v : Byte) {m : Memory} (h : ∀ p ∈ m, a < p.1) :
    (Memory.list a v m).read a = v := by
  unfold Memory.list
  split
  · next hv => rw [read_below h, hv]
  · rw [read_cons, if_pos rfl]

/-- A write leaves every other byte alone. -/
theorem read_write_other (m : Memory) {a b : Nat} (v : Byte) (h : b ≠ a) : (m.write a v).read b = m.read b := by
  induction m with
  | nil => exact read_list_other v [] h
  | cons p m ih =>
    obtain ⟨k, u⟩ := p
    rw [Memory.write]
    split
    · exact read_list_other v _ h
    · split
      · next hk => rw [read_list_other v m h, read_cons, if_neg (hk ▸ h)]
      · rw [read_cons, read_cons, ih]

/-- The canonical form of the rest, and where it lies. -/
theorem wf_cons {k : Nat} {v : Byte} {m : Memory} :
    Memory.wf ((k, v) :: m) ↔ (∀ p ∈ m, k < p.1) ∧ v ≠ unlisted ∧ m.wf := by
  simp only [Memory.wf, List.pairwise_cons, List.forall_mem_cons]
  tauto

/-- A write is read back. -/
theorem read_write_same {m : Memory} (hm : m.wf) (a : Nat) (v : Byte) : (m.write a v).read a = v := by
  induction m with
  | nil => exact read_list_same v (by simp)
  | cons p m ih =>
    obtain ⟨k, u⟩ := p
    obtain ⟨hk, -, hm'⟩ := wf_cons.1 hm
    rw [Memory.write]
    split
    · next h =>
      refine read_list_same v fun p hp => ?_
      rcases List.mem_cons.1 hp with rfl | hp
      · exact h
      · exact h.trans (hk p hp)
    · split
      · next _ h => exact read_list_same v fun p hp => h ▸ hk p hp
      · next h₁ h₂ => rw [read_cons, if_neg h₂, ih hm']

/-- One byte after a write: the byte written, or the byte that stood there. -/
theorem read_write {m : Memory} (hm : m.wf) (a b : Nat) (v : Byte) :
    (m.write a v).read b = if b = a then v else m.read b := by
  split
  · next h => rw [h, read_write_same hm]
  · next h => exact read_write_other m v h

theorem mem_list {a : Nat} {v : Byte} {m : Memory} {p : Host.Cell} (h : p ∈ Memory.list a v m) :
    p = (a, v) ∧ v ≠ unlisted ∨ p ∈ m := by
  unfold Memory.list at h
  split at h
  · exact .inr h
  · next hv =>
    rcases List.mem_cons.1 h with rfl | h
    · exact .inl ⟨rfl, hv⟩
    · exact .inr h

/-- What a write lists: the byte written, or what was listed. -/
theorem mem_write {m : Memory} {a : Nat} {v : Byte} {p : Host.Cell} (h : p ∈ m.write a v) :
    p = (a, v) ∧ v ≠ unlisted ∨ p ∈ m := by
  induction m with
  | nil => exact mem_list h
  | cons q m ih =>
    obtain ⟨k, u⟩ := q
    rw [Memory.write] at h
    split at h
    · exact mem_list h
    · split at h
      · exact (mem_list h).imp_right fun h => by simp [h]
      · rcases List.mem_cons.1 h with rfl | h
        · exact .inr (by simp)
        · exact (ih h).imp_right fun h => by simp [h]

theorem wf_list {a : Nat} (v : Byte) {m : Memory} (hm : m.wf) (h : ∀ p ∈ m, a < p.1) : (Memory.list a v m).wf := by
  unfold Memory.list
  split
  · exact hm
  · next hv => exact wf_cons.2 ⟨h, hv, hm⟩

/-- A write keeps the canonical form. -/
theorem wf_write {m : Memory} (hm : m.wf) (a : Nat) (v : Byte) : (m.write a v).wf := by
  induction m with
  | nil => exact wf_list v hm (by simp)
  | cons p m ih =>
    obtain ⟨k, u⟩ := p
    obtain ⟨hk, hu, hm'⟩ := wf_cons.1 hm
    rw [Memory.write]
    split
    · next h =>
      refine wf_list v hm fun p hp => ?_
      rcases List.mem_cons.1 hp with rfl | hp
      · exact h
      · exact h.trans (hk p hp)
    · split
      · next _ h => exact wf_list v hm' fun p hp => h ▸ hk p hp
      · next h₁ h₂ =>
        refine wf_cons.2 ⟨fun p hp => ?_, hu, ih hm'⟩
        rcases mem_write hp with ⟨rfl, -⟩ | hp
        · show k < a
          omega
        · exact hk p hp

theorem wf_nil : Memory.wf [] := by simp [Memory.wf]

/-- A canonical memory is known by what it reads as. -/
theorem ext {m n : Memory} (hm : m.wf) (hn : n.wf) (h : ∀ a, m.read a = n.read a) : m = n := by
  induction m generalizing n with
  | nil =>
    cases n with
    | nil => rfl
    | cons q n =>
      obtain ⟨k, v⟩ := q
      obtain ⟨-, hv, -⟩ := wf_cons.1 hn
      exact absurd (by simpa [read_cons] using (h k).symm) hv
  | cons p m ih =>
    obtain ⟨k, v⟩ := p
    obtain ⟨hk, hv, hm'⟩ := wf_cons.1 hm
    cases n with
    | nil => exact absurd (by simpa [read_cons] using h k) hv
    | cons q n =>
      obtain ⟨j, u⟩ := q
      obtain ⟨hj, hu, hn'⟩ := wf_cons.1 hn
      have hkj : k = j := by
        rcases Nat.lt_trichotomy k j with hlt | heq | hgt
        · have := h k
          rw [read_cons, if_pos rfl, read_cons, if_neg (by omega),
            read_below fun p hp => hlt.trans (hj p hp)] at this
          exact absurd this hv
        · exact heq
        · have := h j
          rw [read_cons, if_neg (by omega), read_below fun p hp => hgt.trans (hk p hp), read_cons,
            if_pos rfl] at this
          exact absurd this.symm hu
      subst hkj
      have hvu : v = u := by simpa [read_cons] using h k
      subst hvu
      rw [ih hm' hn' fun a => ?_]
      by_cases ha : a = k
      · rw [ha, read_below hk, read_below hj]
      · simpa [read_cons, ha] using h a

/-! ## Byte sequences -/

@[simp] theorem length_readBytes (m : Memory) (a n : Nat) : (m.readBytes a n).length = n := by
  induction n generalizing a with
  | zero => rfl
  | succ n ih => simp [Memory.readBytes, ih]

/-- The bytes read are the bytes at consecutive indices. -/
theorem readBytes_eq_map (m : Memory) (a n : Nat) :
    m.readBytes a n = (List.range n).map fun i => m.read (a + i) := by
  induction n generalizing a with
  | zero => rfl
  | succ n ih =>
    rw [Memory.readBytes, ih, List.range_succ_eq_map]
    simp [Nat.add_comm, Nat.add_left_comm]

theorem getElem?_readBytes (m : Memory) (a n i : Nat) :
    (m.readBytes a n)[i]? = if i < n then some (m.read (a + i)) else none := by
  rw [readBytes_eq_map]
  split
  · next h => simp [List.getElem?_range h]
  · next h => simp; omega

theorem getElem_readBytes (m : Memory) (a n i : Nat) (h : i < (m.readBytes a n).length) :
    (m.readBytes a n)[i] = m.read (a + i) := by
  simp [readBytes_eq_map]

theorem readBytes_append (m : Memory) (a n k : Nat) :
    m.readBytes a (n + k) = m.readBytes a n ++ m.readBytes (a + n) k := by
  induction n generalizing a with
  | zero => simp [Memory.readBytes]
  | succ n ih =>
    rw [Nat.succ_add, Memory.readBytes, ih, Memory.readBytes]
    simp [Nat.add_comm, Nat.add_left_comm]

/-- Reading depends only on the bytes read. -/
theorem readBytes_congr {m k : Memory} {a n : Nat} (h : ∀ i, a ≤ i → i < a + n → m.read i = k.read i) :
    m.readBytes a n = k.readBytes a n := by
  rw [readBytes_eq_map, readBytes_eq_map]
  exact List.map_congr_left fun i hi => h _ (by omega) (by have := List.mem_range.1 hi; omega)

/-- A slice of the bytes read. -/
theorem slice_readBytes (m : Memory) (a n i k : Nat) (h : i + k ≤ n) :
    slice (m.readBytes a n) i k = m.readBytes (a + i) k := by
  have h1 : n = i + (k + (n - i - k)) := by omega
  rw [slice, h1, readBytes_append, readBytes_append, List.drop_left' (by simp), List.take_left' (by simp)]

@[simp] theorem writeBytes_nil (m : Memory) (a : Nat) : m.writeBytes a [] = m := rfl

theorem wf_writeBytes {m : Memory} (hm : m.wf) (a : Nat) (bs : List Byte) : (m.writeBytes a bs).wf := by
  induction bs generalizing m a with
  | nil => exact hm
  | cons b bs ih => exact ih (wf_write hm a b) (a + 1)

/-- A byte outside the sequence written is as before. -/
theorem read_writeBytes_outside (m : Memory) (a : Nat) (bs : List Byte) {i : Nat} (h : i < a ∨ a + bs.length ≤ i) :
    (m.writeBytes a bs).read i = m.read i := by
  induction bs generalizing m a with
  | nil => rfl
  | cons b bs ih =>
    rw [Memory.writeBytes, ih, read_write_other]
    · rintro rfl
      simp at h
    · simp at h
      omega

/-- A byte inside the sequence written is the sequence's. -/
theorem read_writeBytes_inside {m : Memory} (hm : m.wf) (a : Nat) (bs : List Byte) {i : Nat} (h : i < bs.length) :
    (m.writeBytes a bs).read (a + i) = bs[i] := by
  induction bs generalizing m a i with
  | nil => simp at h
  | cons b bs ih =>
    rw [Memory.writeBytes]
    cases i with
    | zero =>
      rw [read_writeBytes_outside _ _ _ (by omega), Nat.add_zero, read_write_same hm]
      rfl
    | succ i =>
      have hi : i < bs.length := by simpa using h
      rw [show a + (i + 1) = a + 1 + i by omega, ih (wf_write hm a b) (a + 1) hi]
      rfl

/-- One byte after a sequence is written. -/
theorem read_writeBytes {m : Memory} (hm : m.wf) (a : Nat) (bs : List Byte) (i : Nat) :
    (m.writeBytes a bs).read i = if a ≤ i then bs.getD (i - a) (m.read i) else m.read i := by
  split
  · next h =>
    by_cases hb : i - a < bs.length
    · have := read_writeBytes_inside hm a bs hb
      rw [Nat.add_sub_cancel' h] at this
      rw [this, List.getD_eq_getElem _ _ hb]
    · rw [read_writeBytes_outside _ _ _ (by omega), List.getD_eq_default _ _ (by omega)]
  · next h => exact read_writeBytes_outside _ _ _ (by omega)

/-- The sequence written is read back. -/
theorem readBytes_writeBytes {m : Memory} (hm : m.wf) (a : Nat) (bs : List Byte) :
    (m.writeBytes a bs).readBytes a bs.length = bs := by
  apply List.ext_getElem (by simp)
  intro i h1 h2
  rw [getElem_readBytes, read_writeBytes_inside hm]

/-- Bytes read outside the sequence written are as before. -/
theorem readBytes_writeBytes_outside (m : Memory) (a : Nat) (bs : List Byte) {i n : Nat}
    (h : i + n ≤ a ∨ a + bs.length ≤ i) : (m.writeBytes a bs).readBytes i n = m.readBytes i n :=
  readBytes_congr fun j h1 h2 => read_writeBytes_outside _ _ _ (by omega)

theorem mem_writeBytes {m : Memory} {a : Nat} {bs : List Byte} {p : Host.Cell} (h : p ∈ m.writeBytes a bs) :
    a ≤ p.1 ∧ p.1 < a + bs.length ∨ p ∈ m := by
  induction bs generalizing m a with
  | nil => exact .inr h
  | cons b bs ih =>
    rcases ih h with h | h
    · left
      simp
      omega
    · rcases mem_write h with ⟨rfl, -⟩ | h
      · left
        simp
      · exact .inr h

/-- Two writes one after the other at consecutive places are one write. -/
theorem writeBytes_append (m : Memory) (a : Nat) (bs cs : List Byte) :
    m.writeBytes a (bs ++ cs) = (m.writeBytes a bs).writeBytes (a + bs.length) cs := by
  induction bs generalizing m a with
  | nil => simp
  | cons b bs ih =>
    rw [List.cons_append, Memory.writeBytes, ih, Memory.writeBytes, List.length_cons,
      show a + (bs.length + 1) = a + 1 + bs.length by omega]

/-! ## Bits -/

@[simp] theorem length_readBits (m : Memory) (k n : Nat) : (m.readBits k n).length = n := by
  induction n generalizing k with
  | zero => rfl
  | succ n ih => simp [Memory.readBits, ih]

theorem readBits_eq_map (m : Memory) (k n : Nat) :
    m.readBits k n = (List.range n).map fun i => m.bitRead (k + i) := by
  induction n generalizing k with
  | zero => rfl
  | succ n ih =>
    rw [Memory.readBits, ih, List.range_succ_eq_map]
    simp [Nat.add_comm, Nat.add_left_comm]

end Memory

/-- The middle of three pieces. -/
theorem slice_middle {bs pre mid post : List Byte} {a n : Nat} (h : bs = pre ++ (mid ++ post)) (ha : a = pre.length)
    (hn : n = mid.length) : slice bs a n = mid := by
  rw [slice, h, ha, hn, List.drop_left, List.take_left]

/-! ## Little-endian fields -/

@[simp] theorem length_leBytes (n v : Nat) : (leBytes n v).length = n := by
  induction n generalizing v with
  | zero => rfl
  | succ n ih => simp [leBytes, ih]

/-- The value of a number's bytes is the number, modulo the width. -/
theorem leValue_leBytes (n v : Nat) : leValue (leBytes n v) = v % 256 ^ n := by
  induction n generalizing v with
  | zero => simp [leBytes, leValue, Nat.mod_one]
  | succ n ih =>
    rw [leBytes, leValue, ih, Nat.pow_succ, Nat.mul_comm (256 ^ n), Nat.mod_mul]
    simp [BitVec.toNat_ofNat]

theorem leValue_lt (bs : List Byte) : leValue bs < 256 ^ bs.length := by
  induction bs with
  | nil => simp [leValue]
  | cons b bs ih =>
    have := b.isLt
    rw [leValue, List.length_cons, Nat.pow_succ]
    omega

theorem leValue_append (bs cs : List Byte) : leValue (bs ++ cs) = leValue bs + 256 ^ bs.length * leValue cs := by
  induction bs with
  | nil => simp [leValue]
  | cons b bs ih =>
    rw [List.cons_append, leValue, ih, leValue, List.length_cons, Nat.pow_succ]
    ring

/-- The bytes of a value are the bytes it was made of. -/
theorem leBytes_leValue (bs : List Byte) : leBytes bs.length (leValue bs) = bs := by
  induction bs with
  | nil => rfl
  | cons b bs ih =>
    have hb := b.isLt
    rw [List.length_cons, leBytes, leValue]
    congr 1
    · apply BitVec.eq_of_toNat_eq
      simp only [BitVec.toNat_ofNat]
      omega
    · rw [show (b.toNat + 256 * leValue bs) / 256 = leValue bs by omega, ih]

/-! ## `ceil8` and capacities -/

theorem ceil8_eq (n : Nat) : ceil8 n = (n + 7) / 8 := by
  unfold ceil8
  split <;> omega

theorem ceil8_mono {m n : Nat} (h : m ≤ n) : ceil8 m ≤ ceil8 n := by
  rw [ceil8_eq, ceil8_eq]
  omega

theorem overCap_eq_false {cap : Option Nat} {n : Nat} : overCap cap n = false ↔ ∀ c, cap = some c → n ≤ c := by
  cases cap <;> simp [overCap]

theorem overCap_mono {cap : Option Nat} {m n : Nat} (h : m ≤ n) (hn : overCap cap n = false) : overCap cap m = false :=
  overCap_eq_false.2 fun c hc => h.trans (overCap_eq_false.1 hn c hc)

@[simp] theorem overCap_none (n : Nat) : overCap none n = false := rfl

end Sys2Proof.Machine
end

