-- ==== Sys2Proof/Laws/Pack.lean ====
section
/-! SUPPORT. The packer: one bit appended is one bit of the stream more, and the flushed bytes hold the stream
(spec/41_packer.md R122, R126). -/

namespace Sys2Proof.Machine

namespace Packer

@[simp] theorem length_stream (p : Packer) : p.stream.length = p.bitcnt.toNat := by simp [Packer.stream]

theorem getElem_stream (p : Packer) (k : Nat) (h : k < p.stream.length) :
    p.stream[k] = streamBit (p.buf ++ [p.part]) k := by
  simp [Packer.stream]

theorem fresh_ok (cap : Option Nat) : Packer.fresh.Ok cap where
  wholeBytes := rfl
  highBitsZero := by decide
  fits := by
    cases cap <;> simp [overCap, Packer.fresh, ceil8]

@[simp] theorem fresh_stream : Packer.fresh.stream = [] := rfl

/-- The partial byte after a bit is put into it. -/
def partWith (p : Packer) (b : Bool) : Byte := p.part ||| ((if b then 1 else 0 : Byte) <<< (p.bitcnt.toNat % 8))

theorem getLsbD_partWith (p : Packer) (b : Bool) {j : Nat} (hj : j < 8) :
    (p.partWith b).getLsbD j = (p.part.getLsbD j || (decide (j = p.bitcnt.toNat % 8) && b)) := by
  unfold partWith
  rw [BitVec.getLsbD_or, BitVec.getLsbD_shiftLeft]
  congr 1
  cases b
  · simp
  · simp only [if_true, hj, decide_true, Bool.true_and, Bool.and_true]
    rcases Nat.lt_trichotomy j (p.bitcnt.toNat % 8) with h | h | h
    · simp [h, h.ne]
    · subst h
      simp
    · have : j - p.bitcnt.toNat % 8 ≠ 0 := by omega
      simp [h.ne', h.not_gt, BitVec.getLsbD_one, this]

theorem partWith_lt {cap : Option Nat} {p : Packer} (hp : p.Ok cap) (b : Bool) :
    (p.partWith b).toNat < 2 ^ (p.bitcnt.toNat % 8 + 1) := by
  have ho : p.bitcnt.toNat % 8 < 8 := Nat.mod_lt _ (by decide)
  have h1 : p.part.toNat < 2 ^ (p.bitcnt.toNat % 8 + 1) :=
    hp.highBitsZero.trans_le (Nat.pow_le_pow_right (by decide) (by omega))
  have h2 : ((if b then 1 else 0 : Byte) <<< (p.bitcnt.toNat % 8)).toNat < 2 ^ (p.bitcnt.toNat % 8 + 1) := by
    rw [BitVec.toNat_shiftLeft]
    refine (Nat.mod_le _ _).trans_lt ?_
    rw [Nat.shiftLeft_eq, Nat.pow_succ]
    have := Nat.two_pow_pos (p.bitcnt.toNat % 8)
    cases b
    · simp
    · rw [if_pos rfl, show (1 : Byte).toNat = 1 from rfl]
      omega
  rw [partWith, BitVec.toNat_or]
  exact Nat.or_lt_two_pow h1 h2

theorem toNat_succ {n : DWord} (h : n.toNat + 1 < 2 ^ 64) : (n + 1).toNat = n.toNat + 1 := by
  rw [BitVec.toNat_add, show (1 : DWord).toNat = 1 from rfl, Nat.mod_eq_of_lt h]

/-- `PutBit`, by cases on whether the byte fills. -/
theorem putBit_eq (p : Packer) (b : Bool) (h : p.bitcnt.toNat + 1 < 2 ^ 64) :
    p.putBit b = if (p.bitcnt.toNat + 1) % 8 = 0
      then { buf := p.buf ++ [p.partWith b], part := 0, bitcnt := p.bitcnt + 1 }
      else { buf := p.buf, part := p.partWith b, bitcnt := p.bitcnt + 1 } := by
  unfold Packer.putBit
  simp only [toNat_succ h, partWith]

@[simp] theorem putBit_bitcnt (p : Packer) (b : Bool) : (p.putBit b).bitcnt = p.bitcnt + 1 := by
  unfold Packer.putBit
  dsimp only
  split <;> rfl

/-- One bit appended keeps the packer's shape. -/
theorem putBit_ok {cap : Option Nat} {p : Packer} (hp : p.Ok cap) (b : Bool) (h : p.bitcnt.toNat + 1 < 2 ^ 64) :
    (p.putBit b).Ok none := by
  have hw := hp.wholeBytes
  have hl := partWith_lt hp b
  rw [putBit_eq p b h]
  split
  · next h8 =>
    refine ⟨?_, ?_, rfl⟩
    · simp only [List.length_append, List.length_singleton, toNat_succ h]
      omega
    · simp only [toNat_succ h, h8]
      decide
  · next h8 =>
    refine ⟨?_, ?_, rfl⟩
    · simp only [toNat_succ h]
      omega
    · simp only [toNat_succ h]
      rwa [show (p.bitcnt.toNat + 1) % 8 = p.bitcnt.toNat % 8 + 1 by omega]

theorem high_bit_zero {cap : Option Nat} {p : Packer} (hp : p.Ok cap) {j : Nat} (hj : p.bitcnt.toNat % 8 ≤ j) :
    p.part.getLsbD j = false :=
  Nat.testBit_lt_two_pow (hp.highBitsZero.trans_le (Nat.pow_le_pow_right (by decide) hj))

theorem getD_append_singleton (bs : List Byte) (c : Byte) {q : Nat} (h : q ≤ bs.length) :
    (bs ++ [c]).getD q 0 = if q < bs.length then bs.getD q 0 else c := by
  split
  · next h => simp [List.getD_eq_getElem?_getD, List.getElem?_append_left h]
  · next h =>
    have : q = bs.length := by omega
    subst this
    simp [List.getD_eq_getElem?_getD]

/-- One bit appended is one bit of the stream more. -/
theorem putBit_stream {cap : Option Nat} {p : Packer} (hp : p.Ok cap) (b : Bool) (h : p.bitcnt.toNat + 1 < 2 ^ 64) :
    (p.putBit b).stream = p.stream ++ [b] := by
  have hw := hp.wholeBytes
  have key : ∀ k, k ≤ p.bitcnt.toNat → ∀ bs : List Byte,
      (∀ q, q ≤ p.buf.length → bs.getD q 0 = if q < p.buf.length then p.buf.getD q 0 else p.partWith b) →
      streamBit bs k = if k < p.bitcnt.toNat then streamBit (p.buf ++ [p.part]) k else b := by
    intro k hk bs hbs
    have hq : k / 8 ≤ p.buf.length := by omega
    unfold streamBit
    rw [hbs _ hq, getD_append_singleton _ _ hq]
    by_cases hlt : k / 8 < p.buf.length
    · rw [if_pos hlt, if_pos hlt, if_pos (by omega)]
    · rw [if_neg hlt, if_neg hlt, getLsbD_partWith _ _ (by omega)]
      split
      · next hk' => simp [show ¬ k % 8 = p.bitcnt.toNat % 8 by omega]
      · next hk' =>
        have : k = p.bitcnt.toNat := by omega
        subst this
        simp [high_bit_zero hp (Nat.le_refl _)]
  have stream_of : ∀ r : Packer, r.bitcnt = p.bitcnt + 1 →
      (∀ q, q ≤ p.buf.length → (r.buf ++ [r.part]).getD q 0 =
        if q < p.buf.length then p.buf.getD q 0 else p.partWith b) →
      r.stream = p.stream ++ [b] := by
    intro r hr hbs
    apply List.ext_getElem
    · rw [length_stream, hr, toNat_succ h]
      simp
    · intro k h1 h2
      rw [getElem_stream]
      have hk : k ≤ p.bitcnt.toNat := by simp at h2; omega
      rw [key k hk _ hbs, List.getElem_append]
      simp only [length_stream]
      split
      · rw [getElem_stream]
      · simp
  rw [putBit_eq p b h]
  split
  · refine stream_of _ rfl fun q hq => ?_
    simp only [List.append_assoc, List.singleton_append]
    by_cases hlt : q < p.buf.length
    · simp [List.getD_eq_getElem?_getD, List.getElem?_append_left hlt, hlt]
    · have : q = p.buf.length := by omega
      subst this
      simp [List.getD_eq_getElem?_getD]
  · refine stream_of _ rfl fun q hq => ?_
    exact getD_append_singleton _ _ hq

@[simp] theorem putBits_nil (p : Packer) : p.putBits [] = p := rfl

@[simp] theorem putBits_cons (p : Packer) (b : Bool) (bs : List Bool) :
    p.putBits (b :: bs) = (p.putBit b).putBits bs := rfl

theorem putBits_append (p : Packer) (bs cs : List Bool) : p.putBits (bs ++ cs) = (p.putBits bs).putBits cs := by
  simp [Packer.putBits]

/-- Appending bits: the shape is kept, the count goes up by their number, and they stand at the end of the stream. -/
theorem putBits_spec {cap : Option Nat} {p : Packer} (hp : p.Ok cap) (bs : List Bool)
    (h : p.bitcnt.toNat + bs.length < 2 ^ 64) :
    (p.putBits bs).Ok none ∧ (p.putBits bs).bitcnt.toNat = p.bitcnt.toNat + bs.length
      ∧ (p.putBits bs).stream = p.stream ++ bs := by
  induction bs generalizing p cap with
  | nil => exact ⟨⟨hp.1, hp.2, rfl⟩, by simp, by simp⟩
  | cons b bs ih =>
    rw [List.length_cons] at h
    have h1 : p.bitcnt.toNat + 1 < 2 ^ 64 := by omega
    have hc : (p.putBit b).bitcnt.toNat = p.bitcnt.toNat + 1 := by rw [putBit_bitcnt, toNat_succ h1]
    obtain ⟨ok, cnt, str⟩ := ih (putBit_ok hp b h1) (by omega)
    refine ⟨ok, ?_, ?_⟩
    · rw [putBits_cons, cnt, hc, List.length_cons]
      omega
    · rw [putBits_cons, str, putBit_stream hp b h1, List.append_assoc, List.singleton_append]

/-- The flushed bytes hold `ceil8(BITCNT)` bytes. -/
theorem length_bytes {cap : Option Nat} {p : Packer} (hp : p.Ok cap) : p.bytes.length = ceil8 p.bitcnt.toNat := by
  have := hp.wholeBytes
  unfold Packer.bytes ceil8
  split <;> simp_all

/-- The flushed bytes hold the stream. -/
theorem streamBit_bytes {cap : Option Nat} {p : Packer} (hp : p.Ok cap) (k : Nat) (hk : k < p.bitcnt.toNat) :
    streamBit p.bytes k = streamBit (p.buf ++ [p.part]) k := by
  have hw := hp.wholeBytes
  unfold Packer.bytes
  split
  · rfl
  · next h =>
    have hlt : k / 8 < p.buf.length := by omega
    simp [streamBit, List.getD_eq_getElem?_getD, List.getElem?_append_left hlt]

theorem bitRead_writeBytes {m : Memory} (hm : m.wf) (bs : List Byte) {k : Nat} (hk : k / 8 < bs.length) :
    (m.writeBytes 0 bs).bitRead k = streamBit bs k := by
  have := Memory.read_writeBytes_inside hm 0 bs hk
  rw [Nat.zero_add] at this
  rw [Memory.bitRead, this, streamBit, List.getD_eq_getElem _ _ hk]

/-- The stream is read back from the buffer the packer was flushed to. -/
theorem readBits_flushed {cap : Option Nat} {p : Packer} (hp : p.Ok cap) {m : Memory} (hm : m.wf) :
    (m.writeBytes 0 p.bytes).readBits 0 p.bitcnt.toNat = p.stream := by
  rw [Memory.readBits_eq_map, Packer.stream]
  refine List.map_congr_left fun k hk => ?_
  have hk := List.mem_range.1 hk
  have hl := length_bytes hp
  have : k / 8 < p.bytes.length := by
    rw [hl, ceil8_eq]
    omega
  rw [Nat.zero_add, bitRead_writeBytes hm _ this, streamBit_bytes hp k hk]

end Packer

/-- A byte is the sum of its bits. -/
theorem byte_eq_bits (b : Byte) : b = bitsByte ((List.range 8).map b.getLsbD) := by
  revert b
  decide +kernel

end Sys2Proof.Machine
end

