-- ==== Sys2Proof/Laws/Effects.lean ====
section
/-! SUPPORT. What each command does when it completes, said once: the state it makes, and the checks that passed. -/

namespace Sys2Proof.Machine

theorem State.inputTooLong_iff {s : State} : s.inputTooLong = true ↔ s.cfg.inCap < s.ilen.toNat := by
  simp [State.inputTooLong]

theorem State.not_inputTooLong {s : State} : ¬ s.inputTooLong = true ↔ s.ilen.toNat ≤ s.cfg.inCap := by
  simp [State.inputTooLong]

theorem ctLoad_ok {sym : Byte} {s u : State} (h : ctLoad sym s = .ok u) :
    s.clen.toNat ≤ 256
      ∧ u = { s with ct := tableSet s.ct sym (some { sym := sym, bits := stagedBits s.cbits s.clen.toNat }) } := by
  simp only [ctLoad, Config.maxCodeBits, raise_eq] at h
  split at h
  · cases h
  · cases h
    exact ⟨by omega, rfl⟩

/-- An append made: the two refusals of R123 did not apply. -/
theorem packBits_ok {s u : State} {n : Nat} {bits : List Bool} (h : packBits s n bits = .ok u) :
    s.pk.bitcnt.toNat + n < 2 ^ 64 ∧ overCap s.cfg.pbCap (ceil8 (s.pk.bitcnt.toNat + n)) = false
      ∧ u = { s with pk := s.pk.putBits bits } := by
  simp only [packBits, raise_eq] at h
  split at h
  · cases h
  · split at h
    · cases h
    · next h1 h2 =>
      cases h
      exact ⟨by omega, by simpa using h2, rfl⟩

theorem packBits_error {s : State} {n : Nat} {bits : List Bool} {f : Raised} (h : packBits s n bits = .error f) :
    s.pk.bitcnt.toNat + n ≥ 2 ^ 64 ∧ f = ⟨.overflow, 3⟩
      ∨ s.pk.bitcnt.toNat + n < 2 ^ 64 ∧ overCap s.cfg.pbCap (ceil8 (s.pk.bitcnt.toNat + n)) = true
        ∧ f = ⟨.capacity, 4⟩ := by
  simp only [packBits, raise_eq] at h
  split at h
  · cases h
    exact .inl ⟨‹_›, rfl⟩
  · split at h
    · next h1 h2 =>
      cases h
      exact .inr ⟨by omega, h2, rfl⟩
    · cases h

theorem pkAppend_ok {sym : Byte} {s u : State} (h : pkAppend sym s = .ok u) :
    ∃ c, tableGet s.ct sym = some c ∧ packBits s c.bits.length c.bits = .ok u := by
  unfold pkAppend at h
  split at h
  · cases h
  · next c hc => exact ⟨c, hc, h⟩

/-- The codes found are those of the bytes, in order. -/
theorem lookupCodes_ok {ct : Vector (Option BitSequence) Config.symbolCount} {i : Nat} {bs : List Byte} {codes : List (List Bool)}
    (h : lookupCodes ct i bs = .ok codes) :
    List.Forall₂ (fun b p => ∃ c, tableGet ct b = some c ∧ c.bits = p) bs codes := by
  induction bs generalizing i codes with
  | nil =>
    cases h
    exact .nil
  | cons b bs ih =>
    unfold lookupCodes at h
    split at h
    · cases h
    · next c hc =>
      split at h
      · next cs hcs =>
        cases h
        exact .cons ⟨c, hc, rfl⟩ (ih hcs)
      · cases h

/-- With a code for every byte they are all found. -/
theorem lookupCodes_total {ct : Vector (Option BitSequence) Config.symbolCount} {bs : List Byte}
    (h : ∀ b ∈ bs, tableGet ct b ≠ none) (i : Nat) : ∃ codes, lookupCodes ct i bs = .ok codes := by
  induction bs generalizing i with
  | nil => exact ⟨[], rfl⟩
  | cons b bs ih =>
    obtain ⟨cs, hcs⟩ := ih (fun x hx => h x (List.mem_cons_of_mem _ hx)) (i + 1)
    unfold lookupCodes
    split
    · next hb => exact absurd hb (h b List.mem_cons_self)
    · rw [hcs]
      exact ⟨_, rfl⟩

/-- The first byte without a code is the one reported. -/
theorem lookupCodes_missing {ct : Vector (Option BitSequence) Config.symbolCount} {pre post : List Byte} {b : Byte}
    (h : ∀ x ∈ pre, tableGet ct x ≠ none) (hb : tableGet ct b = none) (i : Nat) :
    lookupCodes ct i (pre ++ b :: post) = raise .missingCode (b.toNat ||| ((i + pre.length) <<< 8)) := by
  induction pre generalizing i with
  | nil => simp [lookupCodes, hb]
  | cons a pre ih =>
    obtain ⟨c, hc⟩ := Option.ne_none_iff_exists'.1 (h a List.mem_cons_self)
    rw [List.cons_append, lookupCodes, hc, ih (fun x hx => h x (List.mem_cons_of_mem _ hx)) (i + 1)]
    simp [Nat.add_assoc, Nat.add_comm 1]

theorem lookupCodes_error {ct : Vector (Option BitSequence) Config.symbolCount} {i : Nat} {bs : List Byte} {f : Raised}
    (h : lookupCodes ct i bs = .error f) : f.kind = .missingCode := by
  induction bs generalizing i with
  | nil => cases h
  | cons b bs ih =>
    unfold lookupCodes at h
    split at h
    · cases h
      rfl
    · split at h
      · cases h
      · next g hg =>
        cases h
        exact ih hg

theorem pkEncode_ok {s u : State} (h : pkEncode s = .ok u) :
    s.ilen.toNat ≤ s.cfg.inCap
      ∧ ∃ codes, lookupCodes s.ct 0 s.input = .ok codes ∧ packBits s (codes.map List.length).sum codes.flatten = .ok u := by
  simp only [pkEncode, raise_eq] at h
  split at h
  · cases h
  · next h1 =>
    split at h
    · cases h
    · next codes hc => exact ⟨State.not_inputTooLong.1 h1, codes, hc, h⟩

theorem fqCount_ok {s u : State} (h : fqCount s = .ok u) :
    s.ilen.toNat ≤ s.cfg.inCap ∧ (∀ sym, counted s.input (sym, tableGet s.freq sym) < 2 ^ 64)
      ∧ u = { s with freq := countedTable s.freq s.input } := by
  simp only [fqCount, raise_eq] at h
  split at h
  · cases h
  · split at h
    · cases h
    · next h1 h2 =>
      cases h
      refine ⟨State.not_inputTooLong.1 h1, fun sym => ?_, rfl⟩
      simp only [Bool.not_eq_true, List.any_eq_false, decide_eq_true_eq] at h2
      have := h2 (sym, tableGet s.freq sym) (tableEntries_eq s.freq ▸ List.mem_map.2 ⟨sym, mem_symbols sym, rfl⟩)
      omega

/-- An entry of a table given as a list. -/
theorem tableGet_mk {α : Type} (l : List α) (h : l.toArray.size = 256) (sym : Byte) (hl : sym.toNat < l.length) :
    tableGet ⟨⟨l⟩, h⟩ sym = l[sym.toNat] := rfl

/-- The counted table, entry by entry, when no count overflows (R141). -/
theorem tableGet_countedTable {freq : Vector DWord Config.symbolCount} {input : List Byte} {sym : Byte}
    (h : counted input (sym, tableGet freq sym) < 2 ^ 64) :
    (tableGet (countedTable freq input) sym).toNat = (tableGet freq sym).toNat + input.count sym := by
  have hl : sym.toNat < ((tableEntries freq).map fun e => BitVec.ofNat 64 (counted input e)).length := by
    simp [tableEntries, sym.isLt]
  rw [countedTable, tableGet_mk _ _ _ hl]
  simp only [List.getElem_map, tableEntries_eq, symbols, List.getElem_range, BitVec.ofNat_toNat, BitVec.setWidth_eq, BitVec.toNat_ofNat]
  rw [Nat.mod_eq_of_lt h]
  rfl

theorem trCodes_ok {s u : State} (h : trCodes s = .ok u) :
    ∃ t, s.tree = some t ∧ t.tooDeep = none ∧ u = { s with ct := writeCodes emptyCodes t.codes } := by
  simp only [trCodes, raise_eq] at h
  split at h
  · cases h
  · next t ht =>
    split at h
    · cases h
    · next hd =>
      cases h
      exact ⟨t, ht, hd, rfl⟩

theorem trSer_ok {s u : State} (h : trSer s = .ok u) :
    ∃ t, s.tree = some t ∧ u = { s with
      tbuf := s.tbuf.writeBytes 0 (t.listing.map Prod.fst)
      nodecnt := BitVec.ofNat 16 t.nodes
      sli := BitVec.ofInt 16 (t.emit { out := [], sli := -1 }).sli } := by
  simp only [trSer, raise_eq] at h
  split at h
  · cases h
  · next t ht =>
    cases h
    have e : (t.emit { out := [], sli := -1 }).out = t.listing.map Prod.fst := by simp [emit_out]
    refine ⟨t, ht, ?_⟩
    rw [e]
    simp

theorem trDeser_ok {s u : State} (h : trDeser s = .ok u) :
    0 ≤ s.nodecnt.toInt ∧ (s.sli.toInt < 0 ∨ s.sli.toInt < s.nodecnt.toInt)
      ∧ ∃ t, replay s.sli.toInt 0 [] (s.tbuf.readBytes 0 s.nodecnt.toInt.toNat) = .ok t
        ∧ u = { s with tree := some t } := by
  simp only [trDeser, raise_eq] at h
  split at h
  · cases h
  · split at h
    · cases h
    · next h1 h2 =>
      split at h
      · cases h
      · next t ht =>
        cases h
        exact ⟨by omega, by omega, t, ht, rfl⟩

theorem ckSum_ok {s u : State} (h : ckSum s = .ok u) :
    s.ilen.toNat ≤ s.cfg.inCap ∧ u = { s with cksum := checksum s.cfg.ck s.input } := by
  simp only [ckSum, raise_eq] at h
  split at h
  · cases h
  · next h1 =>
    cases h
    exact ⟨State.not_inputTooLong.1 h1, rfl⟩

theorem upDecode_ok {s u : State} (h : upDecode s = .ok u) :
    ∃ t, s.tree = some t ∧ overCap s.cfg.pbCap (ceil8 s.pbits.toNat) = false
      ∧ overCap s.cfg.outCap (walkBits t (s.pbuf.readBits 0 s.pbits.toNat)).out.length = false
      ∧ u = { s with
        obuf := s.obuf.writeBytes 0 (walkBits t (s.pbuf.readBits 0 s.pbits.toNat)).out
        olen := BitVec.ofNat 64 (walkBits t (s.pbuf.readBits 0 s.pbits.toNat)).out.length
        tail := (walkBits t (s.pbuf.readBits 0 s.pbits.toNat)).mid } := by
  simp only [upDecode, raise_eq] at h
  split at h
  · cases h
  · next t ht =>
    split at h
    · cases h
    · split at h
      · cases h
      · next h1 h2 =>
        cases h
        exact ⟨t, ht, by simpa using h1, by simpa using h2, rfl⟩

/-- What `CN.BUILD` writes: header, then content (R185). -/
def containerBytes (s : State) : List Byte :=
  leBytes 4 Config.magic.toNat ++ leBytes 4 (checksum s.cfg.ck (content s)).toNat ++ leBytes 8 (content s).length
    ++ content s

/-- The four writes of `CN.BUILD` are one. -/
theorem obuf_container (m : Memory) (c : Word) (body : List Byte) :
    (((m.writeLE 0 4 Config.magic.toNat).writeLE 4 4 c.toNat).writeLE 8 8 body.length).writeBytes
        Config.headerBytes body
      = m.writeBytes 0 (leBytes 4 Config.magic.toNat ++ leBytes 4 c.toNat ++ leBytes 8 body.length ++ body) := by
  simp only [Memory.writeLE, Memory.writeBytes_append, List.length_append, length_leBytes, Config.headerBytes]

@[simp] theorem length_content (s : State) :
    (content s).length = 12 + s.nodecnt.toInt.toNat + ceil8 s.pbits.toNat := by
  simp [content]
  omega

@[simp] theorem length_containerBytes (s : State) : (containerBytes s).length = 16 + (content s).length := by
  simp only [containerBytes, List.length_append, length_leBytes]

theorem cnBuild_ok {s u : State} (h : cnBuild s = .ok u) :
    0 ≤ s.nodecnt.toInt ∧ overCap s.cfg.pbCap (ceil8 s.pbits.toNat) = false
      ∧ overCap s.cfg.outCap (28 + s.nodecnt.toInt.toNat + ceil8 s.pbits.toNat) = false
      ∧ u = { s with
        obuf := s.obuf.writeBytes 0 (containerBytes s)
        olen := BitVec.ofNat 64 (16 + (content s).length)
        cksum := checksum s.cfg.ck (content s) } := by
  simp only [cnBuild, raise_eq] at h
  split at h
  · cases h
  · split at h
    · cases h
    · split at h
      · cases h
      · next h1 h2 h3 =>
        cases h
        refine ⟨by omega, by simpa using h2, by simpa [Config.minContainer] using h3, ?_⟩
        rw [obuf_container]
        rfl

/-- A region's checks passed (R188, checks (e) and (f)). -/
theorem parseRegion_ok {s u : State} {c : Word} {region : List Byte} (h : parseRegion s c region = .ok u) :
    ∃ (n x : Half) (k : Nat), n = BitVec.ofNat 16 (fieldOf region 0 2) ∧ x = BitVec.ofNat 16 (fieldOf region 2 2)
      ∧ k = fieldOf region (4 + n.toNat) 8 ∧ 0 ≤ n.toInt ∧ (x.toInt < 0 ∨ x.toInt < n.toInt)
      ∧ 12 + n.toNat + ceil8 k ≤ region.length ∧ overCap s.cfg.pbCap (ceil8 k) = false
      ∧ u = { s with
        nodecnt := n, sli := x, tbuf := s.tbuf.writeBytes 0 (slice region 4 n.toNat), pbits := BitVec.ofNat 64 k
        pbuf := s.pbuf.writeBytes 0 (slice region (12 + n.toNat) (ceil8 k)), cksum := c } := by
  simp only [parseRegion, raise_eq] at h
  split at h
  · cases h
  · split at h
    · cases h
    · split at h
      · cases h
      · split at h
        · cases h
        · split at h
          · cases h
          · split at h
            · cases h
            · next h1 h2 h3 h4 h5 h6 =>
              cases h
              exact ⟨_, _, _, rfl, rfl, rfl, by omega, by omega, by omega, by simpa using h6, rfl⟩

theorem cnParse_ok {s u : State} (h : cnParse s = .ok u) :
    s.ilen.toNat ≤ s.cfg.inCap ∧ 28 ≤ s.ilen.toNat ∧ s.ibuf.readLE 0 4 = Config.magic.toNat
      ∧ 16 + s.ibuf.readLE 8 8 ≤ s.ilen.toNat
      ∧ (checksum s.cfg.ck (s.ibuf.readBytes 16 (s.ibuf.readLE 8 8))).toNat = s.ibuf.readLE 4 4
      ∧ parseRegion s (checksum s.cfg.ck (s.ibuf.readBytes 16 (s.ibuf.readLE 8 8)))
          (s.ibuf.readBytes 16 (s.ibuf.readLE 8 8)) = .ok u := by
  simp only [cnParse, Config.minContainer, Config.headerBytes, raise_eq] at h
  split at h
  · cases h
  · split at h
    · cases h
    · split at h
      · cases h
      · split at h
        · cases h
        · split at h
          · cases h
          · next h1 h2 h3 h4 h5 =>
            refine ⟨State.not_inputTooLong.1 h1, by omega, by simpa using h3, by omega, by simpa using h5, h⟩

/-- The commands of `COMPRESS`, one after another (R230). -/
theorem compressChain_ok {s u : State} (h : compressChain s = .ok u) :
    ∃ a b c d e, fqCount (fqClr s) = .ok a ∧ trBuild a = .ok b ∧ trCodes b = .ok c ∧ pkEncode (pkRst c) = .ok d
      ∧ trSer (pkFlush d) = .ok e ∧ cnBuild e = .ok u := by
  unfold compressChain at h
  simp only [bind, Except.bind] at h
  repeat (split at h; · cases h)
  exact ⟨_, _, _, _, _, ‹_›, ‹_›, ‹_›, ‹_›, ‹_›, h⟩

/-- The commands of `DECOMPRESS`, one after another (R231). -/
theorem decompressChain_ok {s u : State} (h : decompressChain s = .ok u) :
    ∃ a b, cnParse s = .ok a ∧ trDeser a = .ok b ∧ upDecode b = .ok u := by
  unfold decompressChain at h
  simp only [bind, Except.bind] at h
  repeat (split at h; · cases h)
  exact ⟨_, _, ‹_›, ‹_›, h⟩

/-- The state `COMPRESS` writes on a non-empty input, and no more. -/
theorem compressChain_frame {s u : State} (h : compressChain s = .ok u) :
    ∃ p c f t n x tb pb pbf ck ob ol, u = { s with
      pk := p, ct := c, freq := f, tree := t, nodecnt := n, sli := x, tbuf := tb, pbits := pb, pbuf := pbf
      cksum := ck, obuf := ob, olen := ol } := by
  obtain ⟨a, b, c, d, e, h1, h2, h3, h4, h5, h6⟩ := compressChain_ok h
  obtain ⟨-, -, rfl⟩ := fqCount_ok h1
  obtain ⟨tr, rfl, -⟩ := trBuild_ok h2
  obtain ⟨_, -, -, rfl⟩ := trCodes_ok h3
  obtain ⟨-, _, -, h4⟩ := pkEncode_ok h4
  obtain ⟨-, -, rfl⟩ := packBits_ok h4
  obtain ⟨_, -, rfl⟩ := trSer_ok h5
  obtain ⟨-, -, -, rfl⟩ := cnBuild_ok h6
  exact ⟨_, _, _, _, _, _, _, _, _, _, _, _, rfl⟩

/-- The state `DECOMPRESS` writes on a non-empty input, and no more. -/
theorem decompressChain_frame {s u : State} (h : decompressChain s = .ok u) :
    ∃ t n x tb pb pbf ck ob ol ta, u = { s with
      tree := t, nodecnt := n, sli := x, tbuf := tb, pbits := pb, pbuf := pbf, cksum := ck, obuf := ob, olen := ol
      tail := ta } := by
  obtain ⟨a, b, h1, h2, h3⟩ := decompressChain_ok h
  obtain ⟨-, -, -, -, -, h1⟩ := cnParse_ok h1
  obtain ⟨_, _, _, _, _, _, _, _, _, _, rfl⟩ := parseRegion_ok h1
  obtain ⟨_, _, _, _, rfl⟩ := trDeser_ok h2
  obtain ⟨_, _, _, _, rfl⟩ := upDecode_ok h3
  exact ⟨_, _, _, _, _, _, _, _, _, _, rfl⟩

end Sys2Proof.Machine
end

