-- ==== Sys2Proof/Laws/Container.lean ====
section
/-! SUPPORT. A container read back: what `CN.PARSE` finds in the bytes `CN.BUILD` writes (spec/44_container.md R185 to R188). -/

namespace Sys2Proof.Machine

/-- A signed 16-bit field that is not negative is its pattern. -/
theorem Half.toInt_of_nonneg {n : Half} (h : 0 ≤ n.toInt) : n.toInt = (n.toNat : Int) ∧ n.toNat < 2 ^ 15 := by
  rw [BitVec.toInt_eq_toNat_cond] at *
  have := n.isLt
  split at * <;> omega

/-- A prefix of a buffer written over itself changes nothing. -/
theorem Memory.writeBytes_readBytes {m : Memory} (hm : m.wf) (n : Nat) : m.writeBytes 0 (m.readBytes 0 n) = m := by
  apply Memory.ext (Memory.wf_writeBytes hm _ _) hm
  intro a
  rw [Memory.read_writeBytes hm]
  simp only [Nat.zero_le, if_true, Nat.sub_zero]
  rw [List.getD_eq_getElem?_getD, Memory.getElem?_readBytes]
  split <;> simp

/-- On a container whose header is right for the content `c`, `CN.PARSE` comes to the content's own checks. -/
theorem cnParse_container {s : State} {c : List Byte} (hsize : s.ilen.toNat = 16 + c.length)
    (hcap : s.ilen.toNat ≤ s.cfg.inCap)
    (hbytes : s.ibuf.readBytes 0 (16 + c.length)
      = leBytes 4 Config.magic.toNat ++ leBytes 4 (checksum s.cfg.ck c).toNat ++ leBytes 8 c.length ++ c)
    (h12 : 12 ≤ c.length) : cnParse s = parseRegion s (checksum s.cfg.ck c) c := by
  have hl : c.length < 2 ^ 64 := by
    have := s.ilen.isLt
    omega
  have r0 := Memory.slice_readBytes s.ibuf 0 (16 + c.length) 0 4 (by omega)
  have r4 := Memory.slice_readBytes s.ibuf 0 (16 + c.length) 4 4 (by omega)
  have r8 := Memory.slice_readBytes s.ibuf 0 (16 + c.length) 8 8 (by omega)
  have r16 := Memory.slice_readBytes s.ibuf 0 (16 + c.length) 16 c.length (by omega)
  obtain ⟨mg, hm⟩ : ∃ mg, leBytes 4 Config.magic.toNat = mg := ⟨_, rfl⟩
  obtain ⟨ck, hk⟩ : ∃ ck, leBytes 4 (checksum s.cfg.ck c).toNat = ck := ⟨_, rfl⟩
  obtain ⟨ln, hn⟩ : ∃ ln, leBytes 8 c.length = ln := ⟨_, rfl⟩
  rw [hm, hk, hn] at hbytes
  have lm : mg.length = 4 := by rw [← hm, length_leBytes]
  have lk : ck.length = 4 := by rw [← hk, length_leBytes]
  have ll : ln.length = 8 := by rw [← hn, length_leBytes]
  rw [hbytes, slice_middle (a := 0) (pre := []) (mid := mg) (post := ck ++ (ln ++ c)) (by simp) rfl lm.symm] at r0
  rw [hbytes, slice_middle (pre := mg) (mid := ck) (post := ln ++ c) (by simp) lm.symm lk.symm] at r4
  rw [hbytes, slice_middle (pre := mg ++ ck) (mid := ln) (post := c) (by simp) (by simp [lm, lk]) ll.symm] at r8
  rw [hbytes, slice_middle (pre := mg ++ ck ++ ln) (mid := c) (post := []) (by simp) (by simp [lm, lk, ll]) rfl] at r16
  simp only [Nat.zero_add] at r0 r4 r8 r16
  have e0 : s.ibuf.readLE 0 4 = Config.magic.toNat := by
    rw [Memory.readLE, ← r0, ← hm, leValue_leBytes]
    rfl
  have e4 : s.ibuf.readLE 4 4 = (checksum s.cfg.ck c).toNat := by
    rw [Memory.readLE, ← r4, ← hk, leValue_leBytes]
    exact Nat.mod_eq_of_lt (checksum s.cfg.ck c).isLt
  have e8 : s.ibuf.readLE 8 8 = c.length := by
    rw [Memory.readLE, ← r8, ← hn, leValue_leBytes]
    exact Nat.mod_eq_of_lt hl
  unfold cnParse
  simp only [Config.minContainer, Config.headerBytes]
  rw [if_neg (State.not_inputTooLong.2 hcap), if_neg (by omega), e0, if_neg (by simp), e8, if_neg (by omega), ← r16,
    e4, if_neg (by simp)]

/-- The content's own checks pass on the content of records that are in range, and its records come out. -/
theorem parseRegion_content {s : State} (r : State) (c : Word)
    (hcap : overCap r.cfg.pbCap (ceil8 s.pbits.toNat) = false) (hn : 0 ≤ s.nodecnt.toInt)
    (hx : s.sli.toInt < 0 ∨ s.sli.toInt < s.nodecnt.toInt) :
    parseRegion r c (content s) = .ok { r with
      nodecnt := s.nodecnt, sli := s.sli, tbuf := r.tbuf.writeBytes 0 (s.tbuf.readBytes 0 s.nodecnt.toNat)
      pbits := s.pbits, pbuf := r.pbuf.writeBytes 0 (s.pbuf.readBytes 0 (ceil8 s.pbits.toNat)), cksum := c } := by
  have hnn := Half.toInt_of_nonneg hn
  have hn' : s.nodecnt.toInt.toNat = s.nodecnt.toNat := by omega
  have l := length_content s
  rw [hn'] at l
  have e : content s = leBytes 2 s.nodecnt.toNat ++ leBytes 2 s.sli.toNat ++ s.tbuf.readBytes 0 s.nodecnt.toNat
      ++ leBytes 8 s.pbits.toNat ++ s.pbuf.readBytes 0 (ceil8 s.pbits.toNat) := by rw [content, hn']
  have lc : (s.tbuf.readBytes 0 s.nodecnt.toNat).length = s.nodecnt.toNat := Memory.length_readBytes _ _ _
  have le : (s.pbuf.readBytes 0 (ceil8 s.pbits.toNat)).length = ceil8 s.pbits.toNat := Memory.length_readBytes _ _ _
  have la : (leBytes 2 s.nodecnt.toNat).length = 2 := length_leBytes _ _
  have lb : (leBytes 2 s.sli.toNat).length = 2 := length_leBytes _ _
  have ld : (leBytes 8 s.pbits.toNat).length = 8 := length_leBytes _ _
  have va : leValue (leBytes 2 s.nodecnt.toNat) = s.nodecnt.toNat := by
    rw [leValue_leBytes]
    exact Nat.mod_eq_of_lt s.nodecnt.isLt
  have vb : leValue (leBytes 2 s.sli.toNat) = s.sli.toNat := by
    rw [leValue_leBytes]
    exact Nat.mod_eq_of_lt s.sli.isLt
  have vd : leValue (leBytes 8 s.pbits.toNat) = s.pbits.toNat := by
    rw [leValue_leBytes]
    exact Nat.mod_eq_of_lt s.pbits.isLt
  generalize leBytes 2 s.nodecnt.toNat = A at *
  generalize leBytes 2 s.sli.toNat = B at *
  generalize s.tbuf.readBytes 0 s.nodecnt.toNat = C at *
  generalize leBytes 8 s.pbits.toNat = D at *
  generalize s.pbuf.readBytes 0 (ceil8 s.pbits.toNat) = E at *
  have p0 : slice (content s) 0 2 = A :=
    slice_middle (pre := []) (mid := A) (post := B ++ (C ++ (D ++ E))) (by simp [e]) rfl la.symm
  have p2 : slice (content s) 2 2 = B :=
    slice_middle (pre := A) (mid := B) (post := C ++ (D ++ E)) (by simp [e]) la.symm lb.symm
  have f4 : slice (content s) 4 s.nodecnt.toNat = C :=
    slice_middle (pre := A ++ B) (mid := C) (post := D ++ E) (by simp [e]) (by simp [la, lb]) lc.symm
  have pk : slice (content s) (4 + s.nodecnt.toNat) 8 = D :=
    slice_middle (pre := A ++ B ++ C) (mid := D) (post := E) (by simp [e]) (by simp [la, lb, lc]; omega) ld.symm
  have fp : slice (content s) (12 + s.nodecnt.toNat) (ceil8 s.pbits.toNat) = E :=
    slice_middle (pre := A ++ B ++ C ++ D) (mid := E) (post := []) (by simp [e]) (by simp [la, lb, lc, ld]; omega)
      le.symm
  have f0 : fieldOf (content s) 0 2 = s.nodecnt.toNat := by rw [fieldOf, p0, va]
  have f2 : fieldOf (content s) 2 2 = s.sli.toNat := by rw [fieldOf, p2, vb]
  have fk : fieldOf (content s) (4 + s.nodecnt.toNat) 8 = s.pbits.toNat := by rw [fieldOf, pk, vd]
  have e1 : BitVec.ofNat 16 s.nodecnt.toNat = s.nodecnt := by simp
  have e2 : BitVec.ofNat 16 s.sli.toNat = s.sli := by simp
  have e3 : BitVec.ofNat 64 s.pbits.toNat = s.pbits := by simp
  unfold parseRegion
  simp only [f0, f2, l, e1, e2, fk, e3, f4, fp]
  rw [if_neg (by omega), if_neg (by omega), if_neg (by omega), if_neg (by omega), if_neg (by omega), if_neg (by simp [hcap])]

end Sys2Proof.Machine
end

