-- ==== Sys2Proof/Laws/Encoding.lean ====
section
/-! SUPPORT. A command word and its three fields say the same (spec/30_encoding.md R81). -/

namespace Sys2Proof

@[simp] theorem wordOf_fieldsOf (w : Word) : wordOf (fieldsOf w) = w := by
  apply BitVec.eq_of_getElem_eq
  intro i hi
  simp only [wordOf, fieldsOf]
  rw [BitVec.getElem_append]
  by_cases h : i < 8
  · simp [h, hi]
  · simp only [h, ↓reduceDIte]
    rw [BitVec.getElem_append]
    by_cases h2 : i - 8 < 8
    · simp [h2, hi, show 8 + (i - 8) = i by omega]
    · simp [h2, hi, show 16 + (i - 8 - 8) = i by omega]

@[simp] theorem fieldsOf_wordOf (f : CommandFields) : fieldsOf (wordOf f) = f := by
  obtain ⟨a, b, c⟩ := f
  simp only [fieldsOf, wordOf, CommandFields.mk.injEq]
  have whole : ∀ i, (wordOf ⟨a, b, c⟩).getLsbD i
      = if i < 8 then a.getLsbD i else if i - 8 < 8 then b.getLsbD (i - 8) else c.getLsbD (i - 8 - 8) := by
    intro i
    change BitVec.getLsbD (w := 16 + 8 + 8) ((c ++ b) ++ a) i = _
    rw [BitVec.getLsbD_append, BitVec.getLsbD_append]
  simp only [wordOf] at whole
  refine ⟨?_, ?_, ?_⟩ <;> apply BitVec.eq_of_getElem_eq <;> intro i hi <;>
    rw [BitVec.getElem_extractLsb', whole]
  · simp [hi]
  · simp [hi]
  · simp [hi, show ¬ 16 + i < 8 by omega, show ¬ 16 + i - 8 < 8 by omega, show 16 + i - 8 - 8 = i by omega]

/-- A word is the word of a command exactly when its fields are the command's. -/
theorem encode_eq_iff {i : Instr} {w : Word} : encode i = w ↔ fieldsOf w = i.fields := by
  constructor
  · rintro rfl
    exact fieldsOf_wordOf _
  · intro h
    rw [encode, ← h, wordOf_fieldsOf]

/-- Each command's fields decode to it. -/
theorem decodeFields_fields (i : Instr) : decodeFields i.fields = .ok i := by
  cases i <;> rfl

end Sys2Proof
end

