-- ==== Sys2Proof/Laws/Replay.lean ====
section
/-! SUPPORT. The replay of a tree record by the heights of its stack (spec/43_tree_codec.md R165, R167), and serialising then
replaying a tree: what `TR.SER` and `TR.DESER` do, said once. -/

namespace Sys2Proof.Machine

open HuffmanTree

/-- Where no marker of the record underflows, the replay runs to the end, and the stack it ends with is as high as the bytes say. -/
theorem replay_heights (x : Int) : ∀ (bs : List Byte) (i : Nat) (stack : List HuffmanTree),
    (∀ j, (∃ b, (markedBytes x i bs)[j]? = some (b, false)) → ¬ (stack.length + stackHeight (markedBytes x i bs) j < 2)) →
    ∃ st, replay x i stack bs = replayEnd st ∧ (st.length : Int) = stack.length + stackHeight (markedBytes x i bs) bs.length := by
  intro bs
  induction bs with
  | nil => intro i stack _; exact ⟨stack, rfl, by simp [stackHeight]⟩
  | cons b bs ih =>
    intro i stack h
    by_cases hm : b = Config.sentinel ∧ (i : Int) ≠ x
    · have h0 := h 0 ⟨b, by simp [markedBytes, hm]⟩
      simp [stackHeight] at h0
      rcases stack with _ | ⟨r, _ | ⟨l, rest⟩⟩
      · simp at h0
      · simp at h0
      · rw [replay_marker hm]
        obtain ⟨st, h1, h2⟩ := ih (i+1) (.node 0 l r :: rest) (by
          intro j hj
          have := h (j+1) (by simpa [markedBytes] using hj)
          simp [stackHeight, markedBytes, hm] at this ⊢
          omega)
        refine ⟨st, h1, ?_⟩
        rw [h2]
        simp [stackHeight, markedBytes, hm]
        try omega
    · rw [replay_byte hm]
      obtain ⟨st, h1, h2⟩ := ih (i+1) (.leaf b 0 :: stack) (by
          intro j hj
          have := h (j+1) (by simpa [markedBytes] using hj)
          simp [stackHeight, markedBytes, hm] at this ⊢
          omega)
      refine ⟨st, h1, ?_⟩
      rw [h2]
      simp [stackHeight, markedBytes, hm]
      try omega

/-- The first marker that underflows is the one the replay stops at. -/
theorem replay_stops (x : Int) : ∀ (j : Nat) (bs : List Byte) (i : Nat) (stack : List HuffmanTree),
    (∃ b, (markedBytes x i bs)[j]? = some (b, false)) → (stack.length + stackHeight (markedBytes x i bs) j < 2) →
    (∀ k < j, (∃ b, (markedBytes x i bs)[k]? = some (b, false)) → ¬ (stack.length + stackHeight (markedBytes x i bs) k < 2)) →
    replay x i stack bs = raise .stackUnderflow (i + j) := by
  intro j
  induction j with
  | zero =>
    rintro (_ | ⟨b, bs⟩) i stack ⟨b', hb⟩ h1 _
    · simp [markedBytes] at hb
    · simp [markedBytes] at hb
      simp [stackHeight] at h1
      have hb : b = Config.sentinel ∧ (i:Int) ≠ x := by tauto
      exact replay_underflow hb (by omega) bs
  | succ j ih =>
    rintro (_ | ⟨b, bs⟩) i stack ⟨b', hb⟩ h1 h
    · simp [markedBytes] at hb
    · by_cases hm : b = Config.sentinel ∧ (i : Int) ≠ x
      · have h0 := h 0 (by omega) ⟨b, by simp [markedBytes, hm]⟩
        simp [stackHeight] at h0
        rcases stack with _ | ⟨r, _ | ⟨l, rest⟩⟩
        · simp at h0
        · simp at h0
        · rw [replay_marker hm, ih bs (i+1) _ ⟨b', by simpa [markedBytes] using hb⟩ (by
            simp [stackHeight, markedBytes, hm] at h1 ⊢; omega) (by
            intro k hk hj
            have := h (k+1) (by omega) (by simpa [markedBytes] using hj)
            simp [stackHeight, markedBytes, hm] at this ⊢
            omega), show i + 1 + j = i + (j+1) by omega]
      · rw [replay_byte hm, ih bs (i+1) _ ⟨b', by simpa [markedBytes] using hb⟩ (by
            simp [stackHeight, markedBytes, hm] at h1 ⊢; omega) (by
            intro k hk hj
            have := h (k+1) (by omega) (by simpa [markedBytes] using hj)
            simp [stackHeight, markedBytes, hm] at this ⊢
            omega), show i + 1 + j = i + (j+1) by omega]

/-- `TR.SER` on a legal tree completes, and its record marks the tree's listing. -/
theorem trSer_total {s : State} {tr} (hwf : s.tbuf.wf) (ht : s.tree = some tr) (hok : tr.Ok) :
    ∃ u, trSer s = .ok u ∧ u.tree = some tr ∧ u.nodecnt.toInt = tr.nodes ∧ u.tbuf.readBytes 0 tr.nodes = tr.listing.map Prod.fst
     ∧ markedBytes u.sli.toInt 0 (tr.listing.map Prod.fst) = tr.listing ∧ (u.sli.toInt < 0 ∨ u.sli.toInt < u.nodecnt.toInt) := by
  obtain ⟨u, hu⟩ : ∃ u, trSer s = .ok u := by rw [trSer, ht]; exact ⟨_, rfl⟩
  obtain ⟨tr', ht', rfl⟩ := trSer_ok hu
  rw [ht] at ht'; cases ht'
  refine ⟨_, hu, ht, ?_⟩
  have hsmall := hok.small
  simp only [Config.nodeCap] at hsmall
  obtain ⟨h1, h2⟩ := marked_emit tr { out := [], sli := -1 } hok.oneZero (by decide)
  generalize hx : (tr.emit { out := [], sli := -1 }).sli = x at *
  simp only [List.length_nil] at h1 h2
  have hx1 : (BitVec.ofInt 16 x).toInt = x := by
    rw [BitVec.toInt_ofInt]
    have : -1 ≤ x ∧ x < 32768 := by omega
    rw [Int.bmod_eq_of_le (by omega) (by omega)]
  have hn : (BitVec.ofNat 16 tr.nodes).toInt = tr.nodes := by
    rw [BitVec.toInt_ofNat', Int.bmod_eq_of_le (by omega) (by omega)]
  refine ⟨hn, ?_, ?_, ?_⟩
  · simpa using Memory.readBytes_writeBytes hwf 0 (tr.listing.map Prod.fst)
  · simp only [hx1]; exact h1
  · simp only [hx1, hn]; omega

/-- `TR.DESER` on a record that marks a tree's listing holds that tree with weights 0. -/
theorem trDeser_listing {s : State} {tr : HuffmanTree} (hn : s.nodecnt.toInt = tr.nodes) (hx : s.sli.toInt < 0 ∨ s.sli.toInt < s.nodecnt.toInt)
    (hb : markedBytes s.sli.toInt 0 (s.tbuf.readBytes 0 tr.nodes) = tr.listing) :
    trDeser s = .ok { s with tree := some tr.unweighted } := by
  unfold trDeser
  dsimp only
  rw [if_neg (by omega), if_neg (by omega), hn]
  have := replay_listing s.sli.toInt tr 0 [] (s.tbuf.readBytes 0 tr.nodes) [] hb
  rw [List.append_nil] at this
  simp only [Int.toNat_natCast]
  rw [this, replay]; rfl

/-- Only the special leaf index marks a `0x00` as a leaf, so a record has at most one. -/
theorem count_sentinel_marked (x : Int) (i : Nat) (bs : List Byte) :
    (((markedBytes x i bs).filter (·.2)).map Prod.fst).count Config.sentinel ≤ if (i:Int) ≤ x then 1 else 0 := by
  induction bs generalizing i with
  | nil => simp [markedBytes]
  | cons b bs ih =>
    have := ih (i+1)
    simp only [markedBytes]
    by_cases hb : b = Config.sentinel
    · by_cases hi : (i : Int) = x
      · simp [hb, hi] at *; omega
      · simp [hb, hi] at *; split <;> split at this <;> omega
    · simp [hb] at *; split <;> split at this <;> omega

/-- A built tree is a legal tree value. -/
theorem BuiltFrom.ok {fq tr} (built : BuiltFrom fq tr) : HuffmanTree.Ok tr := by
  have := built.nodes_le
  exact ⟨by simp only [Config.nodeCap]; omega, (List.nodup_iff_count_le_one.1 built.keys_nodup _), built.weightsAdd⟩

/-- A replayed tree is a legal tree value. -/
theorem ok_of_replay {s : State} {tr} (hn : 0 ≤ s.nodecnt.toInt) (hr : replay s.sli.toInt 0 [] (s.tbuf.readBytes 0 s.nodecnt.toInt.toNat) = .ok tr) :
    HuffmanTree.Ok tr := by
    obtain ⟨h5, h6⟩ := replay_ok hr (by simp)
    simp only [List.reverse_nil, List.flatMap_nil, List.nil_append] at h5
    have hlen := congrArg List.length h5
    simp at hlen
    have hnn := Half.toInt_of_nonneg hn
    have hcount : tr.keys.count Config.sentinel ≤ 1 := by
      rw [← listing_leaf_keys, h5]
      refine (count_sentinel_marked _ _ _).trans ?_
      split <;> omega
    exact ⟨by simp only [Config.nodeCap]; omega, hcount, by rw [← h6]; exact weightsAdd_unweighted tr⟩

/-- The table of codes no longer than 256 bits meets the code table's invariant. -/
theorem codesOk_writeCodes {tr : HuffmanTree} (h : tr.tooDeep = none) : CodesOk (writeCodes emptyCodes tr.codes) := by
  intro k c hc
  rcases tableGet_writeCodes_cases emptyCodes tr.codes k with h' | ⟨p, hp, h'⟩
  · rw [h'] at hc; simp at hc
  · rw [h'] at hc; cases hc
    refine ⟨rfl, ?_⟩
    cases tr with
    | leaf => simp [codes] at hp; simp [hp, Config.maxCodeBits]
    | node w l r =>
      unfold tooDeep at h
      rw [List.find?_eq_none] at h
      have := h _ hp
      simpa using this

end Sys2Proof.Machine
end

