-- ==== Sys2Proof/Laws/Unpack.lean ====
section
/-! SUPPORT. Reading a bit stream along a tree (spec/45_unpacker.md R211 to R214): every stream has a reading, and the unpacker's walk
gives it; and the codes of a tree are read back as its keys (R217). -/

namespace Sys2Proof.Machine

open HuffmanTree

/-- A stream either begins with a whole code or ends inside one. -/
theorem keyAt_prefix_or_inside (t : HuffmanTree) (bits : List Bool) :
    (∃ p q k, bits = p ++ q ∧ t.keyAt p = some k) ∨ ∃ w l r, t.follow bits = some (node w l r) := by
  induction t generalizing bits with
  | leaf k w => exact .inl ⟨[], bits, k, rfl, rfl⟩
  | node w l r ihl ihr =>
    cases bits with
    | nil => exact .inr ⟨w, l, r, rfl⟩
    | cons b bits =>
      cases b with
      | false =>
        rcases ihl bits with ⟨p, q, k, rfl, h⟩ | ⟨w', l', r', h⟩
        · exact .inl ⟨false :: p, q, k, rfl, by simpa using h⟩
        · exact .inr ⟨w', l', r', by simpa using h⟩
      | true =>
        rcases ihr bits with ⟨p, q, k, rfl, h⟩ | ⟨w', l', r', h⟩
        · exact .inl ⟨true :: p, q, k, rfl, by simpa using h⟩
        · exact .inr ⟨w', l', r', by simpa using h⟩

/-- Every stream can be read along any tree. -/
theorem reads_exists (t : HuffmanTree) (bits : List Bool) : ∃ ks rest, Reads t bits ks rest := by
  cases t with
  | leaf k w => exact ⟨_, _, rfl, rfl⟩
  | node w l r =>
    induction hn : bits.length using Nat.strongRecOn generalizing bits with
    | _ n ih =>
      rcases keyAt_prefix_or_inside (node w l r) bits with ⟨p, q, k, rfl, h⟩ | h
      · have hp : p ≠ [] := by rintro rfl; simp at h
        have := List.length_pos_iff.2 hp
        obtain ⟨ks, rest, codes, rfl, hc, hr⟩ := ih q.length (by simp at hn; omega) q rfl
        exact ⟨k :: ks, rest, p :: codes, by simp, .cons h hc, hr⟩
      · exact ⟨[], bits, [], rfl, .nil, h⟩

/-- The unpacker's walk gives the reading: its keys, and whether an unfinished code is left. -/
theorem walk_reads {t : HuffmanTree} {bits ks rest} (h : Reads t bits ks rest) :
    (walkBits t bits).out = ks ∧ (walkBits t bits).mid = !rest.isEmpty := by
  cases t with
  | leaf k w =>
    obtain ⟨rfl, rfl⟩ := h
    rw [walkBits, walk_leaf_root]; simp
  | node w l r =>
    obtain ⟨codes, rfl, hc, w', l', r', hr⟩ := h
    rw [walkBits, List.foldl_append, walk_codes hc, walk_inside hr]; simp

/-- A reading has at most one key a bit. -/
theorem Reads.length_le {w : HuffmanTree} {bits ks rest} (h : Reads w bits ks rest) : ks.length ≤ bits.length := by
  rw [← (walk_reads h).1]; exact length_walkBits_out _ _

/-- The table derived from a tree with distinct keys holds each key's code. -/
theorem tableGet_codes {tr : HuffmanTree} (hnd : tr.keys.Nodup) {k : Byte} (hk : k ∈ tr.keys) :
    ∃ p, tableGet (writeCodes emptyCodes tr.codes) k = some ⟨k, p⟩ ∧ (k, p) ∈ tr.codes := by
  have e : (tr.codes).map Prod.fst = tr.keys := by
    cases tr with
    | leaf => rfl
    | node w l r => simp only [codes, walk_map_fst]
  obtain ⟨⟨k', p⟩, hm, rfl⟩ := List.mem_map.1 (e ▸ hk)
  exact ⟨p, tableGet_writeCodes (e ▸ hnd) hm, hm⟩

/-- The codes of a byte sequence read back as that sequence, along the tree they come from or one of the same shape. -/
theorem reads_codeBits {tr dec : HuffmanTree} (hnd : tr.keys.Nodup) (hd : dec.unweighted = tr.unweighted) (bs : List Byte) (hb : ∀ d ∈ bs, d ∈ tr.keys) :
   Reads dec (codeBits (writeCodes emptyCodes tr.codes) bs) bs [] := by
  cases tr with
  | leaf k w =>
    cases dec with
    | node => simp [unweighted] at hd
    | leaf j w' =>
      simp [unweighted] at hd; subst hd
      have : ∀ d ∈ bs, d = j := by intro d hd; simpa using hb d hd
      have e : codeBits (writeCodes emptyCodes (leaf j w).codes) bs = List.replicate bs.length false := by
        have ht : tableGet (writeCodes emptyCodes (leaf j w).codes) j = some ⟨j, [false]⟩ := tableGet_writeCodes (by simp [codes]) (by simp [codes])
        rw [codeBits]
        clear hb
        induction bs with
        | nil => rfl
        | cons b bs ih =>
          have hb := this b List.mem_cons_self
          subst hb
          rw [List.flatMap_cons, ht, ih (fun d hd => this d (List.mem_cons_of_mem _ hd)), List.length_cons, List.replicate_succ]; rfl
      rw [e]
      exact ⟨by simpa using List.eq_replicate_of_mem this, rfl⟩
  | node w l r =>
    cases dec with
    | leaf => simp [unweighted] at hd
    | node w' l' r' =>
      refine ⟨bs.map fun d => match tableGet (writeCodes emptyCodes (node w l r).codes) d with | some c => c.bits | none => [], ?_, ?_, w', l', r', rfl⟩
      · exact List.flatMap_def.trans (List.append_nil _).symm
      · rw [List.forall₂_map_left_iff]
        apply List.forall₂_same.2
        intro d hm
        obtain ⟨p, h1, h2⟩ := tableGet_codes hnd (hb d hm)
        rw [h1]
        obtain ⟨q, hq, hk⟩ := mem_walk.1 (show (d, p) ∈ walk _ [] from h2)
        have hq : p = q := hq
        subst hq
        rw [← keyAt_unweighted, hd, keyAt_unweighted]; exact hk

/-- What `lookupCodes` answers, joined, is the bits of the codes. -/
theorem flatten_codes {ct : Vector (Option BitSequence) Config.symbolCount} {bs : List Byte} {codes : List (List Bool)}
    (h : List.Forall₂ (fun b p => ∃ c, tableGet ct b = some c ∧ c.bits = p) bs codes) :
    codes.flatten = codeBits ct bs ∧ (codes.map List.length).sum = codes.flatten.length := by
  refine ⟨?_, by simp [List.length_flatten]⟩
  induction h with
  | nil => rfl
  | cons h t ih =>
    obtain ⟨c, h1, h2⟩ := h
    simp [codeBits, h1, h2, ih]

end Sys2Proof.Machine
end

