-- ==== Sys2Proof/Laws/Entry.lean ====
section
/-! SUPPORT. The chain of commands behind `COMPRESS` (spec/46_entry_points.md R230): what it computes when it completes, and that it
completes when the buffers are large enough. -/

namespace Sys2Proof.Machine

open HuffmanTree

/-- The counts of all symbols add up to the length. -/
theorem sum_counts (l : List Byte) : (symbols.map fun y => l.count y).sum = l.length := by
  have gen : ∀ (ys : List Byte), ys.Nodup → (∀ x ∈ l, x ∈ ys) → (ys.map fun y => l.count y).sum = l.length := by
    induction l with
    | nil => intro ys _ _; simp
    | cons x l ih =>
      intro ys hn hm
      have := ih ys hn (fun y hy => hm y (List.mem_cons_of_mem _ hy))
      rw [List.length_cons, ← this]
      have hx := hm x List.mem_cons_self
      clear this ih hm
      induction ys with
      | nil => cases hx
      | cons y ys ih2 =>
        simp only [List.map_cons, List.sum_cons]
        by_cases h : y = x
        · subst h
          have : (ys.map fun z => (y :: l).count z) = ys.map fun z => l.count z := by
            apply List.map_congr_left
            intro z hz
            have : z ≠ y := by rintro rfl; exact (List.nodup_cons.1 hn).1 hz
            simp [this.symm]
          rw [this]; simp; omega
        · have h2 : x ∈ ys := by rcases List.mem_cons.1 hx with h' | h'; exact absurd h'.symm h; exact h'
          rw [ih2 (List.nodup_cons.1 hn).2 h2]
          simp [Ne.symm h]; omega
  exact gen symbols nodup_symbols (fun x _ => mem_symbols x)

/-- What a completed compression has computed: the tree built from the input's counts, and the bits of its codes. -/
structure ChainFacts (s : State) where
  tr : HuffmanTree
  fq : Vector DWord Config.symbolCount
  counts : ∀ y, (tableGet fq y).toNat = s.input.count y
  built : BuiltFrom fq tr
  bits : List Bool
  hbits : bits = codeBits (writeCodes emptyCodes tr.codes) s.input
  small : bits.length < 2^64
  fits : overCap s.cfg.pbCap (ceil8 bits.length) = false

/-- The keys of the tree built from an input's counts are the input's bytes. -/
theorem mem_input_iff {s : State} {fq tr} (counts : ∀ y, (tableGet fq y).toNat = s.input.count y) (built : BuiltFrom fq tr) :
    ∀ y, y ∈ s.input ↔ y ∈ tr.keys := by
  intro y
  rw [built.keys_perm.mem_iff, mem_presentSymbols, ← List.count_pos_iff, ← counts]
  constructor
  · intro h e; rw [e] at h; simp at h
  · intro h; rcases Nat.eq_zero_or_pos (tableGet fq y).toNat with e | e
    · exact absurd (BitVec.eq_of_toNat_eq e) h
    · exact e

/-- The state `CN.BUILD` is given. -/
def serialised (s : State) (tr : HuffmanTree) (fq : Vector DWord Config.symbolCount) (bits : List Bool) : State :=
  { s with
      freq := fq, tree := some tr, ct := writeCodes emptyCodes tr.codes, pk := Packer.fresh.putBits bits
      pbuf := s.pbuf.writeBytes 0 (Packer.fresh.putBits bits).bytes
      pbits := (Packer.fresh.putBits bits).bitcnt
      tbuf := s.tbuf.writeBytes 0 (tr.listing.map Prod.fst)
      nodecnt := BitVec.ofNat 16 tr.nodes
      sli := BitVec.ofInt 16 (tr.emit { out := [], sli := -1 }).sli  }

/-- A completed chain has these facts, and ends with `CN.BUILD` on them. -/
theorem compressChain_facts {s u : State} (h : compressChain s = .ok u) :
    ∃ f : ChainFacts s, cnBuild (serialised s f.tr f.fq f.bits) = .ok u ∧ s.ilen.toNat ≤ s.cfg.inCap := by
  obtain ⟨a, b, c, d, e, h1, h2, h3, h4, h5, h6⟩ := compressChain_ok h
  obtain ⟨hil, hc, rfl⟩ := fqCount_ok h1
  obtain ⟨tr, rfl, hb⟩ := trBuild_ok h2
  obtain ⟨_, ht, hd, rfl⟩ := trCodes_ok h3
  cases ht
  obtain ⟨-, codes, hl, h4⟩ := pkEncode_ok h4
  obtain ⟨hp1, hp2, rfl⟩ := packBits_ok h4
  obtain ⟨_, ht, rfl⟩ := trSer_ok h5
  cases ht
  obtain ⟨e1, e2⟩ := flatten_codes (lookupCodes_ok hl)
  rw [e2] at hp1 hp2
  have hp1 : 0 + codes.flatten.length < 2^64 := hp1
  have hp2 : overCap s.cfg.pbCap (ceil8 (0 + codes.flatten.length)) = false := hp2
  rw [Nat.zero_add] at hp1 hp2
  refine ⟨⟨tr, _, ?_, hb, codes.flatten, ?_, hp1, hp2⟩, h6, hil⟩
  · intro y
    have := tableGet_countedTable (hc y)
    rw [this]
    have e : (tableGet (fqClr s).freq y).toNat = 0 := by rw [show (fqClr s).freq = zeroCounts from rfl, tableGet_zeroCounts]; rfl
    rw [e, Nat.zero_add]; rfl
  · exact e1

/-- A code of a built tree has at most 255 bits. -/
theorem BuiltFrom.code_length_le {tr : HuffmanTree} {fq} (hb : BuiltFrom fq tr) {y c} (h : tableGet (writeCodes emptyCodes tr.codes) y = some c) :
    c.bits.length ≤ 255 := by
  rcases tableGet_writeCodes_cases emptyCodes tr.codes y with h' | ⟨p, hp, h'⟩
  · rw [h'] at h; simp at h
  · rw [h'] at h; cases h
    cases tr with
    | leaf => simp [codes] at hp; simp [hp]
    | node w l r =>
      obtain ⟨r', hr, hk⟩ := mem_walk.1 (show (y, p) ∈ walk _ [] from hp)
      have hr : p = r' := hr
      subst hr
      exact (keyAt_length_le hk).trans hb.depth_le

/-- Codes of at most 255 bits make a stream of at most 255 bits a byte. -/
theorem length_codeBits_le {ct : Vector (Option BitSequence) Config.symbolCount} (h : ∀ y c, tableGet ct y = some c → c.bits.length ≤ 255) (l : List Byte) :
    (codeBits ct l).length ≤ 255 * l.length := by
  induction l with
  | nil => simp [codeBits]
  | cons b l ih =>
    have e : codeBits ct (b :: l) = codeBits ct [b] ++ codeBits ct l := by simp [codeBits]
    have : (codeBits ct [b]).length ≤ 255 := by
      cases hb : tableGet ct b with
      | none => simp [codeBits, hb]
      | some c => simpa [codeBits, hb] using h b c hb
    rw [e, List.length_append, List.length_cons]
    omega

/-- The chain completes when the payload and the output have room for 255 bits a byte and 511 nodes. -/
theorem compressChain_total {s : State} (hr : s.cfg.InRange) (h1 : 0 < s.ilen.toNat) (h2 : s.ilen.toNat ≤ s.cfg.inCap)
    (hp : overCap s.cfg.pbCap (32 * s.ilen.toNat) = false) (ho : overCap s.cfg.outCap (539 + 32 * s.ilen.toNat) = false) : ∃ u, compressChain s = .ok u := by
  have hil : s.input.length = s.ilen.toNat := by simp [State.input]
  have hr2 := hr.2
  have hz : ∀ y, (tableGet (fqClr s).freq y).toNat = 0 := by intro y; rw [show (fqClr s).freq = zeroCounts from rfl, tableGet_zeroCounts]; rfl
  have hcw : ∀ y, counted (fqClr s).input (y, tableGet (fqClr s).freq y) = s.input.count y := by
    intro y; rw [counted, hz, Nat.zero_add]; rfl
  have hlt : ∀ y, s.input.count y < 2^64 := by
    intro y; have := List.count_le_length (a := y) (l := s.input); omega
  have ha : fqCount (fqClr s) = .ok { fqClr s with freq := countedTable (fqClr s).freq (fqClr s).input } := by
    rw [fqCount, if_neg (show ¬ (fqClr s).inputTooLong = true from State.not_inputTooLong.2 h2), if_neg]
    simp only [Bool.not_eq_true, List.any_eq_false, decide_eq_true_eq]
    intro e he
    rw [tableEntries_eq] at he
    obtain ⟨y, -, rfl⟩ := List.mem_map.1 he
    have := hlt y; rw [hcw]; omega
  generalize hfq : countedTable (fqClr s).freq (fqClr s).input = fq at ha
  have counts : ∀ y, (tableGet fq y).toNat = s.input.count y := by
    intro y
    rw [← hfq, tableGet_countedTable (by rw [hcw]; exact hlt y), hz, Nat.zero_add]; rfl
  have htot : totalCount fq = s.ilen.toNat := by
    rw [totalCount_eq, ← hil, ← sum_counts]; congr 1; apply List.map_congr_left; intro y _; exact counts y
  obtain ⟨b, hb⟩ : ∃ b, trBuild { fqClr s with freq := fq } = .ok b := by
    unfold trBuild
    split
    · next h =>
      exfalso
      have h : leafEntries fq = [] := h
      have : (presentSymbols fq) = [] := by rw [← List.length_eq_zero_iff, ← length_leafEntries, h]; rfl
      obtain ⟨x, hx⟩ : ∃ x, x ∈ s.input := List.exists_mem_of_length_pos (by omega)
      have h0 : tableGet fq x ≠ 0 := by
        intro e; have := counts x; rw [e] at this
        have h3 := List.count_pos_iff.2 hx
        simp at this; omega
      have := mem_presentSymbols.2 h0
      simp_all
    · have : ¬ totalCount fq ≥ 2^64 := by rw [htot]; omega
      rw [if_neg this]; exact ⟨_, rfl⟩
  obtain ⟨tr, rfl, built⟩ := trBuild_ok hb
  have built : BuiltFrom fq tr := built
  have hco : trCodes { { fqClr s with freq := fq } with tree := some tr } = .ok { { { fqClr s with freq := fq } with tree := some tr } with ct := writeCodes emptyCodes tr.codes } := by
    unfold trCodes
    simp only
    have hd := built.depth_le
    rw [tooDeep_eq_none (by omega)]
  have hck : ∀ y ∈ s.input, tableGet (writeCodes emptyCodes tr.codes) y ≠ none := by
    intro y hy
    obtain ⟨p, h, _⟩ := tableGet_codes built.keys_nodup ((mem_input_iff counts built y).1 hy)
    rw [h]; simp
  obtain ⟨codes, hcs⟩ := lookupCodes_total hck 0
  obtain ⟨e1, e2⟩ := flatten_codes (lookupCodes_ok hcs)
  have hbl := length_codeBits_le (fun y c => built.code_length_le) s.input
  rw [← e1, hil] at hbl
  generalize hc3 : ({ { { fqClr s with freq := fq } with tree := some tr } with ct := writeCodes emptyCodes tr.codes } : State) = c3 at hco
  have i3 : (pkRst c3).input = s.input := by rw [← hc3]; rfl
  have il3 : (pkRst c3).ilen = s.ilen := by rw [← hc3]; rfl
  have cf3 : (pkRst c3).cfg = s.cfg := by rw [← hc3]; rfl
  have ct3 : (pkRst c3).ct = writeCodes emptyCodes tr.codes := by rw [← hc3]; rfl
  have tr3 : (pkRst c3).tree = some tr := by rw [← hc3]; rfl
  have hpk : pkEncode (pkRst c3) = .ok { pkRst c3 with pk := Packer.fresh.putBits codes.flatten } := by
    unfold pkEncode
    rw [if_neg (State.not_inputTooLong.2 (by rw [il3, cf3]; exact h2)), i3, ct3, hcs]
    simp only [packBits, e2]
    rw [if_neg (by change ¬ (0 + _ ≥ _); omega), cf3, if_neg]
    · rfl
    · rw [Bool.not_eq_true]
      refine overCap_mono ?_ hp
      change ceil8 (0 + _) ≤ _; rw [ceil8_eq]; omega
  obtain ⟨e, he⟩ : ∃ e, trSer (pkFlush { pkRst c3 with pk := Packer.fresh.putBits codes.flatten }) = .ok e := by
    unfold trSer
    have : (pkFlush { pkRst c3 with pk := Packer.fresh.putBits codes.flatten }).tree = some tr := tr3
    rw [this]; exact ⟨_, rfl⟩
  have hcn : ∃ u, cnBuild e = .ok u := by
    obtain ⟨t', ht', rfl⟩ := trSer_ok he
    have : some tr = some t' := tr3.symm.trans ht'
    cases this
    unfold cnBuild
    simp only
    have hn := built.nodes_le
    have cnt : (Packer.fresh.putBits codes.flatten).bitcnt.toNat = codes.flatten.length := by
      obtain ⟨-, cnt, -⟩ := Packer.putBits_spec (Packer.fresh_ok none) codes.flatten (by change 0 + _ < _; omega)
      rw [cnt]; exact Nat.zero_add _
    have nn : (BitVec.ofNat 16 tr.nodes).toInt.toNat = tr.nodes := by
      rw [BitVec.toInt_ofNat', Int.bmod_eq_of_le (by omega) (by omega)]; omega
    have hc8 : ceil8 codes.flatten.length ≤ 32 * s.ilen.toNat := by rw [ceil8_eq]; omega
    rw [if_neg, if_neg, if_neg]
    · exact ⟨_, rfl⟩
    · change ¬ overCap (pkRst c3).cfg.outCap (28 + (BitVec.ofNat 16 tr.nodes).toInt.toNat + ceil8 (Packer.fresh.putBits codes.flatten).bitcnt.toNat) = true
      rw [cf3, cnt, nn, Bool.not_eq_true]; refine overCap_mono ?_ ho; omega
    · change ¬ overCap (pkRst c3).cfg.pbCap (ceil8 (Packer.fresh.putBits codes.flatten).bitcnt.toNat) = true
      rw [cf3, cnt, Bool.not_eq_true]; exact overCap_mono hc8 hp
    · rw [BitVec.toInt_ofNat', Int.bmod_eq_of_le (by omega) (by omega)]; omega
  obtain ⟨u, hu⟩ := hcn
  refine ⟨u, ?_⟩
  unfold compressChain
  simp only [bind, Except.bind, ha, hb, hco, hpk, he, hu]

end Sys2Proof.Machine
end

