-- ==== Sys2Proof/Laws/PerInstr.lean ====
section
/-! SUPPORT. The statements made for every command, one lemma each: the form of its command word (spec/30_encoding.md R81 to R83). -/

namespace Sys2Proof.Laws

/-- The word of the command has the command's three fields, and they are legal. -/
def WordForm.Statement (i : Instr) : Prop := i.wf = true ∧ fieldsOf (encode i) = i.fields

namespace WordForm

theorem nop : Statement .nop := ⟨rfl, fieldsOf_wordOf _⟩

theorem reset : Statement .reset := ⟨rfl, fieldsOf_wordOf _⟩

theorem clrf : Statement .clrf := ⟨rfl, fieldsOf_wordOf _⟩

theorem ctClr : Statement .ctClr := ⟨rfl, fieldsOf_wordOf _⟩

theorem ctLoad (symbol : Byte) : Statement (.ctLoad symbol) :=
  ⟨by simp [Instr.wf, CommandFields.wf, CommandFields.reservedOk, CommandFields.opcodeOk, CommandFields.argOk,
    Instr.fields, symbolOpcodes, plainOpcodes], fieldsOf_wordOf _⟩

theorem pkRst : Statement .pkRst := ⟨rfl, fieldsOf_wordOf _⟩

theorem pkAppend (symbol : Byte) : Statement (.pkAppend symbol) :=
  ⟨by simp [Instr.wf, CommandFields.wf, CommandFields.reservedOk, CommandFields.opcodeOk, CommandFields.argOk,
    Instr.fields, symbolOpcodes, plainOpcodes], fieldsOf_wordOf _⟩

theorem pkEncode : Statement .pkEncode := ⟨rfl, fieldsOf_wordOf _⟩

theorem pkFlush : Statement .pkFlush := ⟨rfl, fieldsOf_wordOf _⟩

theorem fqClr : Statement .fqClr := ⟨rfl, fieldsOf_wordOf _⟩

theorem fqCount : Statement .fqCount := ⟨rfl, fieldsOf_wordOf _⟩

theorem trBuild : Statement .trBuild := ⟨rfl, fieldsOf_wordOf _⟩

theorem trCodes : Statement .trCodes := ⟨rfl, fieldsOf_wordOf _⟩

theorem trSer : Statement .trSer := ⟨rfl, fieldsOf_wordOf _⟩

theorem trDeser : Statement .trDeser := ⟨rfl, fieldsOf_wordOf _⟩

theorem ckSum : Statement .ckSum := ⟨rfl, fieldsOf_wordOf _⟩

theorem cnBuild : Statement .cnBuild := ⟨rfl, fieldsOf_wordOf _⟩

theorem cnParse : Statement .cnParse := ⟨rfl, fieldsOf_wordOf _⟩

theorem upDecode : Statement .upDecode := ⟨rfl, fieldsOf_wordOf _⟩

theorem compress : Statement .compress := ⟨rfl, fieldsOf_wordOf _⟩

theorem decompress : Statement .decompress := ⟨rfl, fieldsOf_wordOf _⟩

end WordForm

end Sys2Proof.Laws
end

