-- ==== Sys2Proof/Laws/Ports.lean ====
section
/-! SUPPORT. Everything an access of the table and buffer ports can do (spec/47_system.md R244). -/

namespace Sys2Proof.Machine

/-- The table port's read writes the answer, and the count of free answers. -/
theorem readEntry_frame (s : State) (sym : Byte) :
    ∃ r n, s.readEntry sym = { s with reply := r, openAnswers := n } := by
  unfold State.readEntry State.answerOpen
  cases tableGet s.ct sym <;> exact ⟨_, _, rfl⟩

/-- The buffer port's read writes the answer, and the count of free answers. -/
theorem peekByte_frame (s : State) (b : Buffer) (index : Nat) :
    ∃ r n, s.peekByte b index = { s with reply := r, openAnswers := n } := by
  unfold State.peekByte State.answerOpen
  split <;> exact ⟨_, _, rfl⟩

/-- The buffer port's write writes the three buffers the host can write, and nothing else. -/
theorem pokeByte_frame (s : State) (b : HostBuffer) (index : Nat) (v : Byte) :
    s.pokeByte b index v =
      { s with
        ibuf := (s.pokeByte b index v).ibuf, tbuf := (s.pokeByte b index v).tbuf, pbuf := (s.pokeByte b index v).pbuf } := by
  unfold State.pokeByte
  cases b <;> split <;> rfl

/-- An index the buffer does not have is not written. -/
theorem pokeByte_absent {s : State} {b : HostBuffer} {index : Nat} (v : Byte) (h : bufferHas s b.toBuffer index = false) :
    s.pokeByte b index v = s := by
  simp [State.pokeByte, h]

/-- Every buffer after a write at an index the buffer has. -/
theorem read_buffer_pokeByte {s : State} {b : HostBuffer} {index : Nat} (v : Byte) (h : bufferHas s b.toBuffer index = true)
    (c : Buffer) (hwf : (s.buffer c).wf) (i : Nat) :
    ((s.pokeByte b index v).buffer c).read i = if c = b.toBuffer ∧ i = index then v else (s.buffer c).read i := by
  cases b <;> cases c <;> simp only [HostBuffer.toBuffer] at h <;> simp [State.pokeByte, State.buffer, HostBuffer.toBuffer, h] <;>
    exact Memory.read_write hwf index i v

end Sys2Proof.Machine
end

