-- ==== Sys2Proof/Machine/Script.lean ====
section
/-! DEFINITION. The script notation of a host session (spec/30_encoding.md R86) and the pseudo-command `CT.SET` (R87): script
items, the host accesses each stands for, and reading an item from a line of characters (log entry 13). -/

namespace Sys2Proof.Machine

/-! ## Items and the accesses they stand for -/

/-- What a `.read` names. -/
inductive ReadTarget where
  | register (r : Register)
  | code (symbol : Byte)
  | freq (symbol : Byte)
  | byte (b : Buffer) (index : Nat)
deriving DecidableEq, Repr

/-- One line of a script (R86, R87). -/
inductive ScriptItem where
  /-- A command line. -/
  | command (i : Instr)
  /-- `.reg NAME = value`. -/
  | reg (r : Register) (v : Nat)
  /-- `.buf NAME = hex bytes`. -/
  | buf (b : HostBuffer) (bytes : List Byte)
  /-- `.freq sym = count`. -/
  | freq (symbol : Byte) (count : Nat)
  /-- `.read NAME`. -/
  | read (what : ReadTarget)
  /-- `.word value`. -/
  | word (v : Nat)
  /-- `CT.SET sym, "b0b1..."`, at most 256 bits. -/
  | ctSet (symbol : Byte) (bits : List Bool)
deriving DecidableEq, Repr

/-- The access that reads a target. -/
def ReadTarget.access : ReadTarget → HostAccess
  | .register r => .readReg r.number
  | .code s => .readCode s
  | .freq s => .readFreq s
  | .byte b i => .readByte b i

/-- A write of a register by name. -/
def regAccess (r : Register) (v : DWord) : HostAccess := .writeReg r.number v

/-- Writes of a byte sequence from index 0. -/
def bufAccesses (b : HostBuffer) (bytes : List Byte) : List HostAccess :=
  bytes.zipIdx.map fun (x, i) => .writeByte b i x

/-- The host accesses of an item; none of `CT.SET` with more than 256 bits, which R87 does not have. R86 does not say what a value
wider than its port means (`.reg` and `.freq` of 2^64 or more, `.word` of 2^32 or more); that the port's low 64 or 32 bits are
kept is the model's choice (DESIGN CHOICE, log entry 13). -/
def ScriptItem.accesses : ScriptItem → Option (List HostAccess)
  | .command i => some [.command (encode i)]
  | .reg r v => some [regAccess r (BitVec.ofNat 64 v)]
  | .buf b bytes =>
    some (bufAccesses b bytes ++ match b with
      | .ibuf => [regAccess .ilen (BitVec.ofNat 64 bytes.length)]
      | .tbuf => []
      | .pbuf => [])
  | .freq s n => some [.writeFreq s (BitVec.ofNat 64 n)]
  | .read what => some [what.access]
  | .word v => some [.command (BitVec.ofNat 32 v)]
  | .ctSet s bits =>
    if bits.length ≤ Config.maxCodeBits then
      some [regAccess .clen (BitVec.ofNat 64 bits.length),
        regAccess .cbits0 (codeWord bits 0), regAccess .cbits1 (codeWord bits 1),
        regAccess .cbits2 (codeWord bits 2), regAccess .cbits3 (codeWord bits 3),
        .command (encode (.ctLoad s))]
    else none

/-- The accesses of a whole script, in order. -/
def scriptAccesses : List ScriptItem → Option (List HostAccess)
  | [] => some []
  | x :: xs =>
    match x.accesses, scriptAccesses xs with
    | some a, some b => some (a ++ b)
    | _, _ => none

/-! ## Reading a line of characters -/

/-- The single quote of a symbol operand. -/
def quoteChar : Char := Char.ofNat 39

/-- The double quote of `CT.SET`'s bits. -/
def doubleQuote : Char := Char.ofNat 34

/-- Characters that part tokens. -/
def isSeparator (c : Char) : Bool := c == ' ' || c == ',' || c == '=' || c == '\t'

/-- A finished token, given reversed. -/
def flushToken (cur : List Char) : List (List Char) := if cur.isEmpty then [] else [cur.reverse]

/-- The tokens of a line up to its comment. A character between single quotes is a token, whatever it is. -/
def tokens : List Char → List Char → List (List Char)
  | cur, [] => flushToken cur
  | cur, [c] => if isSeparator c || c == '#' then flushToken cur else flushToken (c :: cur)
  | cur, [c, d] =>
    if c == '#' then flushToken cur
    else if isSeparator c then flushToken cur ++ tokens [] [d]
    else tokens (c :: cur) [d]
  | cur, c :: d :: e :: rest =>
    if c == quoteChar && e == quoteChar then flushToken cur ++ [c, d, e] :: tokens [] rest
    else if c == '#' then flushToken cur
    else if isSeparator c then flushToken cur ++ tokens [] (d :: e :: rest)
    else tokens (c :: cur) (d :: e :: rest)

/-- The value of a digit, decimal or hexadecimal. -/
def digitValue (c : Char) : Option Nat :=
  let n := c.toNat
  if 48 ≤ n ∧ n ≤ 57 then some (n - 48)
  else if 65 ≤ n ∧ n ≤ 70 then some (n - 55)
  else if 97 ≤ n ∧ n ≤ 102 then some (n - 87)
  else none

/-- The value of a digit sequence in a base, most significant first. -/
def digitsValue (base : Nat) : Nat → List Char → Option Nat
  | acc, [] => some acc
  | acc, c :: cs =>
    match digitValue c with
    | some d => if d < base then digitsValue base (base * acc + d) cs else none
    | none => none

/-- A decimal or `0x` hexadecimal number. -/
def readNumber : List Char → Option Nat
  | [] => none
  | '0' :: 'x' :: c :: cs => digitsValue 16 0 (c :: cs)
  | c :: cs => digitsValue 10 0 (c :: cs)

/-- A symbol operand: a number below 256, or one ASCII character in single quotes (R86). -/
def readSymbol (t : List Char) : Option Byte :=
  match t with
  | [a, c, b] =>
    if a == quoteChar && b == quoteChar then
      if c.toNat < 128 then some (BitVec.ofNat 8 c.toNat) else none
    else match readNumber [a, c, b] with
      | some n => if n < Config.symbolCount then some (BitVec.ofNat 8 n) else none
      | none => none
  | _ =>
    match readNumber t with
    | some n => if n < Config.symbolCount then some (BitVec.ofNat 8 n) else none
    | none => none

/-- Hexadecimal bytes, two digits each. -/
def readBytesHex : List (List Char) → Option (List Byte)
  | [] => some []
  | t :: ts =>
    match t, readBytesHex ts with
    | [_, _], some bs => (digitsValue 16 0 t).map fun n => BitVec.ofNat 8 n :: bs
    | _, _ => none

/-- The string of `0` and `1` of `CT.SET`, in double quotes. -/
def readBits : List Char → Option (List Bool)
  | [] => none
  | q :: cs =>
    if q == doubleQuote && cs.getLast? == some doubleQuote then
      (cs.dropLast).mapM fun c => if c == '0' then some false else if c == '1' then some true else none
    else none

/-- The register names of R22. -/
def registerNames : List (String × Register) :=
  [("STATUS", .status), ("FINFO", .finfo), ("ILEN", .ilen), ("OLEN", .olen), ("NODECNT", .nodecnt), ("SLI", .sli),
   ("PBITS", .pbits), ("BITCNT", .bitcnt), ("CKSUM", .cksum), ("CLEN", .clen), ("CBITS0", .cbits0),
   ("CBITS1", .cbits1), ("CBITS2", .cbits2), ("CBITS3", .cbits3), ("TNODES", .tnodes)]

/-- The buffers a `.buf` can name (R86). -/
def hostBufferNames : List (String × HostBuffer) := [("IBUF", .ibuf), ("TBUF", .tbuf), ("PBUF", .pbuf)]

/-- The buffers a `.read` can name. -/
def bufferNames : List (String × Buffer) := [("IBUF", .ibuf), ("OBUF", .obuf), ("TBUF", .tbuf), ("PBUF", .pbuf)]

/-- The mnemonics of R82 that stand alone. -/
def plainMnemonics : List (String × Instr) :=
  [("NOP", .nop), ("RESET", .reset), ("CLRF", .clrf), ("CT.CLR", .ctClr), ("PK.RST", .pkRst),
   ("PK.ENCODE", .pkEncode), ("PK.FLUSH", .pkFlush), ("FQ.CLR", .fqClr), ("FQ.COUNT", .fqCount),
   ("TR.BUILD", .trBuild), ("TR.CODES", .trCodes), ("TR.SER", .trSer), ("TR.DESER", .trDeser),
   ("CK.SUM", .ckSum), ("CN.BUILD", .cnBuild), ("CN.PARSE", .cnParse), ("UP.DECODE", .upDecode),
   ("COMPRESS", .compress), ("DECOMPRESS", .decompress)]

/-- Look a token up in a table of names. -/
def lookupName {α : Type} (table : List (String × α)) (t : List Char) : Option α :=
  (table.find? fun p => p.1.toList == t).map Prod.snd

/-- `NAME[index]`: the name and the index. -/
def readIndexed (t : List Char) : Option (List Char × List Char) :=
  match t.span (· != '[') with
  | (name, _ :: rest) => if rest.getLast? == some ']' then some (name, rest.dropLast) else none
  | _ => none

/-- What a `.read` names: a register, `CT[sym]`, `FREQ[sym]` or a buffer with an index. -/
def readTarget (t : List Char) : Option ReadTarget :=
  match lookupName registerNames t with
  | some r => some (.register r)
  | none =>
    match readIndexed t with
    | none => none
    | some (name, index) =>
      if name == "CT".toList then (readSymbol index).map .code
      else if name == "FREQ".toList then (readSymbol index).map .freq
      else
        match lookupName bufferNames name, readNumber index with
        | some b, some i => some (.byte b i)
        | _, _ => none

/-- The item a line's tokens make; what follows the name of a `.read` is the expected value and is not part of it. -/
def readItem : List (List Char) → Option ScriptItem
  | [] => none
  | t :: ts =>
    if t == ".reg".toList then
      match ts with
      | [name, v] =>
        match lookupName registerNames name, readNumber v with
        | some r, some n => some (.reg r n)
        | _, _ => none
      | _ => none
    else if t == ".buf".toList then
      match ts with
      | name :: bytes =>
        match lookupName hostBufferNames name, readBytesHex bytes with
        | some b, some bs => some (.buf b bs)
        | _, _ => none
      | [] => none
    else if t == ".freq".toList then
      match ts with
      | [sym, v] =>
        match readSymbol sym, readNumber v with
        | some s, some n => some (.freq s n)
        | _, _ => none
      | _ => none
    else if t == ".read".toList then
      match ts with
      | name :: _ => (readTarget name).map .read
      | [] => none
    else if t == ".word".toList then
      match ts with
      | [v] => (readNumber v).map .word
      | _ => none
    else
      match ts with
      | [] => (lookupName plainMnemonics t).map .command
      | [sym] =>
        if t == "CT.LOAD".toList then (readSymbol sym).map fun s => .command (.ctLoad s)
        else if t == "PK.APPEND".toList then (readSymbol sym).map fun s => .command (.pkAppend s)
        else none
      | [sym, bits] =>
        if t == "CT.SET".toList then
          match readSymbol sym, readBits bits with
          | some s, some bs => some (.ctSet s bs)
          | _, _ => none
        else none
      | _ => none

/-- The item of one line, or none for a blank, comment or malformed line. -/
def readLine (line : List Char) : Option ScriptItem := readItem (tokens [] line)

end Sys2Proof.Machine
end

