-- ==== Sys2Proof/Tests/Slice0.lean ====
section
/-! SUPPORT. The model's own tests, by the vectors of spec/95_test_vectors.md (each docstring names its vector) and by words written
out from the encodings of spec/30_encoding.md R81, R82; and, for each statement with hypotheses, a witness that meets them. -/

namespace Sys2Proof.Tests

-- One test at a time: a thread for each, with its stack, would not fit the check's memory.
set_option Elab.async false

open Sys2Proof Sys2Proof.Machine Sys2Proof.Claims

/-! ## Small states -/

/-- A buffer that begins with these bytes. -/
def holding (bs : List Byte) : Memory := Memory.writeBytes [] 0 bs

/-- Reset, with an input. -/
def withInput (bs : List Byte) : State := { State.reset with ibuf := holding bs, ilen := BitVec.ofNat 64 bs.length }

/-- Reset, with a tree record. -/
def withRecord (n sli : Half) (bs : List Byte) : State := { State.reset with nodecnt := n, sli := sli, tbuf := holding bs }

/-- Reset, with a tree and a payload record. -/
def withPayload (t : HuffmanTree) (n : Nat) (bs : List Byte) : State :=
  { State.reset with tree := some t, pbits := BitVec.ofNat 64 n, pbuf := holding bs }

/-- The next state, if there is one. -/
def ran : Host.Outcome State Fault Refusal → Option State
  | .next t => some t
  | _ => none

/-- The next state, or reset where there is none. -/
def after (i : Instr) (s : State) : State := (ran (exec i s)).getD State.reset

/-- A command's fault record: `FKIND` and `FINFO`. -/
def record (i : Instr) (s : State) : Option (Option FaultKind × DWord) := (ran (exec i s)).map fun t => (t.fkind, t.finfo)

theorem next_of_ran {o : Host.Outcome State Fault Refusal} {t : State} (h : ran o = some t) : o = .next t := by
  cases o <;> simp_all [ran]

/-- A command always has a next state, so `after` is it. -/
theorem exec_after {i : Instr} {s : State} (h : (ran (exec i s)).isSome = true) : exec i s = .next (after i s) := by
  unfold after
  cases hx : exec i s <;> simp_all [ran]

/-- The code of a symbol. -/
def code (sym : Byte) (bits : List Bool) : Option BitSequence := some { sym := sym, bits := bits }

/-- The codes of V1: `a = 0`, `b = 110`, `c = 100`, `d = 101`, `r = 111`. -/
def codesV1 : Vector (Option BitSequence) Config.symbolCount :=
  [((0x61 : Byte), [false]), (0x62, [true, true, false]), (0x63, [true, false, false]), (0x64, [true, false, true]),
    (0x72, [true, true, true])].foldl (fun ct (k, p) => tableSet ct k (code k p)) emptyCodes

/-- The tree of T1. -/
def treeT1 : HuffmanTree :=
  .node 11 (.leaf 0x61 5) (.node 6 (.node 2 (.leaf 0x63 1) (.leaf 0x64 1)) (.node 4 (.leaf 0x62 2) (.leaf 0x72 2)))

/-- `abracadabra`. -/
def abracadabra : List Byte := [0x61, 0x62, 0x72, 0x61, 0x63, 0x61, 0x64, 0x61, 0x62, 0x72, 0x61]

/-- The container of V1. -/
def containerV1 : List Byte :=
  [0x0D, 0xF0, 0xFE, 0xCA, 0xDF, 0xAB, 0x31, 0x8E, 0x18, 0, 0, 0, 0, 0, 0, 0,
   0x09, 0x00, 0xFF, 0xFF, 0x61, 0x63, 0x64, 0x00, 0x62, 0x72, 0x00, 0x00, 0x00,
   0x17, 0, 0, 0, 0, 0, 0, 0, 0x76, 0x51, 0x3B]

/-- The container of V4. -/
def containerV4 : List Byte :=
  [0x0D, 0xF0, 0xFE, 0xCA, 0xE7, 0x68, 0x66, 0xA6, 0x12, 0, 0, 0, 0, 0, 0, 0,
   0x05, 0x00, 0x03, 0x00, 0x61, 0x62, 0x00, 0x00, 0x00, 0x07, 0, 0, 0, 0, 0, 0, 0, 0x74]

/-- The bytes of `OBUF[0..OLEN)`. -/
def output (s : State) : List Byte := s.obuf.readBytes 0 s.olen.toNat

/-! ## Well-formedness: an ill-formed command for each check -/

theorem test_wf_reserved_field : (CommandFields.wf { op := 0x21, arg := 0x61, rsv := 1 }) = false
    ∧ CommandFields.reservedOk { op := 0x21, arg := 0x61, rsv := 1 } = false := by decide

theorem test_wf_opcode : (CommandFields.wf { op := 0x24, arg := 0, rsv := 0 }) = false
    ∧ CommandFields.opcodeOk { op := 0x24, arg := 0, rsv := 0 } = false := by decide

theorem test_wf_argument : (CommandFields.wf { op := 0x20, arg := 1, rsv := 0 }) = false
    ∧ CommandFields.argOk { op := 0x20, arg := 1, rsv := 0 } = false := by decide

theorem test_wf_commands : (CommandFields.wf { op := 0x21, arg := 0xFF, rsv := 0 }) = true
    ∧ (CommandFields.wf { op := 0x00, arg := 0, rsv := 0 }) = true ∧ (CommandFields.wf { op := 0x71, arg := 0, rsv := 0 }) = true := by
  decide

/-! ## Decoding: words written out from R81 and R82 (`rsv` 16 bits, `arg` 8 bits, `op` 8 bits) -/

theorem test_decode_system : decode 0b0000000000000000_00000000_00000000#32 = .ok .nop
    ∧ decode 0b0000000000000000_00000000_00000001#32 = .ok .reset
    ∧ decode 0b0000000000000000_00000000_00000010#32 = .ok .clrf := by decide

theorem test_decode_code_table : decode 0b0000000000000000_00000000_00010000#32 = .ok .ctClr
    ∧ decode 0b0000000000000000_01100010_00010001#32 = .ok (.ctLoad 0x62) := by decide

theorem test_decode_packer : decode 0b0000000000000000_00000000_00100000#32 = .ok .pkRst
    ∧ decode 0b0000000000000000_01100001_00100001#32 = .ok (.pkAppend 0x61)
    ∧ decode 0b0000000000000000_00000000_00100010#32 = .ok .pkEncode
    ∧ decode 0b0000000000000000_00000000_00100011#32 = .ok .pkFlush := by decide

theorem test_decode_frequency_and_tree : decode 0b0000000000000000_00000000_00110000#32 = .ok .fqClr
    ∧ decode 0b0000000000000000_00000000_00110001#32 = .ok .fqCount
    ∧ decode 0b0000000000000000_00000000_00110010#32 = .ok .trBuild
    ∧ decode 0b0000000000000000_00000000_00110011#32 = .ok .trCodes := by decide

theorem test_decode_tree_codec : decode 0b0000000000000000_00000000_01000000#32 = .ok .trSer
    ∧ decode 0b0000000000000000_00000000_01000001#32 = .ok .trDeser := by decide

theorem test_decode_container : decode 0b0000000000000000_00000000_01010000#32 = .ok .ckSum
    ∧ decode 0b0000000000000000_00000000_01010001#32 = .ok .cnBuild
    ∧ decode 0b0000000000000000_00000000_01010010#32 = .ok .cnParse := by decide

theorem test_decode_unpacker_and_entry_points : decode 0b0000000000000000_00000000_01100000#32 = .ok .upDecode
    ∧ decode 0b0000000000000000_00000000_01110000#32 = .ok .compress
    ∧ decode 0b0000000000000000_00000000_01110001#32 = .ok .decompress := by decide

/-- E7 to E13. -/
theorem test_decode_illegal : decode 0x00000003 = .error .unassignedOpcode ∧ decode 0x00000120 = .error .argumentNotZero
    ∧ decode 0x00010000 = .error .reservedField ∧ decode 0x00016121 = .error .reservedField
    ∧ decode 0xFFFFFFFF = .error .reservedField ∧ decode 0x00000072 = .error .unassignedOpcode
    ∧ decode 0x00000024 = .error .unassignedOpcode := by decide

/-- E9: the illegal word's step, after which all but the fault record is as at reset. -/
theorem test_illegal_word : ran (step (State.reset.withFetchWord 32 0x00010000)) =
    some { State.reset with
      fkind := some .illegalCommand, finfo := 0x10000, fsticky := true, reply := .completion (some .illegalCommand) } := rfl

theorem test_decode_table_word : decodeTableWord 32 0x00006121 = some (.pkAppend 0x61) ∧ decodeTableWord 32 0x00000141 = none := by
  decide

/-- E3: a step of a fetched word. -/
theorem test_step_fetched : (ran (step (State.reset.withFetchWord 32 0x00006121))).map (fun t => (t.status, t.finfo, t.reply)) =
    some (0x00003208, 0x61, .completion (some .missingCode)) := by decide +kernel

/-! ## System commands -/

/-- F2. -/
theorem test_nop : (after .nop { State.reset with fkind := some .noTree, fsticky := true }).status = 0x00000008 := by decide +kernel

/-- F4, F6. -/
theorem test_reset : (after .reset { withRecord 3 1 [0x61, 0x00, 0x00] with
    fkind := some .noTree, fsticky := true, tree := some treeT1, olen := 9 }) = State.reset := rfl

/-- F3, B8. -/
theorem test_clrf : (after .clrf { State.reset with fkind := some .limitExceeded, finfo := 257, fsticky := true }).status = 0
    ∧ (after .clrf { State.reset with finfo := 257 }).finfo = 0 := by decide +kernel

/-! ## Code table -/

/-- B7. -/
theorem test_ct_clr : tableGet (after .ctClr { State.reset with ct := codesV1 }).ct 0x62 = none := by decide +kernel

/-- B1. -/
theorem test_ct_load : tableGet (after (.ctLoad 0x62) { State.reset with clen := 3, cbits := #v[3, 0, 0, 0] }).ct 0x62
    = code 0x62 [true, true, false] := by decide +kernel

/-- B2 and B3: 256 bits load, bit `j` set exactly when `j mod 3 = 0`; 257 fault. -/
theorem test_ct_load_limit :
    tableGet (after (.ctLoad 7) { State.reset with
      clen := 256, cbits := #v[0x9249249249249249, 0x4924924924924924, 0x2492492492492492, 0x9249249249249249] }).ct 7
      = code 7 ((List.range 256).map fun j => j % 3 == 0)
    ∧ record (.ctLoad 7) { State.reset with clen := 257 } = some (some .limitExceeded, 257) := by decide +kernel

/-! ## Packer -/

/-- Q2: `b = 110` after `a = 0`. -/
theorem test_pk_append : (after (.pkAppend 0x62) { State.reset with ct := codesV1, pk := { buf := [], part := 0, bitcnt := 1 } }).pk
    = { buf := [], part := 0x06, bitcnt := 4 } := by decide +kernel

/-- Q10: a code spanning the byte boundary. -/
theorem test_pk_append_boundary :
    (after (.pkAppend 0x72) { State.reset with ct := codesV1, pk := { buf := [0x76, 0x51], part := 0x3B, bitcnt := 23 } }).pk
      = { buf := [0x76, 0x51, 0xBB], part := 0x03, bitcnt := 26 } := by decide +kernel

/-- Q19. -/
theorem test_pk_rst : (after .pkRst { State.reset with pk := { buf := [0x76], part := 1, bitcnt := 9 }, pbits := 5 }).pk = Packer.fresh
    ∧ (after .pkRst { State.reset with pbits := 5 }).pbits = 5 := by decide +kernel

/-- Q11. -/
theorem test_pk_encode : (after .pkEncode { withInput abracadabra with ct := codesV1 }).pk
    = { buf := [0x76, 0x51], part := 0x3B, bitcnt := 23 } := by decide +kernel

/-- Q13: the symbol without a code and its place. -/
theorem test_pk_encode_missing : record .pkEncode { withInput [0x61, 0x62, 0x78, 0x61] with ct := codesV1 }
    = some (some .missingCode, 0x278) := by decide +kernel

/-- Q9: the partial byte is written. -/
theorem test_pk_flush :
    let t := after .pkFlush { State.reset with pk := { buf := [0x76, 0x51], part := 0x3B, bitcnt := 23 } }
    t.pbits = 23 ∧ t.pbuf = holding [0x76, 0x51, 0x3B] := by decide +kernel

/-- Q15: no partial byte. -/
theorem test_pk_flush_whole_bytes :
    let t := after .pkFlush { State.reset with pk := { buf := [0xD5, 0xD5], part := 0, bitcnt := 16 }, pbuf := holding [1, 2, 3] }
    t.pbits = 16 ∧ t.pbuf = holding [0xD5, 0xD5, 3] := by decide +kernel

/-! ## Frequencies, tree construction, code derivation -/

theorem test_fq_clr : tableGet (after .fqClr { State.reset with freq := Vector.replicate 256 7 }).freq 0xFF = 0 := by decide +kernel

/-- T16: counts accumulate. -/
theorem test_fq_count :
    let t := after .fqCount { withInput [0x61] with freq := tableSet (tableSet zeroCounts 0x61 1) 0x62 1 }
    tableGet t.freq 0x61 = 2 ∧ tableGet t.freq 0x62 = 1 := by decide +kernel

/-- T15. -/
theorem test_fq_count_overflow : record .fqCount { withInput [0x61] with freq := tableSet zeroCounts 0x61 0xFFFFFFFFFFFFFFFF }
    = some (some .overflow, 1) := by decide +kernel

/-- T6: a leaf before a node of equal weight, an older node before a newer one. -/
theorem test_tr_build :
    (after .trBuild { State.reset with
      freq := [(0x61 : Byte), 0x62, 0x63, 0x64, 0x65].foldl (fun f k => tableSet f k 2) zeroCounts }).tree
    = some (.node 10 (.node 4 (.leaf 0x63 2) (.leaf 0x64 2)) (.node 6 (.leaf 0x65 2) (.node 4 (.leaf 0x61 2) (.leaf 0x62 2)))) := by
  decide +kernel

/-- T12, T14. -/
theorem test_tr_build_faults : record .trBuild State.reset = some (some .emptyFrequencyTable, 0)
    ∧ record .trBuild { State.reset with freq := tableSet (tableSet zeroCounts 0x61 0x8000000000000000) 0x62 0x8000000000000000 }
      = some (some .overflow, 2) := by decide +kernel

/-- T1: the codes. -/
theorem test_tr_codes :
    let t := after .trCodes { State.reset with tree := some treeT1 }
    tableGet t.ct 0x61 = code 0x61 [false] ∧ tableGet t.ct 0x64 = code 0x64 [true, false, true]
      ∧ tableGet t.ct 0x72 = code 0x72 [true, true, true] ∧ tableGet t.ct 0x65 = none := by decide +kernel

/-- T5, T18: the lone leaf's code, and the last of two leaves with one key. -/
theorem test_tr_codes_corners :
    tableGet (after .trCodes { State.reset with tree := some (.leaf 0x41 4) }).ct 0x41 = code 0x41 [false]
    ∧ tableGet (after .trCodes { State.reset with
        tree := some (.node 0 (.node 0 (.leaf 0x61 0) (.leaf 0x61 0)) (.leaf 0x61 0)) }).ct 0x61 = code 0x61 [true] := by
  decide +kernel

/-! ## Tree codec -/

/-- Z1. -/
theorem test_tr_ser :
    let t := after .trSer { State.reset with tree := some treeT1 }
    t.nodecnt = 9 ∧ t.sli = 0xFFFF ∧ t.tbuf = holding [0x61, 0x63, 0x64, 0x00, 0x62, 0x72, 0x00, 0x00, 0x00] := by decide +kernel

/-- Z3d: the place of the leaf `0x00`. -/
theorem test_tr_ser_sentinel :
    let t := after .trSer { State.reset with tree := some (.node 5 (.node 2 (.leaf 0x61 1) (.leaf 0x62 1)) (.leaf 0x00 3)) }
    t.nodecnt = 5 ∧ t.sli = 3 ∧ t.tbuf.readBytes 0 5 = [0x61, 0x62, 0x00, 0x00, 0x00] := by decide +kernel

/-- Z5: byte 1 is the special leaf, byte 2 the node. -/
theorem test_tr_deser : (after .trDeser (withRecord 3 1 [0x61, 0x00, 0x00])).tree = some (.node 0 (.leaf 0x61 0) (.leaf 0x00 0)) := by
  decide +kernel

/-- Z11, Z13, Z17, Z18, Z19. -/
theorem test_tr_deser_faults : record .trDeser (withRecord 3 0xFFFF [0x61, 0x00, 0x62]) = some (some .stackUnderflow, 1)
    ∧ record .trDeser (withRecord 2 0xFFFF [0x61, 0x62]) = some (some .stackResidue, 2)
    ∧ record .trDeser (withRecord 0 0xFFFF []) = some (some .emptyTree, 0)
    ∧ record .trDeser (withRecord 0xFFFF 0xFFFF []) = some (some .treeRegionOverflow, 0xFFFF)
    ∧ record .trDeser (withRecord 3 3 [0x61, 0x62, 0x00]) = some (some .specialLeafIndexRange, 3) := by decide +kernel

/-! ## Checksum and container -/

/-- K9, K1. -/
theorem test_ck_sum : (after .ckSum (withInput [0, 1, 2, 3, 4, 5, 6, 7, 8])).cksum = 0xCCC08722
    ∧ (after .ckSum (withInput [])).cksum = 0x00000001 := by decide +kernel

/-- K8 and K10 under `CK_FINAL_EMPTY`. -/
theorem test_ck_sum_final_empty :
    let final (s : State) : State := { s with cfg := { s.cfg with ck := { ChecksumOptions.reference with finalEmpty := true } } }
    (after .ckSum (final (withInput [0, 1, 2, 3, 4, 5, 6, 7]))).cksum = 0xCCC08704
    ∧ (after .ckSum (final (withInput (List.replicate 16 0xFF)))).cksum = 0x00000001 := by decide +kernel

/-- The records of V4 give its container. -/
theorem test_cn_build :
    let t := after .cnBuild { withRecord 5 3 [0x61, 0x62, 0x00, 0x00, 0x00] with pbits := 7, pbuf := holding [0x74] }
    output t = containerV4 ∧ t.olen = 34 ∧ t.cksum = 0xA66668E7 := by decide +kernel

/-- P2. -/
theorem test_cn_parse :
    let t := after .cnParse (withInput containerV4)
    t.fkind = none ∧ t.nodecnt = 5 ∧ t.sli = 3 ∧ t.tbuf = holding [0x61, 0x62] ∧ t.pbits = 7 ∧ t.pbuf = holding [0x74]
      ∧ t.cksum = 0xA66668E7 := by decide +kernel

/-! ## Unpacker and entry points -/

/-- U1, U6. -/
theorem test_up_decode : output (after .upDecode (withPayload treeT1 23 [0x76, 0x51, 0x3B])) = abracadabra
    ∧ output (after .upDecode (withPayload treeT1 8 [0xFF])) = [0x72, 0x72]
    ∧ (after .upDecode (withPayload treeT1 8 [0xFF])).tail = true := by decide +kernel

/-- U7. -/
theorem test_up_decode_leaf : output (after .upDecode (withPayload (.leaf 0x41 4) 4 [0x0F])) = [0x41, 0x41, 0x41, 0x41] := by
  decide +kernel

/-- V1. -/
theorem test_compress : output (after .compress (withInput abracadabra)) = containerV1 := by decide +kernel

/-- V9. -/
theorem test_compress_empty : after .compress { State.reset with olen := 5 } = State.reset := rfl

/-- V4. -/
theorem test_decompress :
    let t := after .decompress (withInput containerV4)
    output t = [0x61, 0x00, 0x62, 0x00, 0x00] ∧ t.tail = false ∧ t.status = 0x00000001 := by decide +kernel

/-- P5: the fault undoes `CN.PARSE`'s writes. -/
theorem test_decompress_atomic :
    let s := withInput [0x0D, 0xF0, 0xFE, 0xCA, 0x84, 0x65, 0xA0, 0xEA, 0x0F, 0, 0, 0, 0, 0, 0, 0, 0x03, 0x00, 0xFF, 0xFF, 0x61, 0x00, 0x62,
      0, 0, 0, 0, 0, 0, 0, 0]
    let t := after .decompress s
    t.status = 0x00002008 ∧ t.finfo = 1 ∧ t.nodecnt = 0 ∧ t.tbuf = [] ∧ t.cksum = 0 := by decide +kernel

/-! ## The checks of `CN.PARSE`, at the boundaries of each -/

/-- V1's container with one byte changed. -/
def changedV1 (i : Nat) (v : Byte) : State := withInput (containerV1.set i v)

/-- V1's container with one byte changed and its checksum recomputed (the bytes the spec gives). -/
def refitV1 (sum : List Byte) (i : Nat) (v : Byte) : State :=
  withInput ((containerV1.take 4 ++ sum ++ containerV1.drop 8).set i v)

/-- N1, N3, N5, N6: length 27, magic, content length, checksum. -/
theorem test_cn_parse_header_faults :
    record .cnParse { withInput containerV1 with ilen := 27 } = some (some .truncatedLength, 27)
    ∧ record .cnParse (changedV1 0 0x0C) = some (some .magicMismatch, 0xCAFEF00C)
    ∧ record .cnParse (changedV1 8 0x19) = some (some .contentLengthOverflow, 25)
    ∧ record .cnParse (changedV1 20 0x60) = some (some .checksumMismatch, 0x8E3137BE8E31ABDF) := by decide +kernel

/-- N9, N10, N12, N14: each region's overflow by one. -/
theorem test_cn_parse_region_faults :
    record .cnParse (refitV1 [0x43, 0x85, 0xAF, 0xA9] 16 0x15) = some (some .treeRegionOverflow, 0x15)
    ∧ record .cnParse (refitV1 [0xA2, 0xD9, 0x8E, 0x01] 16 0x14) = some (some .payloadRegionOverflow, 24)
    ∧ record .cnParse (withInput (((containerV1.take 4 ++ [0x84, 0x59, 0x00, 0x38] ++ containerV1.drop 8).set 18 0x09).set 19 0x00))
      = some (some .specialLeafIndexRange, 9)
    ∧ record .cnParse (refitV1 [0x5D, 0xA3, 0x31, 0x8E] 29 0x19) = some (some .payloadRegionOverflow, 25) := by decide +kernel

/-! ## Ports and scripts -/

/-- F7, F8: read-only registers keep their value, a narrow one its low bits. -/
theorem test_register_port :
    (ran (step { State.reset with host := [.writeReg 3 0xFFFFFFFFFFFFFFFF] })).map (fun t => t.olen) = some 0
    ∧ (ran (step { State.reset with host := [.writeReg 4 0x123458000] })).map (fun t => t.nodecnt) = some 0x8000 := by
  decide +kernel

/-- P3's lines read as items. -/
theorem test_script_lines :
    readLine "PK.APPEND 'z'                                # 0x00007A21".toList = some (.command (.pkAppend 0x7A))
    ∧ readLine "CT.SET 'y', \"10\"".toList = some (.ctSet 0x79 [true, false])
    ∧ readLine ".buf TBUF = 78 79 7A 00 00".toList = some (.buf .tbuf [0x78, 0x79, 0x7A, 0x00, 0x00])
    ∧ readLine ".reg SLI = 0xFFFF".toList = some (.reg .sli 0xFFFF) ∧ readLine ".word 0x00000141".toList = some (.word 0x141)
    ∧ readLine ".read STATUS => 0x00003208".toList = some (.read (.register .status))
    ∧ readLine "".toList = none := by decide +kernel

/-- R87: the accesses of `CT.SET 'y', "10"`. -/
theorem test_ct_set_accesses : (ScriptItem.ctSet 0x79 [true, false]).accesses =
    some [.writeReg 9 2, .writeReg 10 1, .writeReg 11 0, .writeReg 12 0, .writeReg 13 0, .command 0x00007911] := by decide +kernel

/-! ## Witnesses: for each statement with hypotheses, values that meet them all -/

/-- `DecodeEncodeAgree`, `StepRunsDecodedCommand`, `CommandCompletesOrFaults`. -/
theorem witness_legal_word : decode 0x00006121 = .ok (.pkAppend 0x61) ∧ (Instr.pkAppend 0x61).wf = true
    ∧ ({ State.reset with host := [.command 0x00006121] } : State).host = .command 0x00006121 :: [] := by decide

/-- `IllegalWordChangesOnlyFaultRecord`: a word for each of the three causes, and one that is not illegal. -/
theorem witness_illegal_words : IllegalWord 0x00010000 ∧ IllegalWord 0x00000072 ∧ IllegalWord 0x00000120 ∧ ¬ IllegalWord 0x0000FF21 := by
  unfold IllegalWord
  decide

/-- `OpcodeMapDecodes`: the opcodes beside the last one assigned. -/
theorem witness_unassigned_opcode : (0x00000072 : Word).extractLsb' 0 8 ∉ assignedOpcodes
    ∧ (0x00000071 : Word).extractLsb' 0 8 ∈ assignedOpcodes := by decide

/-- `WaitingKeepsAllState`. -/
theorem witness_waiting : State.reset.host = [] := rfl

/-- `RegisterPortReadsAndWrites`, `TablePortReadsEntries`, `PortAccessKeepsFaultRecord`: an access of each kind, none a command. -/
theorem witness_port_accesses : ({ State.reset with host := [.readReg 15] } : State).host = .readReg 15 :: []
    ∧ ({ State.reset with host := [.writeReg 15 1] } : State).host = .writeReg 15 1 :: []
    ∧ ({ State.reset with host := [.writeFreq 0xFF 1] } : State).host = .writeFreq 0xFF 1 :: []
    ∧ ({ State.reset with host := [.readFreq 0xFF] } : State).host = .readFreq 0xFF :: []
    ∧ (∀ w, HostAccess.readReg 15 ≠ .command w) ∧ HostAccess.readReg 15 ≠ .hardReset := by
  refine ⟨rfl, rfl, rfl, rfl, fun w h => ?_, by decide⟩
  cases h

/-- `TablePortReadsEntries`: an entry of 256 bits, and none. -/
theorem witness_table_port :
    let s : State := { State.reset with ct := tableSet emptyCodes 7 (code 7 (List.replicate 256 true)), host := [.readCode 7] }
    tableGet s.ct 7 = some { sym := 7, bits := List.replicate 256 true } ∧ (List.replicate 256 true).length ≤ 256
      ∧ tableGet s.ct 8 = none := by decide +kernel

/-- Reset's buffers are canonical. -/
theorem witness_canonical : BuffersCanonical State.reset := by
  intro b
  cases b <;> decide

/-- `BufferPortIsPlainStorage`, `PortAccessKeepsFaultRecord`: the last byte of `TBUF`, and the one after it, read and written. -/
theorem witness_buffer_port : ¬ Exceeds (capacityOf State.reset.cfg .tbuf) (32766 + 1)
    ∧ Exceeds (capacityOf State.reset.cfg .tbuf) (32767 + 1)
    ∧ step { State.reset with host := [.readByte .tbuf 32767] }
      = .next { State.reset with reply := .byte (Config.freeByte 0), openAnswers := 1 }
    ∧ step { State.reset with host := [.readByte .tbuf 32766] } = .next { State.reset with reply := .byte 0 }
    ∧ step { State.reset with host := [.writeByte .tbuf 32767 5] } = .next { State.reset with reply := .written }
    ∧ step { State.reset with host := [.writeByte .tbuf 32766 5] }
      = .next { State.reset with tbuf := [(32766, 5)], reply := .written } := by
  refine ⟨by decide, by decide, rfl, rfl, rfl, rfl⟩

/-- `CommandsRaiseExactlyTheirFaults`: a command that faults, in range. -/
theorem witness_raises : State.reset.cfg.InRange ∧ exec .trSer State.reset = .next (faulted State.reset .noTree 0) := by
  exact ⟨by decide, rfl⟩

/-- `StickyFlagClearedOnlyByThree`: `CLRF`, and a command that faults. -/
theorem witness_sticky :
    step { State.reset with fsticky := true, host := [.command 0x00000002] } = .next { State.reset with reply := .completion none }
    ∧ step { State.reset with host := [.command 0x00000040] }
      = .next { faulted State.reset .noTree 0 with reply := .completion (some .noTree) } := ⟨rfl, rfl⟩

/-- `ResetRestoresEveryValue`: a state with a hardware reset next. -/
theorem witness_hard_reset : ({ State.reset with olen := 9, host := [.hardReset] } : State).host = .hardReset :: [] := rfl

/-- `CtLoadBuildsStagedCode`: lengths 256 and 257. -/
theorem witness_ct_load : ¬ ({ State.reset with clen := 256 } : State).clen.toNat > 256
    ∧ ({ State.reset with clen := 257 } : State).clen.toNat > 256 := by decide

/-- The fresh packer meets its invariant, under any capacity. -/
theorem witness_packer_ok (cap : Option Nat) : Packer.fresh.Ok cap := ⟨rfl, by decide, by cases cap <;> rfl⟩

/-- A packer one bit short of the greatest bit count. -/
def fullPacker : Packer := { buf := [], part := 0, bitcnt := 0xFFFFFFFFFFFFFFFF }

/-- `PkAppendExtendsStream`: the room for one bit more, and for none, under a payload buffer of one byte. -/
theorem witness_pk_append :
    let p : Packer := { buf := [], part := 0x7F, bitcnt := 7 }
    let q : Packer := { buf := [0x7F], part := 0, bitcnt := 8 }
    p.Ok (some 1) ∧ q.Ok (some 1) ∧ ¬ Exceeds (some 1) ((p.bitcnt.toNat + 1 + 7) / 8) ∧ Exceeds (some 1) ((q.bitcnt.toNat + 1 + 7) / 8)
      ∧ tableGet codesV1 0x61 = code 0x61 [false] ∧ tableGet codesV1 0x78 = none := by
  refine ⟨⟨rfl, by decide, rfl⟩, ⟨rfl, by decide, rfl⟩, by decide, by decide, by decide +kernel, by decide +kernel⟩

/-- `PkAppendExtendsStream`, `PkEncodeAppendsEveryInputByte`: the greatest count of bits, and one more. -/
theorem witness_bit_total : ¬ (fullPacker.bitcnt.toNat + 0 ≥ 2 ^ 64) ∧ fullPacker.bitcnt.toNat + 1 ≥ 2 ^ 64 := by decide

/-- `PkEncodeAppendsEveryInputByte`: every byte has a code; and the first without one is at index 2 (Q13). -/
theorem witness_pk_encode :
    let s : State := { withInput abracadabra with ct := codesV1 }
    let u : State := { withInput [0x61, 0x62, 0x78, 0x61] with ct := codesV1 }
    ¬ s.ilen.toNat > s.cfg.inCap ∧ (∀ i, i < s.ilen.toNat → tableGet s.ct (s.ibuf.read i) ≠ none)
      ∧ tableGet u.ct (u.ibuf.read 2) = none ∧ ∀ j, j < 2 → tableGet u.ct (u.ibuf.read j) ≠ none := by decide +kernel

/-- `PkFlushWritesStream`. -/
theorem witness_pk_flush : State.reset.pk.Ok State.reset.cfg.pbCap ∧ State.reset.pbuf.wf := ⟨witness_packer_ok _, by decide⟩

/-- `PackedStreamClosedForm`: Q15's mixture and an encode. -/
theorem witness_packed_stream :
    let s : State := { withInput abracadabra with ct := codesV1 }
    let ops : List (Option Byte) := [some 0x62, none]
    let bits := codeBits s.ct (ops.flatMap (packSymbols s))
    s.pbuf.wf ∧ s.ilen.toNat ≤ s.cfg.inCap ∧ (∀ op ∈ ops, ∀ sym ∈ packSymbols s op, tableGet s.ct sym ≠ none)
      ∧ bits.length < 2 ^ 64 ∧ bits.length = 26 ∧ ¬ Exceeds s.cfg.pbCap ((bits.length + 7) / 8) := by decide +kernel

/-- `FqCountAddsInputCounts`: a count that reaches `2^64 - 1`, and one that would pass it. -/
theorem witness_fq_count :
    let s : State := { withInput [0x61] with freq := tableSet zeroCounts 0x61 0xFFFFFFFFFFFFFFFE }
    let u : State := { withInput [0x61] with freq := tableSet zeroCounts 0x61 0xFFFFFFFFFFFFFFFF }
    ¬ s.ilen.toNat > s.cfg.inCap ∧ (tableGet s.freq 0x61).toNat + (inputBytes s).count 0x61 = 2 ^ 64 - 1
      ∧ (tableGet u.freq 0x61).toNat + (inputBytes u).count 0x61 ≥ 2 ^ 64 := by decide +kernel

/-- `FqCountAddsInputCounts`: a state in which no count overflows, every symbol looked at. -/
theorem witness_fq_count_all (y : Byte) : (tableGet zeroCounts y).toNat + (inputBytes (withInput [0x61])).count y < 2 ^ 64 := by
  have h : (inputBytes (withInput [0x61])).count y ≤ 1 := List.count_le_length
  have hz : tableGet zeroCounts y = 0 := by simp [tableGet, zeroCounts]
  rw [hz]
  change 0 + _ < _
  omega

/-- `BuiltTreeShape`: T5's tree, after `TR.BUILD`. -/
theorem witness_built_tree :
    let s : State := { State.reset with freq := tableSet zeroCounts 0x41 4 }
    exec .trBuild s = .next (after .trBuild s) ∧ (after .trBuild s).fkind = none
      ∧ (after .trBuild s).tree = some (.leaf 0x41 4) := by
  refine ⟨exec_after (by decide +kernel), by decide +kernel, by decide +kernel⟩

/-- `TrCodesDerivesPaths`: a tree none of whose leaves is too deep; and a chain with a leaf at depth 257 and none left of it. -/
theorem witness_tr_codes (p : List Bool) (k : Byte) : (HuffmanTree.leaf 0x41 4).keyAt p = some k → p.length ≤ 256 := by
  cases p <;> simp [HuffmanTree.keyAt, HuffmanTree.follow]

/-- A chain of the given depth to the left (Z8, Z9). -/
def chain : Nat → HuffmanTree
  | 0 => .leaf 0x01 0
  | n + 1 => .node 0 (chain n) (.leaf 0x02 0)

theorem witness_tr_codes_too_deep : (chain 257).keyAt (List.replicate 257 false) = some 0x01 ∧ (List.replicate 257 false).length > 256
    ∧ (chain 256).keyAt (List.replicate 256 false) = some 0x01 ∧ ∀ q, leftOf q (List.replicate 257 false) = false := by
  refine ⟨by decide +kernel, by decide +kernel, by decide +kernel, ?_⟩
  have h : ∀ (n : Nat) (q : List Bool), leftOf q (List.replicate n false) = false := by
    intro n
    induction n with
    | zero => intro q; cases q <;> rfl
    | succ n ih =>
      intro q
      cases q with
      | nil => rfl
      | cons a q => cases a <;> simp [leftOf, List.replicate_succ, ih]
  exact h 257

/-- `DerivedCodesArePrefixFree`: T7's tree. -/
theorem witness_derived_codes :
    let s : State := { State.reset with tree := some (.node 2 (.leaf 0x00 1) (.leaf 0x01 1)) }
    (HuffmanTree.node 2 (.leaf 0x00 1) (.leaf 0x01 1)).isLeaf = false ∧ exec .trCodes s = .next (after .trCodes s)
      ∧ (after .trCodes s).fkind = none := by
  refine ⟨rfl, exec_after (by decide +kernel), by decide +kernel⟩

/-- `TrSerWritesPostorder`, `TreeSerialisationRoundTrip`: T7's tree is a legal tree value. -/
theorem witness_legal_tree : (HuffmanTree.node 2 (.leaf 0x00 1) (.leaf 0x01 1)).Ok ∧ State.reset.tbuf.wf :=
  ⟨⟨by decide, by decide, by decide⟩, by decide⟩

/-- `TrDeserReplaysRecord`: Z5 replays, Z11 underflows at position 1 first; and the bounds of count and index. -/
theorem witness_tr_deser :
    stackHeight (recordMarked (withRecord 3 1 [0x61, 0x00, 0x00])) 3 = 1
    ∧ Underflows (recordMarked (withRecord 3 0xFFFF [0x61, 0x00, 0x62])) 1
    ∧ ¬ Underflows (recordMarked (withRecord 3 0xFFFF [0x61, 0x00, 0x62])) 0
    ∧ ¬ ((withRecord 3 2 []).sli.toInt ≥ (withRecord 3 2 []).nodecnt.toInt)
    ∧ (withRecord 3 3 []).sli.toInt ≥ (withRecord 3 3 []).nodecnt.toInt
    ∧ (withRecord 0x8000 0 []).nodecnt.toInt < 0 ∧ ¬ (withRecord 0x7FFF 0 []).nodecnt.toInt < 0 := by
  refine ⟨by decide +kernel, ⟨⟨0x00, by decide +kernel⟩, by decide +kernel⟩, fun h => ?_, by decide, by decide, by decide, by decide⟩
  obtain ⟨⟨b, hb⟩, -⟩ := h
  revert hb
  have e : (recordMarked (withRecord 3 0xFFFF [0x61, 0x00, 0x62]))[0]? = some (0x61, true) := by decide +kernel
  rw [e]
  simp

/-- `TrDeserReplaysRecord`: no position of Z5's record underflows. -/
theorem witness_no_underflow (i : Nat) : ¬ Underflows (recordMarked (withRecord 3 1 [0x61, 0x00, 0x00])) i := by
  have e : recordMarked (withRecord 3 1 [0x61, 0x00, 0x00]) = [(0x61, true), (0x00, true), (0x00, false)] := by decide +kernel
  rw [e]
  rintro ⟨⟨b, hb⟩, h⟩
  rcases i with _ | _ | _ | i
  · simp at hb
  · simp at hb
  · revert h; decide
  · simp at hb

/-- `TreeSerialisationRoundTrip`, second half: Z5's record, and one with index -2, which comes back as -1 (R168). -/
theorem witness_deser_completes :
    let s := withRecord 3 1 [0x61, 0x00, 0x00]
    let u := withRecord 3 0xFFFE [0x61, 0x62, 0x00]
    s.tbuf.wf ∧ exec .trDeser s = .next (after .trDeser s) ∧ (after .trDeser s).fkind = none
      ∧ (0 ≤ s.sli.toInt ∧ s.tbuf.read s.sli.toNat = 0x00)
      ∧ (after .trDeser u).fkind = none ∧ ¬ 0 ≤ u.sli.toInt ∧ (after .trSer (after .trDeser u)).sli = 0xFFFF := by
  refine ⟨by decide +kernel, exec_after (by decide +kernel), by decide +kernel, by decide +kernel, by decide +kernel,
    by decide +kernel, by decide +kernel⟩

/-- `CkSumClosedForm`: an input of the greatest length, and one of one byte more. -/
theorem witness_ck_sum : ¬ ({ State.reset with ilen := 0x00FFFFFFFFFFFFFF } : State).ilen.toNat > State.reset.cfg.inCap
    ∧ ({ State.reset with ilen := 0x0100000000000000 } : State).ilen.toNat > State.reset.cfg.inCap := by decide

/-- `CnBuildWritesContainer`: an output that just fits, and one that does not. -/
theorem witness_cn_build : State.reset.obuf.wf ∧ ¬ Exceeds (some 34) (28 + 5 + (7 + 7) / 8) ∧ Exceeds (some 33) (28 + 5 + (7 + 7) / 8)
    ∧ ¬ Exceeds (some 1) ((8 + 7) / 8) ∧ Exceeds (some 1) ((9 + 7) / 8) := by decide

/-- `CnParseChecksInOrder`: lengths 27 and 28 (N1, N22). -/
theorem witness_cn_parse : State.reset.tbuf.wf ∧ State.reset.pbuf.wf
    ∧ record .cnParse (withInput (List.replicate 27 0)) = some (some .truncatedLength, 27)
    ∧ record .cnParse (withInput ([0x0D, 0xF0, 0xFE, 0xCA, 0x60, 0x89, 0x7F, 0x55, 0x0C, 0, 0, 0, 0, 0, 0, 0, 0, 0, 0xFF, 0xFF]
        ++ List.replicate 8 0)) = some (none, 0) := by decide +kernel

/-- V4's records. -/
def recordsV4 : State := { withRecord 5 3 [0x61, 0x62, 0x00, 0x00, 0x00] with pbits := 7, pbuf := holding [0x74] }

/-- V4's records are in canonical buffers. -/
theorem witness_records_canonical : BuffersCanonical recordsV4 := by
  intro b
  cases b <;> decide +kernel

/-- `ParseRestoresBuiltRecords`: V4. -/
theorem witness_parse_restores : recordsV4.cfg.InRange ∧ 0 ≤ recordsV4.nodecnt.toInt
    ∧ recordsV4.sli.toInt < recordsV4.nodecnt.toInt ∧ exec .cnBuild recordsV4 = .next (after .cnBuild recordsV4)
    ∧ (after .cnBuild recordsV4).fkind = none ∧ HoldsOutput (after .cnBuild recordsV4) (after .cnBuild recordsV4).obuf
    ∧ (after .cnBuild recordsV4).olen.toNat ≤ recordsV4.cfg.inCap := by
  refine ⟨by decide, by decide, by decide, exec_after (by decide +kernel), by decide +kernel, fun _ _ => rfl, by decide +kernel⟩

/-- `CorruptedByteIsDetected`: V1, its first, seventh, and last content byte. -/
theorem witness_corrupted_byte :
    let s := withInput containerV1
    s.ibuf.wf ∧ exec .cnParse s = .next (after .cnParse s) ∧ (after .cnParse s).fkind = none
      ∧ (0x0C : Byte) ≠ s.ibuf.read 0 ∧ (0x00 : Byte) ≠ s.ibuf.read 7 ∧ (0xBB : Byte) ≠ s.ibuf.read 39
      ∧ 39 < 16 + fieldSum s.ibuf 8 8 ∧ ¬ 40 < 16 + fieldSum s.ibuf 8 8 := by
  refine ⟨by decide +kernel, exec_after (by decide +kernel), by decide +kernel, by decide +kernel, by decide +kernel, by decide +kernel,
    by decide +kernel, by decide +kernel⟩

/-- The tree of T7 with weights 0, and a stream along it. -/
theorem witness_reads : Reads (.node 0 (.leaf 0x00 0) (.leaf 0x01 0)) [false, true, true] [0x00, 0x01, 0x01] [] :=
  ⟨[[false], [true], [true]], rfl, .cons rfl (.cons rfl (.cons rfl .nil)), 0, .leaf 0x00 0, .leaf 0x01 0, rfl⟩

/-- `UpDecodeWalksTree`: an output of just the length, and one byte less. -/
theorem witness_up_decode : State.reset.obuf.wf ∧ ¬ Exceeds (some 3) [(0x00 : Byte), 0x01, 0x01].length
    ∧ Exceeds (some 2) [(0x00 : Byte), 0x01, 0x01].length := by decide

/-- `UpDecodeOfLeafRoot`: three bits of either value along a Leaf (R214). -/
theorem witness_leaf_root :
    let s : State := { State.reset with tree := some (.leaf 0x61 0), pbits := 3, pbuf := holding [0x02] }
    s.obuf.wf ∧ ¬ Exceeds s.cfg.pbCap ((s.pbits.toNat + 7) / 8) ∧ ¬ Exceeds s.cfg.outCap s.pbits.toNat
      ∧ (after .upDecode s).obuf = holding [0x61, 0x61, 0x61] := by
  decide +kernel

/-- `UnpackInvertsPack`: the input `00 01 01` with T7's tree, and its weightless copy. -/
def packT7 : State := { withInput [0x00, 0x01, 0x01] with tree := some (.node 2 (.leaf 0x00 1) (.leaf 0x01 1)) }

theorem witness_unpack_inverts_pack :
    let tr : HuffmanTree := .node 2 (.leaf 0x00 1) (.leaf 0x01 1)
    packT7.tree = some tr ∧ tr.keys.Nodup ∧ tr.unweighted.unweighted = tr.unweighted ∧ (∀ d ∈ inputBytes packT7, d ∈ tr.keys)
      ∧ ¬ Exceeds packT7.cfg.outCap packT7.ilen.toNat ∧ exec .trCodes packT7 = .next (after .trCodes packT7)
      ∧ (after .trCodes packT7).fkind = none
      ∧ (runWhileOk [.pkRst, .pkEncode, .pkFlush] (after .trCodes packT7)).toOption.isSome = true := by
  refine ⟨rfl, by decide, by decide, by decide +kernel, by decide, exec_after (by decide +kernel), by decide +kernel, by decide +kernel⟩

/-- `UnpackInvertsPack`: its buffers are canonical. -/
theorem witness_unpack_canonical : BuffersCanonical packT7 := by
  intro b
  cases b <;> decide +kernel

/-- `CompressCompletesAndLeavesResults`: with bounded buffers that are just large enough. -/
theorem witness_compress_completes :
    let s : State := { withInput [0x61, 0x62] with cfg := { Config.reference with pbCap := some 64, outCap := some 603 } }
    BuffersCanonical s ∧ s.cfg.InRange ∧ 0 < s.ilen.toNat ∧ s.ilen.toNat ≤ s.cfg.inCap ∧ ¬ Exceeds s.cfg.pbCap (32 * s.ilen.toNat)
      ∧ ¬ Exceeds s.cfg.outCap (539 + 32 * s.ilen.toNat) := by
  refine ⟨fun b => ?_, by decide, by decide, by decide, by decide, by decide⟩
  cases b <;> decide +kernel

/-- The input of V6. -/
def inputV6 : State := withInput [0x61, 0x62]

theorem witness_input_canonical : BuffersCanonical inputV6 := by
  intro b
  cases b <;> decide +kernel

/-- `CompressDecompressRoundTrip`: V6. -/
theorem witness_round_trip : inputV6.cfg.InRange ∧ exec .compress inputV6 = .next (after .compress inputV6)
    ∧ (after .compress inputV6).fkind = none ∧ HoldsOutput (after .compress inputV6) (after .compress inputV6).obuf
    ∧ (after .compress inputV6).olen.toNat ≤ inputV6.cfg.inCap ∧ ¬ Exceeds inputV6.cfg.outCap inputV6.ilen.toNat := by
  refine ⟨by decide, exec_after (by decide +kernel), by decide +kernel, fun _ _ => rfl, by decide +kernel, by decide⟩

/-- `CompressIsItsNineCommands`, `DecompressIsItsThreeCommands`: chains that complete. -/
theorem witness_chains :
    (runWhileOk [.fqClr, .fqCount, .trBuild, .trCodes, .pkRst, .pkEncode, .pkFlush, .trSer, .cnBuild] inputV6).toOption.isSome = true
    ∧ (runWhileOk [.cnParse, .trDeser, .upDecode] (withInput containerV4)).toOption.isSome = true ∧ inputV6.ilen ≠ 0 := by
  decide +kernel

/-- `CompressDependsOnInputOnly`: two states that differ beyond the input. -/
theorem witness_input_only :
    let s' : State := { inputV6 with olen := 7, sli := 3, nodecnt := 9, freq := Vector.replicate 256 9, pbuf := holding [9, 9, 9], ibuf := holding [0x61, 0x62, 0x63] }
    (after .compress inputV6).fkind = none ∧ inputV6.ilen ≠ 0 ∧ inputV6.cfg = s'.cfg ∧ inputV6.ilen = s'.ilen ∧ (∀ i, i < inputV6.ilen.toNat → inputV6.ibuf.read i = s'.ibuf.read i)
      ∧ exec .compress inputV6 = .next (after .compress inputV6) ∧ exec .compress s' = .next (after .compress s')
      ∧ BuffersCanonical s' := by
  refine ⟨by decide +kernel, by decide +kernel, rfl, rfl, by decide +kernel, exec_after (by decide +kernel), exec_after (by decide +kernel), fun b => ?_⟩
  cases b <;> decide +kernel

/-- V4's tree with weights 0. -/
def treeV4 : HuffmanTree := .node 0 (.node 0 (.leaf 0x61 0) (.leaf 0x62 0)) (.leaf 0x00 0)

/-- `DecompressUnpacksContainer`: V4. -/
theorem witness_decompress :
    let s := withInput containerV4
    let body := contentBytes recordsV4
    inputBytes s = headerBytes (checksum s.cfg.ck body) body.length ++ body ∧ s.ilen.toNat ≤ s.cfg.inCap
      ∧ ¬ Exceeds s.cfg.pbCap ((recordsV4.pbits.toNat + 7) / 8) ∧ recordMarked recordsV4 = treeV4.listing
      ∧ treeV4.unweighted = treeV4 ∧ payloadBits recordsV4 = [false, false, true, false, true, true, true]
      ∧ ¬ Exceeds s.cfg.outCap 5 := by
  refine ⟨by decide +kernel, by decide +kernel, by decide +kernel, by decide +kernel, by decide, by decide +kernel, by decide +kernel⟩

/-- `DecompressUnpacksContainer`: the reading of V4's payload. -/
theorem witness_decompress_reading :
    Reads treeV4 [false, false, true, false, true, true, true] [0x61, 0x00, 0x62, 0x00, 0x00] [] :=
  ⟨[[false, false], [true], [false, true], [true], [true]], rfl,
    .cons rfl (.cons rfl (.cons rfl (.cons rfl (.cons rfl .nil)))), 0, .node 0 (.leaf 0x61 0) (.leaf 0x62 0), .leaf 0x00 0, rfl⟩

/-- The invariants' statements: a state that meets all of them and steps. -/
theorem witness_invariant : State.Inv { inputV6 with host := [.command 0x00000070] } where
  packer := witness_packer_ok _
  codes := fun sym c h => by
    have e : tableGet inputV6.ct sym = none := by simp [inputV6, withInput, State.reset, tableGet]
    rw [e] at h
    cases h
  tree := fun t h => by cases h
  faultRecord := ⟨fun _ => rfl, fun h => absurd rfl h⟩
  canonical := fun b => witness_input_canonical b
  inBounds := by
    refine ⟨fun b p hp => ?_, rfl⟩
    cases b with
    | ibuf =>
      have h : ∀ p ∈ inputV6.ibuf, p.1 + 1 ≤ 2 := by decide +kernel
      have := h p hp
      have e : overCap (some (2 ^ 56 - 1)) (p.1 + 1) = false := by simp [overCap]; omega
      exact e
    | obuf => cases hp
    | tbuf => cases hp
    | pbuf => cases hp

/-- The invariants' statements: that state's step. -/
theorem witness_invariant_steps : (ran (step { inputV6 with host := [.command 0x00000070] })).isSome = true := by decide +kernel

/-- `ReachableStatesMeetInvariant`: reset is reachable with any accesses to come. -/
theorem witness_reachable : Reachable { State.reset with cfg := Config.reference, host := [.command 0x00000070] } := .reset _ _

/-- `CommandsWriteOnlyTheirState`: a command that writes. -/
theorem witness_frame : exec .upDecode (withPayload treeT1 8 [0xFF]) = .next (after .upDecode (withPayload treeT1 8 [0xFF])) :=
  exec_after (by decide +kernel)

/-- `LittleEndianFields`: the greatest value of two bytes, and one more. -/
theorem witness_little_endian : (holding [1, 2]).wf ∧ 0xFFFF < 256 ^ 2 ∧ ¬ 0x10000 < 256 ^ 2 := by decide +kernel

end Sys2Proof.Tests
end

section
/-! SUPPORT. What a step can do, said once: how a command presented ends, what an access of the ports leaves alone, and the rule by which
every step keeps a property. -/

namespace Sys2Proof.Machine

/-! ## A command presented -/

theorem plain_ok {arg : Byte} {i j : Instr} (h : plain arg i = .ok j) : arg = 0 ∧ j = i := by
  unfold plain at h
  split at h
  · next h0 =>
    cases h
    exact ⟨h0, rfl⟩
  · cases h

/-- The fields that decode to a command are the command's. -/
theorem fields_of_decodeFields {f : CommandFields} {i : Instr} (h : decodeFields f = .ok i) : i.fields = f := by
  obtain ⟨op, arg, rsv⟩ := f
  unfold decodeFields at h
  split at h
  · next hr =>
    dsimp only at hr h
    split at h
    case h_5 | h_7 => cases h; rw [hr]; rfl
    case h_22 => cases h
    all_goals
      obtain ⟨rfl, rfl⟩ := plain_ok h
      rw [hr]; rfl
  · cases h

/-- The word that decodes to a command is the command's. -/
theorem encode_of_decode {w : Word} {i : Instr} (h : decode w = .ok i) : encode i = w :=
  encode_eq_iff.2 (fields_of_decodeFields h).symm

/-- How a presented word ends (spec/30_encoding.md R80, R84; spec/60_exceptions.md R251): its command completed, or a fault was taken. -/
theorem present_next {w : Word} {s t : State} (h : present w s = .next t) :
    (∃ i u, decode w = .ok i ∧ effect i s = .ok u ∧ t = { completed u with reply := .completion none })
      ∨ ∃ f, t = { takeFault s f with reply := .completion (some f.kind) } := by
  unfold present at h
  split at h
  · next i hi =>
    rw [exec_eq_finish] at h
    cases he : effect i s with
    | ok u =>
      rw [he] at h
      cases h
      exact .inl ⟨i, u, hi, he, rfl⟩
    | error f =>
      rw [he] at h
      cases h
      exact .inr ⟨f, rfl⟩
  · cases h
    exact .inr ⟨_, rfl⟩

/-! ## What the ports leave alone -/

/-- What no access of the ports and no fault record writes: the packer, the code table, the tree, `OLEN`, the configuration, and the
buffers but for one byte of one of them, which lies inside it. -/
structure Quiet (s t : State) : Prop where
  pk : t.pk = s.pk
  ct : t.ct = s.ct
  tree : t.tree = s.tree
  olen : t.olen = s.olen
  cfg : t.cfg = s.cfg
  buffers : ∀ b, t.buffer b = s.buffer b
    ∨ ∃ i v, overCap (capacityOf s.cfg b) (i + 1) = false ∧ t.buffer b = (s.buffer b).write i v

/-- The same when no buffer is written either. -/
theorem Quiet.of_buffers {s t : State} (pk : t.pk = s.pk) (ct : t.ct = s.ct) (tree : t.tree = s.tree) (olen : t.olen = s.olen)
    (cfg : t.cfg = s.cfg) (buffers : ∀ b, t.buffer b = s.buffer b) : Quiet s t :=
  ⟨pk, ct, tree, olen, cfg, fun b => .inl (buffers b)⟩

theorem quiet_dropAccess (s : State) : Quiet s (dropAccess s) := .of_buffers rfl rfl rfl rfl rfl fun b => by cases b <;> rfl

theorem quiet_completed (u : State) (r : Reply) : Quiet u { completed u with reply := r } :=
  .of_buffers rfl rfl rfl rfl rfl fun b => by cases b <;> rfl

theorem quiet_takeFault (s : State) (f : Raised) (r : Reply) : Quiet s { takeFault s f with reply := r } :=
  .of_buffers rfl rfl rfl rfl rfl fun b => by cases b <;> rfl

theorem quiet_reply (s : State) (r : Reply) (n : Nat) : Quiet s { s with reply := r, openAnswers := n } :=
  .of_buffers rfl rfl rfl rfl rfl fun b => by cases b <;> rfl

/-- A register write writes register fields alone (spec/10_state.md R22). -/
theorem writeRegister_frame (s : State) (r : Register) (v : DWord) :
    s.writeRegister r v =
      { s with
        ilen := (s.writeRegister r v).ilen, nodecnt := (s.writeRegister r v).nodecnt, sli := (s.writeRegister r v).sli
        pbits := (s.writeRegister r v).pbits, clen := (s.writeRegister r v).clen, cbits := (s.writeRegister r v).cbits } := by
  cases r <;> rfl

theorem buffer_writeRegister (s : State) (r : Register) (v : DWord) (b : Buffer) : (s.writeRegister r v).buffer b = s.buffer b := by
  rw [writeRegister_frame]
  cases b <;> rfl

/-- A buffer after a write of the buffer port: as before, or with one byte of it written. -/
theorem buffer_pokeByte (s : State) (b : HostBuffer) (index : Nat) (v : Byte) (c : Buffer) :
    (s.pokeByte b index v).buffer c = s.buffer c
      ∨ overCap (capacityOf s.cfg c) (index + 1) = false ∧ (s.pokeByte b index v).buffer c = (s.buffer c).write index v := by
  cases hb : bufferHas s b.toBuffer index with
  | false => exact .inl (by rw [pokeByte_absent v hb])
  | true =>
    rw [State.pokeByte.eq_def, if_pos hb]
    by_cases hc : c = b.toBuffer
    · subst hc
      exact .inr ⟨by simpa [bufferHas] using hb, by cases b <;> rfl⟩
    · left
      cases b <;> cases c <;> simp [State.buffer, HostBuffer.toBuffer] at hc ⊢

/-- The fault record's three fields are as before (spec/47_system.md R244). -/
structure SameRecord (s t : State) : Prop where
  fkind : t.fkind = s.fkind
  finfo : t.finfo = s.finfo
  fsticky : t.fsticky = s.fsticky

/-- An access of the register, table or buffer port is answered, is quiet and keeps the fault record. -/
theorem portAccess_quiet {a : HostAccess} {s t : State} (h : hostAccess a s = .next t) (hc : ∀ w, a ≠ .command w)
    (hr : a ≠ .hardReset) : Quiet s t ∧ SameRecord s t := by
  cases a with
  | command w => exact absurd rfl (hc w)
  | hardReset => exact absurd rfl hr
  | readReg n =>
    cases h
    exact ⟨quiet_reply s _ _, rfl, rfl, rfl⟩
  | readFreq sym =>
    cases h
    exact ⟨quiet_reply s _ _, rfl, rfl, rfl⟩
  | readCode sym =>
    obtain ⟨r, n, e⟩ := readEntry_frame s sym
    cases h
    rw [e]
    exact ⟨quiet_reply s r n, rfl, rfl, rfl⟩
  | readByte b i =>
    obtain ⟨r, n, e⟩ := peekByte_frame s b i
    cases h
    rw [e]
    exact ⟨quiet_reply s r n, rfl, rfl, rfl⟩
  | writeFreq sym v =>
    cases h
    exact ⟨.of_buffers rfl rfl rfl rfl rfl fun b => by cases b <;> rfl, rfl, rfl, rfl⟩
  | writeReg n v =>
    cases h
    have e := writeRegister_frame s (Register.ofNumber n) v
    have eb := buffer_writeRegister s (Register.ofNumber n) v
    generalize s.writeRegister (Register.ofNumber n) v = u at e eb
    exact ⟨.of_buffers (congrArg State.pk e :) (congrArg State.ct e :) (congrArg State.tree e :) (congrArg State.olen e :)
      (congrArg State.cfg e :) fun b => by rw [← eb b]; cases b <;> rfl,
      (congrArg State.fkind e :), (congrArg State.finfo e :), (congrArg State.fsticky e :)⟩
  | writeByte b i v =>
    cases h
    have e := pokeByte_frame s b i v
    have eb := buffer_pokeByte s b i v
    generalize s.pokeByte b i v = u at e eb
    refine ⟨⟨(congrArg State.pk e :), (congrArg State.ct e :), (congrArg State.tree e :), (congrArg State.olen e :),
      (congrArg State.cfg e :), fun c => ?_⟩, (congrArg State.fkind e :), (congrArg State.finfo e :), (congrArg State.fsticky e :)⟩
    have same : State.buffer { u with reply := .written } c = u.buffer c := by cases c <;> rfl
    rw [same]
    exact (eb c).imp_right fun h => ⟨i, v, h⟩

/-! ## One step -/

/-- With an access to take, the step is that access. -/
theorem step_of_host {s : State} {a : HostAccess} {rest : List HostAccess} (h : s.host = a :: rest) :
    step s = hostAccess a (dropAccess s) := by
  rw [step, h]

/-- Everything a step can do. -/
inductive StepCase (s : State) : State → Prop where
  /-- The block waits (spec/60_exceptions.md R270). -/
  | waits : StepCase s s
  /-- A command completes. -/
  | completes {w : Word} {i : Instr} {rest : List HostAccess} {u : State} (taken : s.host = .command w :: rest)
      (word : encode i = w) (done : effect i (dropAccess s) = .ok u) : StepCase s { completed u with reply := .completion none }
  /-- A command faults, or the word is no command's. -/
  | faults (f : Raised) : StepCase s { takeFault (dropAccess s) f with reply := .completion (some f.kind) }
  /-- A port is accessed. -/
  | port {t : State} (quiet : Quiet (dropAccess s) t) (record : SameRecord s t) : StepCase s t
  /-- Hardware reset (spec/70_reset_and_hazards.md R280). -/
  | hardReset {rest : List HostAccess} (taken : s.host = .hardReset :: rest) :
      StepCase s { resetBlock (dropAccess s) with reply := .none }

theorem step_cases {s t : State} (h : step s = .next t) : StepCase s t := by
  cases hs : s.host with
  | nil =>
    rw [step, hs] at h
    cases h
    exact .waits
  | cons a rest =>
    rw [step_of_host hs] at h
    by_cases hc : ∃ w, a = .command w
    · obtain ⟨w, rfl⟩ := hc
      rcases present_next h with ⟨i, u, hi, hu, rfl⟩ | ⟨f, rfl⟩
      · exact .completes hs (encode_of_decode hi) hu
      · exact .faults f
    · by_cases hr : a = .hardReset
      · subst hr
        cases h
        exact .hardReset hs
      · obtain ⟨quiet, fkind, finfo, fsticky⟩ := portAccess_quiet h (fun w e => hc ⟨w, e⟩) hr
        exact .port quiet ⟨fkind, finfo, fsticky⟩

/-- A property that the ports and the fault record do not touch, and that every command's effect keeps, is kept by every step. -/
theorem step_keeps {P : State → Prop} (quiet : ∀ {s t}, Quiet s t → P s → P t)
    (run : ∀ {i s u}, effect i s = .ok u → P s → P u) {s t : State} (h : step s = .next t) (hs : P s) : P t := by
  have hd : P (dropAccess s) := quiet (quiet_dropAccess s) hs
  cases step_cases h with
  | waits => exact hs
  | completes _ _ done => exact quiet (quiet_completed _ _) (run done hd)
  | faults f => exact quiet (quiet_takeFault _ f _) hd
  | port q _ => exact quiet q hd
  | hardReset _ => exact quiet (quiet_reply _ _ _) (run (i := .reset) rfl hd)

end Sys2Proof.Machine
end

section
/-! SUPPORT. What the effect of every command leaves alone, and what it keeps of the invariants of Safety.lean. -/

namespace Sys2Proof.Machine

/-! ## The entry points -/

/-- `COMPRESS` completed: nothing to do, or its chain (spec/46_entry_points.md R230). -/
theorem compress_ok {s u : State} (h : compress s = .ok u) : u = { s with olen := 0 } ∨ compressChain s = .ok u := by
  simp only [compress, raise_eq] at h
  split at h
  · cases h
  · split at h
    · cases h
      exact .inl rfl
    · exact .inr h

/-- `DECOMPRESS` completed: nothing to do, or its chain (R231). -/
theorem decompress_ok {s u : State} (h : decompress s = .ok u) :
    u = { s with olen := 0, tail := false } ∨ decompressChain s = .ok u := by
  simp only [decompress, raise_eq] at h
  split at h
  · cases h
  · split at h
    · cases h
      exact .inl rfl
    · exact .inr h

/-! ## Frames -/

/-- What a command's effect leaves alone, piece by piece of the state, each with the commands that may write it (spec/10_state.md R23 to
R45, "Written by"). -/
structure EffectFrame (i : Instr) (s u : State) : Prop where
  cfg : u.cfg = s.cfg
  host : u.host = s.host
  reply : u.reply = s.reply
  openAnswers : u.openAnswers = s.openAnswers
  fsticky : i ∉ [Instr.reset, .clrf] → u.fsticky = s.fsticky
  ilen : i ∉ [Instr.reset] → u.ilen = s.ilen
  clen : i ∉ [Instr.reset] → u.clen = s.clen
  cbits : i ∉ [Instr.reset] → u.cbits = s.cbits
  ibuf : i ∉ [Instr.reset] → u.ibuf = s.ibuf
  tail : i ∉ [Instr.reset, .upDecode, .decompress] → u.tail = s.tail
  olen : i ∉ [Instr.reset, .cnBuild, .upDecode, .compress, .decompress] → u.olen = s.olen
  obuf : i ∉ [Instr.reset, .cnBuild, .upDecode, .compress, .decompress] → u.obuf = s.obuf
  nodecnt : i ∉ [Instr.reset, .trSer, .cnParse, .compress, .decompress] → u.nodecnt = s.nodecnt
  sli : i ∉ [Instr.reset, .trSer, .cnParse, .compress, .decompress] → u.sli = s.sli
  tbuf : i ∉ [Instr.reset, .trSer, .cnParse, .compress, .decompress] → u.tbuf = s.tbuf
  pbits : i ∉ [Instr.reset, .pkFlush, .cnParse, .compress, .decompress] → u.pbits = s.pbits
  pbuf : i ∉ [Instr.reset, .pkFlush, .cnParse, .compress, .decompress] → u.pbuf = s.pbuf
  pk : i ∉ [Instr.reset, .pkRst, .pkEncode, .compress] → (∀ y, i ≠ .pkAppend y) → u.pk = s.pk
  cksum : i ∉ [Instr.reset, .ckSum, .cnBuild, .cnParse, .compress, .decompress] → u.cksum = s.cksum
  ct : i ∉ [Instr.reset, .ctClr, .trCodes, .compress] → (∀ y, i ≠ .ctLoad y) → u.ct = s.ct
  freq : i ∉ [Instr.reset, .fqClr, .fqCount, .compress] → u.freq = s.freq
  tree : i ∉ [Instr.reset, .trBuild, .trDeser, .compress, .decompress] → u.tree = s.tree

/-- Every command's effect keeps to its frame. -/
theorem effect_frame {i : Instr} {s u : State} (h : effect i s = .ok u) : EffectFrame i s u := by
  cases i
  case nop | reset | clrf | ctClr | pkRst | pkFlush | fqClr =>
    cases h
    constructor <;> simp
  case ctLoad sym =>
    obtain ⟨-, rfl⟩ := ctLoad_ok h
    constructor <;> simp
  case pkAppend sym =>
    obtain ⟨_, -, h⟩ := pkAppend_ok h
    obtain ⟨-, -, rfl⟩ := packBits_ok h
    constructor <;> simp
  case pkEncode =>
    obtain ⟨-, _, -, h⟩ := pkEncode_ok h
    obtain ⟨-, -, rfl⟩ := packBits_ok h
    constructor <;> simp
  case fqCount =>
    obtain ⟨-, -, rfl⟩ := fqCount_ok h
    constructor <;> simp
  case trBuild =>
    obtain ⟨_, rfl, -⟩ := trBuild_ok h
    constructor <;> simp
  case trCodes =>
    obtain ⟨_, -, -, rfl⟩ := trCodes_ok h
    constructor <;> simp
  case trSer =>
    obtain ⟨_, -, rfl⟩ := trSer_ok h
    constructor <;> simp
  case trDeser =>
    obtain ⟨-, -, _, -, rfl⟩ := trDeser_ok h
    constructor <;> simp
  case ckSum =>
    obtain ⟨-, rfl⟩ := ckSum_ok h
    constructor <;> simp
  case cnBuild =>
    obtain ⟨-, -, -, rfl⟩ := cnBuild_ok h
    constructor <;> simp
  case cnParse =>
    obtain ⟨-, -, -, -, -, h⟩ := cnParse_ok h
    obtain ⟨_, _, _, -, -, -, -, -, -, -, rfl⟩ := parseRegion_ok h
    constructor <;> simp
  case upDecode =>
    obtain ⟨_, -, -, -, rfl⟩ := upDecode_ok h
    constructor <;> simp
  case compress =>
    rcases compress_ok h with rfl | h
    · constructor <;> simp
    · obtain ⟨_, _, _, _, _, _, _, _, _, _, _, _, rfl⟩ := compressChain_frame h
      constructor <;> simp
  case decompress =>
    rcases decompress_ok h with rfl | h
    · constructor <;> simp
    · obtain ⟨_, _, _, _, _, _, _, _, _, _, rfl⟩ := decompressChain_frame h
      constructor <;> simp

/-! ## The packer, the code table, the tree -/

/-- Bits appended within both limits of spec/41_packer.md R123 keep the packer's invariants. -/
theorem Packer.Ok.putBits {cap : Option Nat} {p : Packer} (hp : p.Ok cap) {bits : List Bool}
    (small : p.bitcnt.toNat + bits.length < 2 ^ 64) (fits : overCap cap (ceil8 (p.bitcnt.toNat + bits.length)) = false) :
    (p.putBits bits).Ok cap := by
  obtain ⟨ok, count, -⟩ := Packer.putBits_spec hp bits small
  exact ⟨ok.wholeBytes, ok.highBitsZero, by rw [count]; exact fits⟩

/-- The packer the chain of `COMPRESS` leaves. -/
theorem ChainFacts.packer {s : State} (f : ChainFacts s) : (Packer.fresh.putBits f.bits).Ok s.cfg.pbCap := by
  have zero : Packer.fresh.bitcnt.toNat + f.bits.length = f.bits.length := Nat.zero_add _
  exact (Packer.fresh_ok _).putBits (by rw [zero]; exact f.small) (by rw [zero]; exact f.fits)

theorem packBits_packerOk {s u : State} {bits : List Bool} (h : packBits s bits.length bits = .ok u)
    (hp : s.pk.Ok s.cfg.pbCap) : u.pk.Ok u.cfg.pbCap := by
  obtain ⟨small, fits, rfl⟩ := packBits_ok h
  exact hp.putBits small fits

/-- The chain of `COMPRESS`, completed, leaves what its facts say in the packer, the code table and the tree. -/
theorem compressChain_results {s u : State} (h : compressChain s = .ok u) :
    ∃ f : ChainFacts s, u.cfg = s.cfg ∧ u.pk = Packer.fresh.putBits f.bits ∧ u.ct = writeCodes emptyCodes f.tr.codes
      ∧ u.tree = some f.tr := by
  obtain ⟨f, h, -⟩ := compressChain_facts h
  obtain ⟨-, -, -, rfl⟩ := cnBuild_ok h
  exact ⟨f, rfl, rfl, rfl, rfl⟩

/-- Every command keeps the packer's invariants (spec/10_state.md R41). -/
theorem effect_packerOk {i : Instr} {s u : State} (h : effect i s = .ok u) (hp : s.pk.Ok s.cfg.pbCap) : u.pk.Ok u.cfg.pbCap := by
  have frame := effect_frame h
  cases i
  case reset =>
    cases h
    exact Packer.fresh_ok _
  case pkRst =>
    cases h
    exact Packer.fresh_ok _
  case pkAppend sym =>
    obtain ⟨c, -, h⟩ := pkAppend_ok h
    exact packBits_packerOk h hp
  case pkEncode =>
    obtain ⟨-, codes, found, h⟩ := pkEncode_ok h
    rw [(flatten_codes (lookupCodes_ok found)).2] at h
    exact packBits_packerOk h hp
  case compress =>
    rcases compress_ok h with rfl | h
    · exact hp
    · obtain ⟨f, cfg, pk, -, -⟩ := compressChain_results h
      rw [cfg, pk]
      exact f.packer
  all_goals
    rw [frame.pk (by simp) (by simp), frame.cfg]
    exact hp

theorem codesOk_emptyCodes : CodesOk emptyCodes := fun sym c h => by simp at h

/-- Every command keeps the code table's invariants (R35). -/
theorem effect_codesOk {i : Instr} {s u : State} (h : effect i s = .ok u) (hc : CodesOk s.ct) : CodesOk u.ct := by
  have frame := effect_frame h
  cases i
  case reset =>
    cases h
    exact codesOk_emptyCodes
  case ctClr =>
    cases h
    exact codesOk_emptyCodes
  case ctLoad sym =>
    obtain ⟨hlen, rfl⟩ := ctLoad_ok h
    intro y c hy
    rw [tableGet_tableSet] at hy
    split at hy
    · next e =>
      cases hy
      exact ⟨e.symm, by simpa [stagedBits] using hlen⟩
    · exact hc y c hy
  case trCodes =>
    obtain ⟨t, -, deep, rfl⟩ := trCodes_ok h
    exact codesOk_writeCodes deep
  case compress =>
    rcases compress_ok h with rfl | h
    · exact hc
    · obtain ⟨f, -, -, ct, -⟩ := compressChain_results h
      rw [ct]
      exact codesOk_writeCodes (HuffmanTree.tooDeep_eq_none (f.built.depth_le.trans (by decide)))
  all_goals
    rw [frame.ct (by simp) (by simp)]
    exact hc

/-- A tree held that is a good one. -/
theorem treeOk_of_some {u : State} {t : HuffmanTree} (h : u.tree = some t) (ok : t.Ok) : TreeOk u := by
  intro t' h'
  cases h.symm.trans h'
  exact ok

theorem treeOk_congr {s u : State} (h : u.tree = s.tree) (hs : TreeOk s) : TreeOk u := fun t ht => hs t (h ▸ ht)

theorem trDeser_treeOk {s u : State} (h : trDeser s = .ok u) : TreeOk u := by
  obtain ⟨count, -, t, ht, rfl⟩ := trDeser_ok h
  exact treeOk_of_some rfl (ok_of_replay count ht)

/-- Every command keeps the invariants of the tree held (R33, R37, R40). -/
theorem effect_treeOk {i : Instr} {s u : State} (h : effect i s = .ok u) (ht : TreeOk s) : TreeOk u := by
  have frame := effect_frame h
  cases i
  case reset =>
    cases h
    intro t ht
    cases ht
  case trBuild =>
    obtain ⟨t, rfl, built⟩ := trBuild_ok h
    exact treeOk_of_some rfl built.ok
  case trDeser => exact trDeser_treeOk h
  case compress =>
    rcases compress_ok h with rfl | h
    · exact ht
    · obtain ⟨f, -, -, -, tree⟩ := compressChain_results h
      exact treeOk_of_some tree f.built.ok
  case decompress =>
    rcases decompress_ok h with rfl | h
    · exact ht
    · obtain ⟨a, b, -, deser, decode⟩ := decompressChain_ok h
      have kept : u.tree = b.tree := (effect_frame (i := .upDecode) decode).tree (by simp)
      exact treeOk_congr kept (trDeser_treeOk deser)
  all_goals exact treeOk_congr (frame.tree (by simp)) ht

/-! ## The buffers and `OLEN` -/

/-- A buffer of `u` is the same buffer of `s` written over from its first byte on; the bytes fit when the packer and the tree held are
good. -/
def WrittenOver (s u : State) (b : Buffer) : Prop :=
  ∃ bs, u.buffer b = (s.buffer b).writeBytes 0 bs
    ∧ (s.pk.Ok s.cfg.pbCap → TreeOk s → overCap (capacityOf s.cfg b) bs.length = false)

theorem writtenOver_of_eq {s u : State} {b : Buffer} (h : u.buffer b = s.buffer b) : WrittenOver s u b :=
  ⟨[], h, fun _ _ => overCap_eq_false.2 fun _ _ => Nat.zero_le _⟩

theorem toNat_ofNat_le (w n : Nat) : (BitVec.ofNat w n).toNat ≤ n := by
  rw [BitVec.toNat_ofNat]
  exact Nat.mod_le _ _

/-- The container fits `OBUF`, and `OLEN` is its length. -/
theorem cnBuild_obuf {s u : State} (h : cnBuild s = .ok u) :
    ∃ bs, u.obuf = s.obuf.writeBytes 0 bs ∧ overCap s.cfg.outCap bs.length = false ∧ u.olen.toNat ≤ bs.length := by
  obtain ⟨-, -, fits, hu⟩ := cnBuild_ok h
  have length : (containerBytes s).length = 28 + s.nodecnt.toInt.toNat + ceil8 s.pbits.toNat := by
    rw [length_containerBytes, length_content]
    omega
  refine ⟨containerBytes s, by rw [hu], by rw [length]; exact fits, ?_⟩
  rw [hu, length_containerBytes]
  exact toNat_ofNat_le _ _

/-- The decoded bytes fit `OBUF`, and `OLEN` is their number. -/
theorem upDecode_obuf {s u : State} (h : upDecode s = .ok u) :
    ∃ bs, u.obuf = s.obuf.writeBytes 0 bs ∧ overCap s.cfg.outCap bs.length = false ∧ u.olen.toNat ≤ bs.length := by
  obtain ⟨_, -, -, fits, rfl⟩ := upDecode_ok h
  exact ⟨_, rfl, fits, toNat_ofNat_le _ _⟩

theorem length_slice_le (bs : List Byte) (a n : Nat) : (slice bs a n).length ≤ n := by
  simp [slice]

/-- The records `CN.PARSE` writes fit `TBUF` and `PBUF`. -/
theorem cnParse_records {s u : State} (h : cnParse s = .ok u) :
    ∃ tb pb, u.tbuf = s.tbuf.writeBytes 0 tb ∧ tb.length ≤ Config.nodeCap ∧ u.pbuf = s.pbuf.writeBytes 0 pb
      ∧ overCap s.cfg.pbCap pb.length = false := by
  obtain ⟨-, -, -, -, -, h⟩ := cnParse_ok h
  obtain ⟨n, _, _, -, -, -, count, -, -, fits, rfl⟩ := parseRegion_ok h
  have small := (Half.toInt_of_nonneg count).2
  refine ⟨_, _, rfl, (length_slice_le _ _ _).trans ?_, rfl, overCap_mono (length_slice_le _ _ _) fits⟩
  rw [Config.nodeCap]
  omega

theorem overCap_nodeCap {n : Nat} (h : n ≤ Config.nodeCap) : overCap (some Config.nodeCap) n = false :=
  overCap_eq_false.2 fun _ e => by cases e; exact h

theorem length_listing_fst (t : HuffmanTree) : (t.listing.map Prod.fst).length = t.nodes := by simp

theorem compressChain_writtenOver {s u : State} (h : compressChain s = .ok u) (b : Buffer) : WrittenOver s u b := by
  obtain ⟨f, build, -⟩ := compressChain_facts h
  have frame : EffectFrame .cnBuild (serialised s f.tr f.fq f.bits) u := effect_frame build
  cases b with
  | ibuf => exact writtenOver_of_eq (frame.ibuf (by simp))
  | obuf =>
    obtain ⟨bs, obuf, fits, -⟩ := cnBuild_obuf build
    exact ⟨bs, obuf, fun _ _ => fits⟩
  | tbuf =>
    refine ⟨_, frame.tbuf (by simp), fun _ _ => overCap_nodeCap ?_⟩
    rw [length_listing_fst]
    exact f.built.ok.small
  | pbuf =>
    refine ⟨_, frame.pbuf (by simp), fun _ _ => ?_⟩
    rw [Packer.length_bytes f.packer]
    exact f.packer.fits

theorem decompressChain_writtenOver {s u : State} (h : decompressChain s = .ok u) (b : Buffer) : WrittenOver s u b := by
  obtain ⟨a, c, parse, deser, decode⟩ := decompressChain_ok h
  obtain ⟨tb, pb, tbuf, small, pbuf, fits⟩ := cnParse_records parse
  have f₁ : EffectFrame .cnParse s a := effect_frame parse
  have f₂ : EffectFrame .trDeser a c := effect_frame deser
  have f₃ : EffectFrame .upDecode c u := effect_frame decode
  cases b with
  | ibuf => exact writtenOver_of_eq ((f₃.ibuf (by simp)).trans ((f₂.ibuf (by simp)).trans (f₁.ibuf (by simp))))
  | obuf =>
    obtain ⟨bs, obuf, fits, -⟩ := upDecode_obuf decode
    rw [f₂.obuf (by simp), f₁.obuf (by simp)] at obuf
    rw [f₂.cfg, f₁.cfg] at fits
    exact ⟨bs, obuf, fun _ _ => fits⟩
  | tbuf => exact ⟨tb, (f₃.tbuf (by simp)).trans ((f₂.tbuf (by simp)).trans tbuf), fun _ _ => overCap_nodeCap small⟩
  | pbuf => exact ⟨pb, (f₃.pbuf (by simp)).trans ((f₂.pbuf (by simp)).trans pbuf), fun _ _ => fits⟩

/-- The commands that may write a buffer (R42 to R45). -/
def bufferWriters : Buffer → List Instr
  | .ibuf => [.reset]
  | .obuf => [.reset, .cnBuild, .upDecode, .compress, .decompress]
  | .tbuf => [.reset, .trSer, .cnParse, .compress, .decompress]
  | .pbuf => [.reset, .pkFlush, .cnParse, .compress, .decompress]

theorem EffectFrame.buffer {i : Instr} {s u : State} (frame : EffectFrame i s u) {b : Buffer} (h : i ∉ bufferWriters b) :
    u.buffer b = s.buffer b := by
  cases b with
  | ibuf => exact frame.ibuf h
  | obuf => exact frame.obuf h
  | tbuf => exact frame.tbuf h
  | pbuf => exact frame.pbuf h

theorem compress_writtenOver {s u : State} (h : compress s = .ok u) (b : Buffer) : WrittenOver s u b := by
  rcases compress_ok h with rfl | h
  · exact writtenOver_of_eq (by cases b <;> rfl)
  · exact compressChain_writtenOver h b

theorem decompress_writtenOver {s u : State} (h : decompress s = .ok u) (b : Buffer) : WrittenOver s u b := by
  rcases decompress_ok h with rfl | h
  · exact writtenOver_of_eq (by cases b <;> rfl)
  · exact decompressChain_writtenOver h b

/-- Every command but `RESET` writes its buffers from the first byte on (R42 to R45, R258). -/
theorem effect_writtenOver {i : Instr} {s u : State} (h : effect i s = .ok u) (hi : i ≠ .reset) (b : Buffer) : WrittenOver s u b := by
  by_cases hw : i ∈ bufferWriters b
  · cases b with
    | ibuf => exact absurd (List.mem_singleton.1 hw) hi
    | obuf =>
      simp only [bufferWriters, List.mem_cons, hi, List.not_mem_nil, or_false, false_or] at hw
      rcases hw with rfl | rfl | rfl | rfl
      · obtain ⟨bs, obuf, fits, -⟩ := cnBuild_obuf h
        exact ⟨bs, obuf, fun _ _ => fits⟩
      · obtain ⟨bs, obuf, fits, -⟩ := upDecode_obuf h
        exact ⟨bs, obuf, fun _ _ => fits⟩
      · exact compress_writtenOver h _
      · exact decompress_writtenOver h _
    | tbuf =>
      simp only [bufferWriters, List.mem_cons, hi, List.not_mem_nil, or_false, false_or] at hw
      rcases hw with rfl | rfl | rfl | rfl
      · obtain ⟨t, held, rfl⟩ := trSer_ok h
        exact ⟨_, rfl, fun _ ht => overCap_nodeCap (by rw [length_listing_fst]; exact (ht t held).small)⟩
      · obtain ⟨tb, _, tbuf, small, -, -⟩ := cnParse_records h
        exact ⟨tb, tbuf, fun _ _ => overCap_nodeCap small⟩
      · exact compress_writtenOver h _
      · exact decompress_writtenOver h _
    | pbuf =>
      simp only [bufferWriters, List.mem_cons, hi, List.not_mem_nil, or_false, false_or] at hw
      rcases hw with rfl | rfl | rfl | rfl
      · cases h
        exact ⟨s.pk.bytes, rfl, fun hp _ => by rw [Packer.length_bytes hp]; exact hp.fits⟩
      · obtain ⟨_, pb, -, -, pbuf, fits⟩ := cnParse_records h
        exact ⟨pb, pbuf, fun _ _ => fits⟩
      · exact compress_writtenOver h _
      · exact decompress_writtenOver h _
  · exact writtenOver_of_eq ((effect_frame h).buffer hw)

end Sys2Proof.Machine
end

section
/-! SUPPORT. The buffers' bounds and canonical form, the fault record, and the whole invariant: kept by every step. -/

namespace Sys2Proof.Machine

/-! ## Bounds -/

theorem Memory.write_within {cap : Option Nat} {m : Memory} (hm : ∀ p ∈ m, overCap cap (p.1 + 1) = false) {i : Nat} (v : Byte)
    (hi : overCap cap (i + 1) = false) : ∀ p ∈ m.write i v, overCap cap (p.1 + 1) = false := by
  intro p hp
  rcases Memory.mem_write hp with ⟨rfl, -⟩ | hp
  · exact hi
  · exact hm p hp

theorem Memory.writeBytes_within {cap : Option Nat} {m : Memory} (hm : ∀ p ∈ m, overCap cap (p.1 + 1) = false) {bs : List Byte}
    (fits : overCap cap bs.length = false) : ∀ p ∈ m.writeBytes 0 bs, overCap cap (p.1 + 1) = false := by
  intro p hp
  rcases Memory.mem_writeBytes hp with ⟨-, hp⟩ | hp
  · exact overCap_mono (by omega) fits
  · exact hm p hp

theorem Quiet.inBounds {s t : State} (q : Quiet s t) (h : BuffersInBounds s) : BuffersInBounds t := by
  obtain ⟨bytes, olen⟩ := h
  refine ⟨fun b => ?_, by rw [q.cfg, q.olen]; exact olen⟩
  rw [q.cfg]
  rcases q.buffers b with e | ⟨i, v, hi, e⟩
  · rw [e]
    exact bytes b
  · rw [e]
    exact Memory.write_within (bytes b) v hi

/-- Every command keeps `OLEN` within `OUT_CAP` (spec/10_state.md R26, R43). -/
theorem effect_olen {i : Instr} {s u : State} (h : effect i s = .ok u) (ho : overCap s.cfg.outCap s.olen.toNat = false) :
    overCap s.cfg.outCap u.olen.toNat = false := by
  have zero : overCap s.cfg.outCap (0 : DWord).toNat = false := overCap_eq_false.2 fun _ _ => Nat.zero_le _
  have frame := effect_frame h
  cases i
  case reset =>
    cases h
    exact zero
  case cnBuild =>
    obtain ⟨bs, -, fits, le⟩ := cnBuild_obuf h
    exact overCap_mono le fits
  case upDecode =>
    obtain ⟨bs, -, fits, le⟩ := upDecode_obuf h
    exact overCap_mono le fits
  case compress =>
    rcases compress_ok h with rfl | h
    · exact zero
    · obtain ⟨f, build, -⟩ := compressChain_facts h
      obtain ⟨bs, -, fits, le⟩ := cnBuild_obuf build
      exact overCap_mono le fits
  case decompress =>
    rcases decompress_ok h with rfl | h
    · exact zero
    · obtain ⟨a, c, parse, deser, decode⟩ := decompressChain_ok h
      obtain ⟨bs, -, fits, le⟩ := upDecode_obuf decode
      rw [(effect_frame (i := .trDeser) deser).cfg, (effect_frame (i := .cnParse) parse).cfg] at fits
      exact overCap_mono le fits
  all_goals
    rw [frame.olen (by simp)]
    exact ho

/-- With a good packer and a good tree every command keeps the buffers' bounds (R42 to R45, spec/60_exceptions.md R258). -/
theorem effect_inBounds {i : Instr} {s u : State} (h : effect i s = .ok u) (hp : s.pk.Ok s.cfg.pbCap) (ht : TreeOk s)
    (hb : BuffersInBounds s) : BuffersInBounds u := by
  obtain ⟨bytes, olen⟩ := hb
  have cfg := (effect_frame h).cfg
  refine ⟨fun b => ?_, by rw [cfg]; exact effect_olen h olen⟩
  by_cases hi : i = .reset
  · subst hi
    cases h
    cases b <;> exact fun _ h => absurd h List.not_mem_nil
  · obtain ⟨bs, e, fits⟩ := effect_writtenOver h hi b
    rw [e, cfg]
    exact Memory.writeBytes_within (bytes b) (fits hp ht)

/-! ## Canonical form -/

theorem Quiet.canonical {s t : State} (q : Quiet s t) (h : BuffersCanonical s) : BuffersCanonical t := by
  intro b
  rcases q.buffers b with e | ⟨i, v, -, e⟩
  · rw [e]
    exact h b
  · rw [e]
    exact Memory.wf_write (h b) i v

/-- Every command keeps the buffers' canonical form. -/
theorem effect_canonical {i : Instr} {s u : State} (h : effect i s = .ok u) (hc : BuffersCanonical s) : BuffersCanonical u := by
  intro b
  by_cases hi : i = .reset
  · subst hi
    cases h
    cases b <;> exact Memory.wf_nil
  · obtain ⟨bs, e, -⟩ := effect_writtenOver h hi b
    rw [e]
    exact Memory.wf_writeBytes (hc b) 0 bs

/-! ## Steps -/

variable {s t : State}

theorem step_packerOk (h : step s = .next t) (hp : s.pk.Ok s.cfg.pbCap) : t.pk.Ok t.cfg.pbCap :=
  step_keeps (P := fun s => s.pk.Ok s.cfg.pbCap) (fun q hs => by rw [q.pk, q.cfg]; exact hs) effect_packerOk h hp

theorem step_codesOk (h : step s = .next t) (hc : CodesOk s.ct) : CodesOk t.ct :=
  step_keeps (P := fun s => CodesOk s.ct) (fun q hs => by rw [q.ct]; exact hs) effect_codesOk h hc

theorem step_treeOk (h : step s = .next t) (ht : TreeOk s) : TreeOk t :=
  step_keeps (fun q => treeOk_congr q.tree) effect_treeOk h ht

theorem step_canonical (h : step s = .next t) (hc : BuffersCanonical s) : BuffersCanonical t :=
  step_keeps Quiet.canonical effect_canonical h hc

/-- The bounds need the packer and the tree held to be good, so the three are kept together. -/
structure Bounded (s : State) : Prop where
  packer : s.pk.Ok s.cfg.pbCap
  tree : TreeOk s
  inBounds : BuffersInBounds s

theorem Quiet.bounded (q : Quiet s t) (h : Bounded s) : Bounded t where
  packer := by
    rw [q.pk, q.cfg]
    exact h.packer
  tree := treeOk_congr q.tree h.tree
  inBounds := q.inBounds h.inBounds

theorem effect_bounded {i : Instr} (h : effect i s = .ok t) (hs : Bounded s) : Bounded t where
  packer := effect_packerOk h hs.packer
  tree := effect_treeOk h hs.tree
  inBounds := effect_inBounds h hs.packer hs.tree hs.inBounds

theorem step_bounded (h : step s = .next t) (hs : Bounded s) : Bounded t := step_keeps Quiet.bounded effect_bounded h hs

theorem State.Inv.bounded (h : s.Inv) : Bounded s := ⟨h.packer, h.tree, h.inBounds⟩

/-- Every step keeps the fault record consistent (spec/60_exceptions.md R251). -/
theorem step_faultRecordOk (h : step s = .next t) (hs : FaultRecordOk s) : FaultRecordOk t := by
  cases step_cases h with
  | waits => exact hs
  | completes _ _ _ => exact ⟨fun _ => rfl, fun h => absurd rfl h⟩
  | faults f => exact ⟨fun h => absurd h (by simp), fun _ => rfl⟩
  | port _ record =>
    rw [FaultRecordOk, record.fkind, record.finfo, record.fsticky]
    exact hs
  | hardReset _ => exact ⟨fun _ => rfl, fun h => absurd rfl h⟩

/-- Every step keeps the whole invariant. -/
theorem step_inv (h : step s = .next t) (hs : s.Inv) : t.Inv where
  packer := step_packerOk h hs.packer
  codes := step_codesOk h hs.codes
  tree := step_treeOk h hs.tree
  faultRecord := step_faultRecordOk h hs.faultRecord
  canonical := step_canonical h hs.canonical
  inBounds := (step_bounded h hs.bounded).inBounds

/-- After a reset the whole invariant holds (spec/10_state.md R55), whatever the model's own fields. -/
theorem resetBlock_inv (s : State) : (resetBlock s).Inv where
  packer := Packer.fresh_ok _
  codes := codesOk_emptyCodes
  tree := fun t h => by cases h
  faultRecord := ⟨fun _ => rfl, fun h => absurd rfl h⟩
  canonical := fun b => by cases b <;> exact Memory.wf_nil
  inBounds := ⟨fun b => by cases b <;> exact fun _ h => absurd h List.not_mem_nil, overCap_eq_false.2 fun _ _ => Nat.zero_le _⟩

theorem Reachable.inv (h : Reachable s) : s.Inv := by
  induction h with
  | reset cfg host => exact resetBlock_inv { State.reset with cfg := cfg, host := host }
  | step _ next ih => exact step_inv next ih

end Sys2Proof.Machine

/-- Settles O52: only `PK.RST`, `PK.APPEND`, `PK.ENCODE`, `COMPRESS` and the resets write the packer, and each keeps it. -/
theorem stepKeepsPackerInvariant : Obligations.StepKeepsPackerInvariant :=
  fun _ _ hs h => Sys2Proof.Machine.step_packerOk h hs

/-- Settles O53: the codes written are staged ones of at most 256 bits, or those of a tree with no leaf too deep. -/
theorem stepKeepsCodeTableInvariant : Obligations.StepKeepsCodeTableInvariant :=
  fun _ _ hs h => Sys2Proof.Machine.step_codesOk h hs

/-- Settles O54: the trees a command leaves are the one held before, a built one and a replayed one. -/
theorem stepKeepsTreeInvariant : Obligations.StepKeepsTreeInvariant :=
  fun _ _ hs h => Sys2Proof.Machine.step_treeOk h hs

/-- Settles O56: a command writes a buffer from its first byte on, after its capacity check or by a length the packer's and the tree's
invariants bound. -/
theorem stepKeepsAccessesInBounds : Obligations.StepKeepsAccessesInBounds :=
  fun _ _ hs h => (Sys2Proof.Machine.step_bounded h hs.bounded).inBounds

/-- Settles O57, by induction on the run. -/
theorem reachableStatesMeetInvariant : Obligations.ReachableStatesMeetInvariant := fun _ => Sys2Proof.Machine.Reachable.inv

/-- Settles O50: the configuration does not enter the reset state's invariants. -/
theorem resetMeetsInvariant : Obligations.ResetMeetsInvariant :=
  fun cfg => Sys2Proof.Machine.resetBlock_inv { Sys2Proof.Machine.State.reset with cfg := cfg }
end

section
/-! SUPPORT. The register port register by register (spec/10_state.md R22), `STATUS` bit by bit (R23), and which command may clear the
sticky flag. -/

namespace Sys2Proof.Machine

open Sys2Proof.Claims

/-! ## The register port -/

@[simp] theorem number_ofNumber (n : BitVec 4) : (Register.ofNumber n).number = n := by
  obtain ⟨k, hk⟩ := n
  interval_cases k <;> rfl

/-- The port reads by number what it reads by name (R22). -/
theorem registerValue_number (s : State) (r : Register) : registerValue s r.number = s.readRegister r := by
  cases r <;> rfl

theorem registerValue_eq (s : State) (n : BitVec 4) : registerValue s n = s.readRegister (Register.ofNumber n) := by
  rw [← registerValue_number, number_ofNumber]

theorem ofNumber_inj {m n : BitVec 4} : Register.ofNumber m = Register.ofNumber n ↔ m = n :=
  ⟨fun h => by rw [← number_ofNumber m, h, number_ofNumber], fun h => by rw [h]⟩

theorem setWidth_halves (v : DWord) : (v.setWidth 16).setWidth 64 = BitVec.ofNat 64 (v.toNat % 2 ^ 16) := by
  apply BitVec.eq_of_toNat_eq
  simp

theorem ofNat_mod_width (v : DWord) : v = BitVec.ofNat 64 (v.toNat % 2 ^ 64) := by
  rw [Nat.mod_eq_of_lt v.isLt, BitVec.ofNat_toNat, BitVec.setWidth_eq]

/-- A write to a register the host cannot write is ignored. -/
theorem writeRegister_ignored (s : State) {r : Register} (v : DWord) (h : writableWidth r.number = none) :
    s.writeRegister r v = s := by
  cases r
  case ilen | nodecnt | sli | pbits | clen | cbits0 | cbits1 | cbits2 | cbits3 => cases h
  all_goals rfl

/-- A register written reads back the low bits of its width. -/
theorem readRegister_writeRegister_same (s : State) {r : Register} (v : DWord) {width : Nat}
    (h : writableWidth r.number = some width) :
    (s.writeRegister r v).readRegister r = BitVec.ofNat 64 (v.toNat % 2 ^ width) := by
  cases r <;> cases h
  case nodecnt | sli | clen => exact setWidth_halves v
  case ilen | pbits => exact ofNat_mod_width v
  all_goals
    rw [← ofNat_mod_width]
    exact Vector.getElem_set_self _

theorem status_writeRegister (s : State) (r : Register) (v : DWord) : (s.writeRegister r v).status = s.status := by
  cases r <;> rfl

theorem tnodes_writeRegister (s : State) (r : Register) (v : DWord) : (s.writeRegister r v).tnodes = s.tnodes := by
  cases r <;> rfl

/-- A register write leaves what every other register reads. -/
theorem readRegister_writeRegister_other (s : State) {r q : Register} (v : DWord) (h : q ≠ r) :
    (s.writeRegister r v).readRegister q = s.readRegister q := by
  cases q
  case status => exact congrArg (BitVec.setWidth 64) (status_writeRegister s r v)
  case tnodes => exact congrArg (BitVec.setWidth 64) (tnodes_writeRegister s r v)
  all_goals cases r <;> simp [State.writeRegister, State.readRegister] at h ⊢

/-- Every register after a write through the port (R22). -/
theorem registerValue_writeRegister (s : State) (n m : BitVec 4) (v : DWord) :
    registerValue (s.writeRegister (Register.ofNumber n) v) m =
      match writableWidth n with
      | some width => if m = n then BitVec.ofNat 64 (v.toNat % 2 ^ width) else registerValue s m
      | none => registerValue s m := by
  rw [registerValue_eq, registerValue_eq]
  cases hw : writableWidth n with
  | none => rw [writeRegister_ignored s v (by rw [number_ofNumber]; exact hw)]
  | some width =>
    dsimp only
    split
    · next e =>
      subst e
      exact readRegister_writeRegister_same s v (by rw [number_ofNumber]; exact hw)
    · next ne => exact readRegister_writeRegister_other s v fun e => ne (ofNumber_inj.1 e)

theorem registerValue_reset (n : BitVec 4) : registerValue State.reset n = if n = 5 then 0xFFFF else 0 := by
  obtain ⟨k, hk⟩ := n
  interval_cases k <;> rfl

/-! ## `STATUS` -/

theorem rootLeaf_eq (s : State) :
    s.rootLeaf = match s.tree with
      | some (.leaf _ _) => true
      | _ => false := by
  unfold State.rootLeaf
  rcases s.tree with _ | (_ | _) <;> rfl

/-- `STATUS` bit by bit: the four flags, and from bit 8 on the fault code. -/
theorem getLsbD_status (s : State) (i : Nat) :
    s.status.getLsbD i = match i with
      | 0 => s.treeValid
      | 1 => s.rootLeaf
      | 2 => s.tail
      | 3 => s.fsticky
      | j + 4 => decide (4 ≤ j) && (faultCode s.fkind).getLsbD (j - 4) := by
  change BitVec.getLsbD (w := 16 + 8 + 4 + 1 + 1 + 1 + 1) (((((0 : BitVec 16) ++ faultCode s.fkind) ++ (0 : BitVec 4))
    ++ BitVec.ofBool s.fsticky) ++ BitVec.ofBool s.tail ++ BitVec.ofBool s.rootLeaf ++ BitVec.ofBool s.treeValid) i = _
  simp only [BitVec.getLsbD_append]
  rcases i with _ | _ | _ | _ | j
  case succ.succ.succ.succ =>
    by_cases hj : j < 4
    · simp [hj]
    · simp [hj, Nat.not_lt.1 hj]
      exact BitVec.lt_of_getLsbD
  all_goals simp

theorem status_ranges (s : State) :
    s.status.extractLsb' 4 4 = 0 ∧ s.status.extractLsb' 8 8 = faultCode s.fkind ∧ s.status.extractLsb' 16 16 = 0 := by
  have high (j : Nat) : s.status.getLsbD (4 + j) = (decide (4 ≤ j) && (faultCode s.fkind).getLsbD (j - 4)) := by
    rw [Nat.add_comm]
    exact getLsbD_status s (j + 4)
  refine ⟨?_, ?_, ?_⟩ <;> apply BitVec.eq_of_getLsbD_eq <;> intro i hi <;> rw [BitVec.getLsbD_extractLsb']
  · simp [high, hi]
  · simp [show 8 + i = 4 + (4 + i) by omega, high, hi]
  · simp [show 16 + i = 4 + (12 + i) by omega, high, show 12 + i - 4 = 8 + i by omega]

/-! ## The sticky flag -/

/-- A command that ends with the sticky flag clear, when it was set before, is `RESET` or `CLRF`. -/
theorem effect_clears_sticky {i : Instr} {s u : State} (h : effect i s = .ok u) (hs : s.fsticky = true) (hu : u.fsticky = false) :
    i = .reset ∨ i = .clrf := by
  by_contra hi
  have kept := (effect_frame h).fsticky (by simpa using hi)
  rw [hs, hu] at kept
  cases kept

/-- A step that clears the sticky flag takes `CLRF`, `RESET` or hardware reset. -/
theorem step_clears_sticky {s t : State} (h : step s = .next t) (hs : s.fsticky = true) (ht : t.fsticky = false) :
    ∃ rest, s.host = .command (encode .clrf) :: rest ∨ s.host = .command (encode .reset) :: rest ∨ s.host = .hardReset :: rest := by
  cases step_cases h with
  | waits =>
    rw [hs] at ht
    cases ht
  | @completes w i rest u taken word done =>
    subst word
    rcases effect_clears_sticky done hs ht with rfl | rfl
    · exact ⟨rest, .inr (.inl taken)⟩
    · exact ⟨rest, .inl taken⟩
  | faults f => cases ht
  | port _ record =>
    rw [record.fsticky, hs] at ht
    cases ht
  | @hardReset rest taken => exact ⟨rest, .inr (.inr taken)⟩

/-- A presented command that leaves a fault kind leaves the sticky flag set. -/
theorem present_sets_sticky {w : Word} {s t : State} (h : present w s = .next t) (ht : t.fkind ≠ none) : t.fsticky = true := by
  rcases present_next h with ⟨_, _, -, -, rfl⟩ | ⟨f, rfl⟩
  · exact absurd rfl ht
  · rfl

end Sys2Proof.Machine

section
open Sys2Proof Sys2Proof.Machine Sys2Proof.Claims

/-- Settles O7: register by register, through the number each has. -/
theorem registerPortReadsAndWrites : Obligations.RegisterPortReadsAndWrites := by
  refine ⟨registerValue_reset, fun s n rest => ⟨fun h => ?_, fun v h => ?_⟩⟩
  · rw [step_of_host h, registerValue_eq, dropAccess, h]
    rfl
  · refine ⟨_, step_of_host h, fun m => registerValue_writeRegister (dropAccess s) n m v, ?_⟩
    rw [dropAccess, h, writeRegister_frame]
    rfl

/-- Settles O16: a step by its cases, and the word of the command that clears the flag. -/
theorem stickyFlagClearedOnlyByThree : Obligations.StickyFlagClearedOnlyByThree := by
  refine ⟨fun s t w rest hw h => ?_, fun s t h hs ht => step_clears_sticky h hs ht⟩
  rw [step_of_host hw] at h
  exact present_sets_sticky h

/-- Settles O11: the field positions of the concatenation. -/
theorem statusWordFields : Obligations.StatusWordFields := by
  intro s
  exact ⟨getLsbD_status s 0, (getLsbD_status s 1).trans (rootLeaf_eq s), getLsbD_status s 2, getLsbD_status s 3, status_ranges s⟩

/-- Settles O58: a completed command keeps to the frame of its effect, a faulting one writes the fault record. -/
theorem commandsWriteOnlyTheirState : Obligations.CommandsWriteOnlyTheirState := by
  intro i s t h
  rcases exec_next h with ⟨u, done, rfl⟩ | ⟨f, -, rfl⟩
  · have frame := effect_frame done
    refine ⟨frame.cfg, frame.host, frame.reply, frame.openAnswers, ?_⟩
    by_cases hr : i = .reset
    · exact .inl hr
    have add {l : List Instr} (h : i ∉ l) : i ∉ Instr.reset :: l := fun m => (List.mem_cons.1 m).elim hr h
    have kept := add List.not_mem_nil
    exact .inr ⟨frame.ilen kept, frame.clen kept, frame.cbits kept, frame.ibuf kept, fun h => frame.tail (add h),
      fun h => ⟨frame.olen (add h), frame.obuf (add h)⟩,
      fun h => ⟨frame.nodecnt (add h), frame.sli (add h), frame.tbuf (add h)⟩,
      fun h => ⟨frame.pbits (add h), frame.pbuf (add h)⟩, fun h => frame.pk (add h), fun h => frame.cksum (add h),
      fun h => frame.ct (add h), fun h => frame.freq (add h), fun h => frame.tree (add h)⟩
  · simp

/-- Settles O18: both resets are `resetBlock`, which is R55's list field by field. -/
theorem resetRestoresEveryValue : Obligations.ResetRestoresEveryValue := by
  intro s
  have status : State.reset.status = 0 := by decide
  refine ⟨completed (resetBlock s), rfl, rfl, status, rfl, fun b i => ?_, fun rest h => ⟨.none, ?_⟩, rfl⟩
  · cases b <;> rfl
  · rw [step_of_host h, dropAccess, h]
    rfl

end
end

section
/-! SUPPORT. The step for a word presented and for each access of the buffer port, and a little-endian field byte by byte
(spec/20_memory.md R60, R61, R67, R70). -/

namespace Sys2Proof.Machine

open Sys2Proof.Claims

/-! ## The access taken -/

theorem dropAccess_of_host {s : State} {a : HostAccess} {rest : List HostAccess} (h : s.host = a :: rest) :
    dropAccess s = { s with host := rest } := by
  rw [dropAccess, h, List.tail_cons]

/-- With an access to take, the step is that access on the state in which it is taken. -/
theorem step_takes {s : State} {a : HostAccess} {rest : List HostAccess} (h : s.host = a :: rest) :
    step s = hostAccess a { s with host := rest } := by
  rw [step_of_host h, dropAccess_of_host h]

@[simp] theorem buffer_withHost (s : State) (rest : List HostAccess) (b : Buffer) :
    ({ s with host := rest } : State).buffer b = s.buffer b := by
  cases b <;> rfl

@[simp] theorem buffer_withReply (s : State) (r : Reply) (b : Buffer) : ({ s with reply := r } : State).buffer b = s.buffer b := by
  cases b <;> rfl

/-! ## A command presented -/

/-- Every command ends in a next state (spec/70_reset_and_hazards.md R292). -/
theorem exec_answers (i : Instr) (s : State) : ∃ t, exec i s = .next t := by
  rw [exec_eq_finish]
  cases effect i s with
  | ok u => exact ⟨completed u, rfl⟩
  | error f => exact ⟨takeFault s f, rfl⟩

/-- A legal word presented is its command's meaning, answered with the completion result. -/
theorem present_of_decode {w : Word} {i : Instr} (h : decode w = .ok i) (s : State) : present w s = answered (exec i s) := by
  rw [present, h]

/-! ## The buffer port -/

theorem bufferHas_eq_true {s : State} {b : Buffer} {index : Nat} :
    bufferHas s b index = true ↔ ¬ Exceeds (capacityOf s.cfg b) (index + 1) := by
  simp [bufferHas]

theorem bufferHas_eq_false {s : State} {b : Buffer} {index : Nat} :
    bufferHas s b index = false ↔ Exceeds (capacityOf s.cfg b) (index + 1) := by
  simp [bufferHas]

theorem peekByte_present {s : State} {b : Buffer} {index : Nat} (h : bufferHas s b index = true) :
    s.peekByte b index = { s with reply := .byte ((s.buffer b).read index) } := by
  rw [State.peekByte, if_pos h]

theorem peekByte_absent {s : State} {b : Buffer} {index : Nat} (h : bufferHas s b index = false) :
    s.peekByte b index =
      { s with reply := .byte (Config.freeByte s.openAnswers), openAnswers := s.openAnswers + 1 } := by
  rw [State.peekByte, h]
  rfl

/-! ## Little-endian fields -/

/-- The value of a byte sequence is the sum of its bytes, each at its place. -/
theorem leValue_eq_sum (f : Nat → Byte) (n : Nat) :
    leValue ((List.range n).map f) = ((List.range n).map fun k => (f k).toNat * 256 ^ k).sum := by
  induction n with
  | zero => rfl
  | succ n ih => simp [List.range_succ, leValue_append, leValue, ih, Nat.mul_comm]

/-- Byte `k` of a number (R60). -/
theorem toNat_getElem_leBytes (n v k : Nat) (h : k < (leBytes n v).length) :
    ((leBytes n v)[k]).toNat = v / 256 ^ k % 256 := by
  induction n generalizing v k with
  | zero => exact absurd h (Nat.not_lt_zero k)
  | succ n ih =>
    cases k with
    | zero => simp [leBytes]
    | succ k =>
      have hk : k < (leBytes n (v / 256)).length := Nat.lt_of_succ_lt_succ h
      calc ((leBytes n (v / 256))[k]).toNat
        _ = v / 256 / 256 ^ k % 256 := ih (v / 256) k hk
        _ = v / 256 ^ (k + 1) % 256 := by rw [Nat.div_div_eq_div_mul, Nat.pow_succ, Nat.mul_comm]

namespace Memory

theorem readLE_eq_fieldSum (m : Memory) (a n : Nat) : m.readLE a n = fieldSum m a n := by
  rw [Memory.readLE, readBytes_eq_map, leValue_eq_sum, fieldSum]

theorem readLE_lt (m : Memory) (a n : Nat) : m.readLE a n < 256 ^ n := by
  have bound := leValue_lt (m.readBytes a n)
  rwa [length_readBytes] at bound

/-- A field written is read back, to its width. -/
theorem readLE_writeLE {m : Memory} (hm : m.wf) (a n v : Nat) : (m.writeLE a n v).readLE a n = v % 256 ^ n := by
  have bytes := readBytes_writeBytes hm a (leBytes n v)
  rw [length_leBytes] at bytes
  rw [Memory.readLE, Memory.writeLE, bytes, leValue_leBytes]

/-- The bytes of a field after it is written. -/
theorem toNat_read_writeLE_inside {m : Memory} (hm : m.wf) (a n v : Nat) {k : Nat} (h : k < n) :
    ((m.writeLE a n v).read (a + k)).toNat = v / 256 ^ k % 256 := by
  have hk : k < (leBytes n v).length := by rwa [length_leBytes]
  rw [Memory.writeLE, read_writeBytes_inside hm a _ hk, toNat_getElem_leBytes]

theorem read_writeLE_outside (m : Memory) (a n v : Nat) {i : Nat} (h : i < a ∨ a + n ≤ i) :
    (m.writeLE a n v).read i = m.read i :=
  read_writeBytes_outside m a _ (by rwa [length_leBytes])

end Memory

end Sys2Proof.Machine

section
open Sys2Proof Sys2Proof.Machine Sys2Proof.Claims

/-- Settles O51: a command writes a buffer by whole byte sequences, the buffer port one byte, and each write keeps the form. -/
theorem stepKeepsBuffersCanonical : Obligations.StepKeepsBuffersCanonical :=
  fun _ _ hs h => step_canonical h hs

/-- Settles O9, access by access: inside the buffer and beyond it. -/
theorem bufferPortIsPlainStorage : Obligations.BufferPortIsPlainStorage := by
  intro s rest hs
  refine ⟨fun b index h has => ?_, fun b index h beyond => ?_, fun b index v h beyond => ?_, fun b index v h has => ?_⟩
  · rw [step_takes h, hostAccess, peekByte_present (s := { s with host := rest }) (bufferHas_eq_true.2 has), buffer_withHost]
  · refine ⟨Config.freeByte s.openAnswers, s.openAnswers + 1, ?_⟩
    rw [step_takes h, hostAccess, peekByte_absent (s := { s with host := rest }) (bufferHas_eq_false.2 beyond)]
  · rw [step_takes h, hostAccess, pokeByte_absent (s := { s with host := rest }) v (bufferHas_eq_false.2 beyond)]
  · refine ⟨_, step_takes h, fun c i => ?_, ?_⟩
    · have canonical : (({ s with host := rest } : State).buffer c).wf := by rw [buffer_withHost]; exact hs c
      rw [buffer_withReply, read_buffer_pokeByte (s := { s with host := rest }) v (bufferHas_eq_true.2 has) c canonical,
        buffer_withHost]
    · rw [pokeByte_frame]

/-- Settles O59: the field as the bytes at its places. -/
theorem littleEndianFields : Obligations.LittleEndianFields := by
  intro m a n v hm hv
  exact ⟨m.readLE_eq_fieldSum a n, m.readLE_lt a n, Memory.wf_writeBytes hm a _,
    (Memory.readLE_writeLE hm a n v).trans (Nat.mod_eq_of_lt hv),
    fun _ hk => Memory.toNat_read_writeLE_inside hm a n v hk, fun _ hi => m.read_writeLE_outside a n v hi⟩

/-- Settles O5: the step presents the word, and every command answers. -/
theorem stepRunsDecodedCommand : Obligations.StepRunsDecodedCommand := by
  intro s w i rest h hi
  obtain ⟨t, ht⟩ := exec_answers i { s with host := rest }
  refine ⟨t, ht, ?_⟩
  rw [step_takes h, hostAccess, present_of_decode hi, ht]
  rfl

end
end

section
/-! SUPPORT. The fields of every command, the words that are some command's, and a command's row of the opcode table by its fields
(spec/30_encoding.md R81 to R84). -/

namespace Sys2Proof

open Sys2Proof.Claims

/-! ## The fields of a command -/

theorem Instr.fields_rsv (i : Instr) : i.fields.rsv = 0 := by
  cases i <;> rfl

theorem Instr.fields_arg (i : Instr) : i.fields.arg = (symbolOf i).getD 0 := by
  cases i <;> rfl

theorem Instr.fields_op_mem (i : Instr) : i.fields.op ∈ assignedOpcodes := by
  cases i <;> exact List.mem_of_elem_eq_true rfl

/-- Only the two commands that take a symbol have an argument (R81). -/
theorem Instr.fields_op_of_arg_ne_zero {i : Instr} (h : i.fields.arg ≠ 0) : i.fields.op = 0x11 ∨ i.fields.op = 0x21 := by
  cases i
  case ctLoad => exact .inl rfl
  case pkAppend => exact .inr rfl
  all_goals exact absurd rfl h

theorem Instr.wf_eq_true (i : Instr) : i.wf = true := by
  cases i
  case ctLoad s => exact (Laws.WordForm.ctLoad s).1
  case pkAppend s => exact (Laws.WordForm.pkAppend s).1
  all_goals rfl

/-! ## Decoding by fields -/

/-- A word decodes to the command that has its fields. -/
theorem decode_eq_ok_iff {w : Word} {i : Instr} : decode w = .ok i ↔ fieldsOf w = i.fields := by
  constructor
  · exact fun h => (Machine.fields_of_decodeFields h).symm
  · intro h
    rw [decode, h, decodeFields_fields]

@[simp] theorem decode_encode (i : Instr) : decode (encode i) = .ok i :=
  decode_eq_ok_iff.2 (fieldsOf_wordOf _)

/-! ## The illegal words -/

/-- Fields that give none of R84's three causes are some command's. -/
theorem exists_decodeFields_ok {f : CommandFields} (rsv : f.rsv = 0) (op : f.op ∈ assignedOpcodes)
    (arg : f.arg ≠ 0 → f.op = 0x11 ∨ f.op = 0x21) : ∃ i, decodeFields f = .ok i := by
  obtain ⟨o, a, r⟩ := f
  have plain_legal (i : Instr) (symbolless : ¬ (o = 0x11 ∨ o = 0x21)) : ∃ j, plain a i = .ok j :=
    ⟨i, if_pos (by_contra fun ha => symbolless (arg ha))⟩
  rw [decodeFields, if_pos rsv]
  dsimp only at op ⊢
  split
  case h_5 | h_7 => exact ⟨_, rfl⟩
  case h_22 => simp_all [assignedOpcodes]
  all_goals exact plain_legal _ (by decide)

theorem not_illegalWord_of_decode {w : Word} {i : Instr} (h : decode w = .ok i) : ¬ IllegalWord w := by
  change ¬ ((fieldsOf w).rsv ≠ 0 ∨ (fieldsOf w).op ∉ assignedOpcodes
    ∨ (fieldsOf w).arg ≠ 0 ∧ (fieldsOf w).op ≠ 0x11 ∧ (fieldsOf w).op ≠ 0x21)
  rw [decode_eq_ok_iff.1 h]
  rintro (rsv | op | ⟨arg, not11, not21⟩)
  · exact rsv i.fields_rsv
  · exact op i.fields_op_mem
  · exact (Instr.fields_op_of_arg_ne_zero arg).elim not11 not21

theorem exists_decode_of_not_illegalWord {w : Word} (h : ¬ IllegalWord w) : ∃ i, decode w = .ok i := by
  simp only [IllegalWord, not_or, not_and, not_not] at h
  obtain ⟨rsv, op, arg⟩ := h
  exact exists_decodeFields_ok rsv op fun ha => or_iff_not_imp_left.2 (arg ha)

theorem decode_error_of_illegalWord {w : Word} (h : IllegalWord w) : ∃ e, decode w = .error e := by
  cases hd : decode w with
  | ok i => exact absurd h (not_illegalWord_of_decode hd)
  | error e => exact ⟨e, rfl⟩

/-- An illegal word presented raises `IllegalCommand`, answered on the port (R80, R84). -/
theorem present_of_illegalWord {w : Word} (h : IllegalWord w) (s : Machine.State) :
    Machine.present w s
      = .next { faulted s .illegalCommand w.toNat with reply := .completion (some .illegalCommand) } := by
  obtain ⟨e, he⟩ := decode_error_of_illegalWord h
  rw [Machine.present, he]
  rfl

/-! ## The opcode table's rows -/

theorem eq_wordOf_iff {w : Word} {f : CommandFields} : w = wordOf f ↔ fieldsOf w = f :=
  ⟨fun h => h ▸ fieldsOf_wordOf f, fun h => h ▸ (wordOf_fieldsOf w).symm⟩

/-- A row's match word is the command's word without its symbol. -/
theorem matchWord_eq_wordOf (i : Instr) : matchWord i = wordOf ⟨i.fields.op, 0, 0⟩ := by
  cases i
  case ctLoad | pkAppend =>
    dsimp only [matchWord, Instr.fields]
    rfl
  all_goals rfl

/-- The mask of a command that takes a symbol clears the argument and keeps the other fields. -/
theorem fieldsOf_and_symbolMask (w : Word) : fieldsOf (w &&& 0xFFFF00FF) = { fieldsOf w with arg := 0 } := by
  simp only [fieldsOf, BitVec.extractLsb'_and, CommandFields.mk.injEq]
  exact ⟨BitVec.and_allOnes, BitVec.and_zero, BitVec.and_allOnes⟩

/-- A word matches a command's row, and has its symbol, exactly when it has its fields (R83). -/
theorem matches_row_iff (w : Word) (i : Instr) :
    (w &&& maskWord i = matchWord i ∧ ∀ s, symbolOf i = some s → w.extractLsb' 8 8 = s) ↔ fieldsOf w = i.fields := by
  have arg := i.fields_arg
  have rsv := i.fields_rsv
  rw [matchWord_eq_wordOf, eq_wordOf_iff, maskWord]
  generalize i.fields = f at arg rsv ⊢
  obtain ⟨o, a, r⟩ := f
  dsimp only at arg rsv ⊢
  subst arg rsv
  cases symbolOf i with
  | none =>
    have whole : w &&& 0xFFFFFFFF = w := BitVec.and_allOnes
    rw [Option.isSome_none, if_neg Bool.false_ne_true, whole]
    simp
  | some s =>
    rw [Option.isSome_some, if_pos rfl, fieldsOf_and_symbolMask]
    simp only [fieldsOf, CommandFields.mk.injEq, Option.some.injEq, forall_eq', Option.getD_some]
    tauto

end Sys2Proof

section
open Sys2Proof Sys2Proof.Machine Sys2Proof.Claims

/-- Settles O3: a word and its three fields say the same, and each command's fields decode to it alone. -/
theorem decodeEncodeAgree : Obligations.DecodeEncodeAgree :=
  ⟨fun i _ => decode_encode i, fun _ i h => ⟨encode_of_decode h, i.wf_eq_true⟩⟩

/-- Settles O2: decoding and the row both say that the word has the command's fields. -/
theorem maskAndMatchSelectCommand : Obligations.MaskAndMatchSelectCommand :=
  fun w i => decode_eq_ok_iff.trans (matches_row_iff w i).symm

/-- Settles O4: the word decodes to no command, so presenting it raises the fault. -/
theorem illegalWordChangesOnlyFaultRecord : Obligations.IllegalWordChangesOnlyFaultRecord :=
  ⟨fun _ _ _ illegal h => (step_takes h).trans (present_of_illegalWord illegal _),
    fun _ => exists_decode_of_not_illegalWord⟩

/-- Settles O1: each row's word is its command's encoding, and an unassigned opcode makes a word illegal. -/
theorem opcodeMapDecodes : Obligations.OpcodeMapDecodes := by
  refine ⟨decode_encode .nop, decode_encode .reset, decode_encode .clrf, decode_encode .ctClr, fun s => decode_encode (.ctLoad s),
    decode_encode .pkRst, fun s => decode_encode (.pkAppend s), decode_encode .pkEncode, decode_encode .pkFlush,
    decode_encode .fqClr, decode_encode .fqCount, decode_encode .trBuild, decode_encode .trCodes, decode_encode .trSer,
    decode_encode .trDeser, decode_encode .ckSum, decode_encode .cnBuild, decode_encode .cnParse, decode_encode .upDecode,
    decode_encode .compress, decode_encode .decompress, fun w op => ?_⟩
  exact decode_error_of_illegalWord (.inr (.inl op))

end
end

section
/-! SUPPORT. A code as the host sees it: the staged code bit by bit, the layout of R32 bit by bit, and the table port
(spec/10_state.md R32, R35, R36; spec/40_bitsequence.md R111 to R113). -/

namespace Sys2Proof.Machine

open Sys2Proof.Claims

/-! ## The staged code -/

@[simp] theorem length_stagedBits (cbits : Vector DWord 4) (n : Nat) : (stagedBits cbits n).length = n := by
  simp [stagedBits]

theorem getD_stagedBits (cbits : Vector DWord 4) {n j : Nat} (h : j < n) :
    (stagedBits cbits n).getD j false = stagedBit cbits j := by
  simp [stagedBits, h]

/-- Bit `r` of word `q` is bit `64 * q + r` of the staged code (R32). -/
theorem stagedBit_of_place (cbits : Vector DWord 4) {q r : Nat} (hq : q < 4) (hr : r < 64) :
    stagedBit cbits (64 * q + r) = cbits[q].getLsbD r := by
  have word : (64 * q + r) / 64 = q := by omega
  have bit : (64 * q + r) % 64 = r := by omega
  simp [stagedBit, word, bit, hq]

/-! ## `CT.LOAD` -/

theorem ctLoad_of_le {sym : Byte} {s : State} (h : s.clen.toNat ≤ 256) :
    ctLoad sym s = .ok { s with ct := tableSet s.ct sym (some { sym := sym, bits := stagedBits s.cbits s.clen.toNat }) } :=
  if_neg (Nat.not_lt.2 h)

theorem ctLoad_of_gt {sym : Byte} {s : State} (h : s.clen.toNat > 256) :
    ctLoad sym s = raise .limitExceeded s.clen.toNat :=
  if_pos h

/-- A command that raises ends with the fault record written. -/
theorem exec_of_raise {i : Instr} {s : State} {k : FaultKind} {info : Nat} (h : effect i s = raise k info) :
    exec i s = .next (faulted s k info) :=
  exec_of_error h

/-! ## A code in the layout of R32 -/

/-- The sum of the powers of two at the places where `f` holds is the number with these bits. -/
theorem sum_powers_eq_ofBits (f : Nat → Bool) (n : Nat) :
    ((List.range n).map fun r => if f r then 2 ^ r else 0).sum = Nat.ofBits fun r : Fin n => f r := by
  induction n generalizing f with
  | zero => rfl
  | succ n ih =>
    have double (r : Nat) : (if f (r + 1) then 2 ^ (r + 1) else 0) = 2 * if f (r + 1) then 2 ^ r else 0 := by
      split
      · exact Nat.pow_succ'
      · rfl
    have first : (if f 0 then 2 ^ 0 else 0) = (f 0).toNat := by
      cases f 0 <;> rfl
    calc ((List.range (n + 1)).map fun r => if f r then 2 ^ r else 0).sum
      _ = (if f 0 then 2 ^ 0 else 0) + ((List.range n).map fun r => if f (r + 1) then 2 ^ (r + 1) else 0).sum := by
        rw [List.range_succ_eq_map, List.map_cons, List.map_map, List.sum_cons]
        rfl
      _ = (f 0).toNat + 2 * Nat.ofBits fun r : Fin n => f (r + 1) := by
        simp only [first, double, List.sum_map_mul_left, ih fun r => f (r + 1)]
      _ = Nat.ofBits fun r : Fin (n + 1) => f r := by
        rw [Nat.ofBits_succ, Nat.add_comm]
        rfl

/-- Word `q` of a code holds its bits from `64 * q` on, and zeros beyond its length (R113). -/
theorem getLsbD_codeWord (bits : List Bool) (q : Nat) {r : Nat} (hr : r < 64) :
    (codeWord bits q).getLsbD r = bits.getD (64 * q + r) false := by
  rw [codeWord, sum_powers_eq_ofBits fun r => bits.getD (64 * q + r) false, BitVec.getLsbD_ofNat, Nat.testBit_ofBits_lt _ _ hr]
  simp [hr]

theorem getElem_codeWords (bits : List Bool) {q : Nat} (hq : q < 4) : (codeWords bits)[q] = codeWord bits q := by
  match q with
  | 0 | 1 | 2 | 3 => rfl

/-! ## The table port -/

theorem readEntry_of_none {s : State} {sym : Byte} (h : tableGet s.ct sym = none) :
    s.readEntry sym = s.answerOpen fun k => .entry false (Config.freeLength k) (Config.freeWords k) := by
  rw [State.readEntry, h]

theorem readEntry_of_some {s : State} {sym : Byte} {c : BitSequence} (h : tableGet s.ct sym = some c) :
    s.readEntry sym = { s with reply := .entry true (BitVec.ofNat 16 c.bits.length) (codeWords c.bits) } := by
  rw [State.readEntry, h]

end Sys2Proof.Machine

section
open Sys2Proof Sys2Proof.Machine Sys2Proof.Claims

/-- Settles O21: the staged length decides, and bit `64 * q + r` of the code made is bit `r` of `CBITS`'s word `q`. -/
theorem ctLoadBuildsStagedCode : Obligations.CtLoadBuildsStagedCode := by
  intro s sym
  split
  · next long => exact exec_of_raise (i := .ctLoad sym) (ctLoad_of_gt long)
  · next short =>
    refine ⟨_, _, exec_of_ok (i := .ctLoad sym) (ctLoad_of_le (Nat.not_lt.1 short)), tableGet_tableSet_same _ _ _, rfl,
      length_stagedBits _ _, fun q r hq hr hn => ?_, fun y hy => tableGet_tableSet_other _ _ hy, rfl⟩
    rw [getD_stagedBits _ hn, stagedBit_of_place _ hq hr]

/-- Settles O10, access by access: an entry that is `none` and a code read, then a count read and written. -/
theorem tablePortReadsEntries : Obligations.TablePortReadsEntries := by
  intro s sym rest
  refine ⟨fun h empty => ?_, fun c h held small => ?_, fun h => step_takes h, fun v h => ?_⟩
  · refine ⟨Config.freeLength s.openAnswers, Config.freeWords s.openAnswers, s.openAnswers + 1, ?_⟩
    rw [step_takes h, hostAccess, readEntry_of_none (s := { s with host := rest }) empty]
    rfl
  · refine ⟨BitVec.ofNat 16 c.bits.length, codeWords c.bits, ?_, ?_, fun q r hq hr => ?_⟩
    · rw [step_takes h, hostAccess, readEntry_of_some (s := { s with host := rest }) held]
    · exact Nat.mod_eq_of_lt (by omega)
    · rw [getElem_codeWords _ hq, getLsbD_codeWord _ _ hr]
  · exact ⟨_, step_takes h, fun y => tableGet_tableSet s.freq sym y v, rfl⟩

/-- Settles O20: every entry of the empty table is `none`. -/
theorem ctClrEmptiesCodeTable : Obligations.CtClrEmptiesCodeTable :=
  ⟨decode_encode .ctClr, fun s => ⟨_, exec_of_ok (i := .ctClr) (u := ctClr s) rfl, tableGet_emptyCodes, rfl⟩⟩

end
end

section
/-! SUPPORT. The packer as the statements of spec/41_packer.md see it: the packer's bytes bit by bit (R122, R125, R126), each packer
command as one append of bits (R121, R123, R124), and any mixture of them as one append (R126). -/

namespace Sys2Proof.Machine

open Sys2Proof.Claims

/-! ## The number of some bits -/

theorem bitSum_cons (b : Bool) (bits : List Bool) : bitSum (b :: bits) = Nat.bit b (bitSum bits) := by
  have double (x : Bool × Nat) : (if x.1 then 2 ^ (x.2 + 1) else 0) = 2 * if x.1 then 2 ^ x.2 else 0 := by
    split
    · exact Nat.pow_succ'
    · rfl
  simp only [bitSum, List.zipIdx_cons, List.zipIdx_succ, List.map_cons, List.map_map, Function.comp_def, List.sum_cons, double,
    List.sum_map_mul_left]
  cases b <;> simp [Nat.bit, Nat.add_comm]

theorem testBit_bitSum (bits : List Bool) (r : Nat) : (bitSum bits).testBit r = bits.getD r false := by
  induction bits generalizing r with
  | nil => simp [bitSum]
  | cons b bits ih =>
    rw [bitSum_cons]
    cases r with
    | zero => rw [Nat.testBit_bit_zero, List.getD_cons_zero]
    | succ r => rw [Nat.testBit_bit_succ, List.getD_cons_succ, ih]

/-- A byte that holds some bits and zeros beyond them is their number. -/
theorem toNat_eq_bitSum {b : Byte} {bits : List Bool} (short : bits.length ≤ 8)
    (h : ∀ r, r < 8 → b.getLsbD r = bits.getD r false) : b.toNat = bitSum bits := by
  refine Nat.eq_of_testBit_eq fun r => ?_
  rw [testBit_bitSum, ← BitVec.getLsbD]
  rcases Nat.lt_or_ge r 8 with inside | beyond
  · exact h r inside
  · rw [BitVec.getLsbD_of_ge _ _ beyond, List.getD_eq_default _ _ (by omega)]

/-! ## The bits of the packer's bytes -/

theorem streamBit_of_le {bs : List Byte} {k : Nat} (h : 8 * bs.length ≤ k) : streamBit bs k = false := by
  rw [streamBit, List.getD_eq_default _ _ (by omega)]
  exact BitVec.getLsbD_zero

/-- Bit `r` of byte `q` is stream bit `8 * q + r` (spec/20_memory.md R62). -/
theorem streamBit_of_place (bs : List Byte) (q : Nat) {r : Nat} (hr : r < 8) :
    streamBit bs (8 * q + r) = (bs.getD q 0).getLsbD r := by
  rw [streamBit, show (8 * q + r) / 8 = q by omega, show (8 * q + r) % 8 = r by omega]

namespace Packer

section
variable {cap : Option Nat} {p : Packer} (hp : p.Ok cap)
include hp

/-- The completed bytes and the partial byte hold the stream, and zeros beyond it. -/
theorem streamBit_buf_part (k : Nat) : streamBit (p.buf ++ [p.part]) k = p.stream.getD k false := by
  have whole := hp.wholeBytes
  rcases Nat.lt_or_ge k p.bitcnt.toNat with inside | beyond
  · have hk : k < p.stream.length := by rwa [length_stream]
    rw [List.getD_eq_getElem _ _ hk, getElem_stream]
  · rw [List.getD_eq_default _ _ (by rwa [length_stream])]
    rcases Nat.lt_or_ge k (8 * (p.buf.length + 1)) with last | outside
    · rw [streamBit, getD_append_singleton _ _ (by omega), if_neg (by omega), high_bit_zero hp (by omega)]
    · exact streamBit_of_le (by simpa using outside)

/-- The flushed bytes hold the stream, and zeros beyond it (R125). -/
theorem streamBit_bytes_eq_stream (k : Nat) : streamBit p.bytes k = p.stream.getD k false := by
  have whole := hp.wholeBytes
  rcases Nat.lt_or_ge k p.bitcnt.toNat with inside | beyond
  · rw [streamBit_bytes hp k inside, streamBit_buf_part hp]
  · rw [← streamBit_buf_part hp, Packer.bytes]
    split
    · rfl
    · next aligned =>
      rw [streamBit_buf_part hp, List.getD_eq_default _ _ (by rwa [length_stream])]
      exact streamBit_of_le (by rw [List.append_nil]; omega)

/-- Byte `q` of the completed bytes and the partial byte is the number of the stream's bits from `8 * q` on, at most eight. -/
theorem toNat_buf_part (q : Nat) :
    ((p.buf ++ [p.part]).getD q 0).toNat = bitSum ((p.stream.drop (8 * q)).take 8) := by
  refine toNat_eq_bitSum (List.length_take_le _ _) fun r hr => ?_
  rw [← streamBit_of_place _ _ hr, streamBit_buf_part hp]
  simp [List.getD_eq_getElem?_getD, hr]

/-- A completed byte is the number of its eight bits of the stream (R126). -/
theorem toNat_buf {q : Nat} (h : q < p.buf.length) : (p.buf.getD q 0).toNat = bitSum ((p.stream.drop (8 * q)).take 8) := by
  rw [← toNat_buf_part hp, getD_append_singleton _ _ h.le, if_pos h]

/-- The partial byte is the number of the stream's bits after the completed bytes (R126). -/
theorem toNat_part : p.part.toNat = bitSum (p.stream.drop (8 * p.buf.length)) := by
  have whole := hp.wholeBytes
  have last := toNat_buf_part hp p.buf.length
  rwa [getD_append_singleton _ _ le_rfl, if_neg (lt_irrefl _), List.take_of_length_le (by rw [List.length_drop, length_stream]; omega)] at last

section
variable {m : Memory} (hm : m.wf) {k : Nat}
include hm

/-- The buffer a packer was flushed to holds the stream, and zeros beyond it up to a whole byte (R125). -/
theorem bitRead_flushed (h : k < 8 * ((p.bitcnt.toNat + 7) / 8)) : (m.writeBytes 0 p.bytes).bitRead k = p.stream.getD k false := by
  rw [bitRead_writeBytes hm _ (by rw [length_bytes hp, ceil8_eq]; omega), streamBit_bytes_eq_stream hp]

theorem getElem?_stream_flushed (h : k < p.bitcnt.toNat) : p.stream[k]? = some ((m.writeBytes 0 p.bytes).bitRead k) := by
  have hk : k < p.stream.length := by rwa [length_stream]
  rw [bitRead_flushed hp hm (by omega), List.getElem?_eq_getElem hk, List.getD_eq_getElem _ _ hk]

theorem bitRead_flushed_pad (beyond : p.bitcnt.toNat ≤ k) (h : k < 8 * ((p.bitcnt.toNat + 7) / 8)) :
    (m.writeBytes 0 p.bytes).bitRead k = false := by
  rw [bitRead_flushed hp hm h, List.getD_eq_default _ _ (by rwa [length_stream])]

end

end

/-- A fresh packer that was given bits which fit holds these bits. -/
theorem fresh_putBits {cap : Option Nat} {bits : List Bool} (small : bits.length < 2 ^ 64) (fits : overCap cap (ceil8 bits.length) = false) :
    (fresh.putBits bits).Ok cap ∧ (fresh.putBits bits).bitcnt.toNat = bits.length ∧ (fresh.putBits bits).stream = bits := by
  have empty : fresh.bitcnt.toNat + bits.length = bits.length := Nat.zero_add _
  obtain ⟨-, count, stream⟩ := putBits_spec (fresh_ok cap) bits (empty.symm ▸ small)
  exact ⟨(fresh_ok cap).putBits (empty.symm ▸ small) (empty.symm ▸ fits), count.trans empty, stream⟩

end Packer

/-! ## One append -/

section
variable {i : Instr} {s : State} {bits : List Bool} (effect_eq : effect i s = packBits s bits.length bits)
include effect_eq

theorem exec_of_packBits_fits (small : s.pk.bitcnt.toNat + bits.length < 2 ^ 64)
    (fits : overCap s.cfg.pbCap (ceil8 (s.pk.bitcnt.toNat + bits.length)) = false) :
    exec i s = .next (completed { s with pk := s.pk.putBits bits }) :=
  exec_of_ok (effect_eq.trans ((if_neg (Nat.not_le.2 small)).trans (if_neg (Bool.not_eq_true _ ▸ fits))))

/-- The two refusals of R123 in their order; `P` is what is said of an append that fits. -/
theorem exec_of_packBits_checks {P : Prop}
    (made : s.pk.bitcnt.toNat + bits.length < 2 ^ 64 → overCap s.cfg.pbCap (ceil8 (s.pk.bitcnt.toNat + bits.length)) = false → P) :
    if s.pk.bitcnt.toNat + bits.length ≥ 2 ^ 64 then exec i s = .next (faulted s .overflow 3)
    else if Exceeds s.cfg.pbCap ((s.pk.bitcnt.toNat + bits.length + 7) / 8) then exec i s = .next (faulted s .capacity 4)
    else P := by
  rw [← ceil8_eq]
  split
  · next large => exact exec_of_raise (effect_eq.trans (if_pos large))
  · next small =>
    split
    · next full => exact exec_of_raise (effect_eq.trans ((if_neg small).trans (if_pos full)))
    · next fits => exact made (Nat.not_le.1 small) (Bool.not_eq_true _ ▸ fits)

end

/-! ## The packer commands as appends -/

theorem input_eq_inputBytes (s : State) : s.input = inputBytes s := by
  simp [State.input, inputBytes, Memory.readBytes_eq_map]

/-- `PK.APPEND` of a symbol that has a code. -/
theorem pkAppend_of_code {s : State} {sym : Byte} {c : BitSequence} (h : tableGet s.ct sym = some c) :
    pkAppend sym s = packBits s c.bits.length c.bits := by
  rw [pkAppend, h]

theorem pkAppend_of_none {s : State} {sym : Byte} (h : tableGet s.ct sym = none) :
    pkAppend sym s = raise .missingCode sym.toNat := by
  rw [pkAppend, h]

/-- `PK.ENCODE` with a code for every input byte. -/
theorem pkEncode_of_codes {s : State} (short : s.ilen.toNat ≤ s.cfg.inCap) (h : ∀ b ∈ inputBytes s, tableGet s.ct b ≠ none) :
    pkEncode s = packBits s (codeBits s.ct (inputBytes s)).length (codeBits s.ct (inputBytes s)) := by
  obtain ⟨codes, found⟩ := lookupCodes_total h 0
  obtain ⟨bits, total⟩ := flatten_codes (lookupCodes_ok found)
  rw [pkEncode, if_neg (State.not_inputTooLong.2 short), input_eq_inputBytes, found, ← bits, ← total]

/-- The input around one of its bytes. -/
theorem inputBytes_eq_append (s : State) {i : Nat} (h : i < s.ilen.toNat) :
    ∃ post, inputBytes s = ((List.range i).map fun j => s.ibuf.read j) ++ s.ibuf.read i :: post := by
  obtain ⟨n, len⟩ : ∃ n, s.ilen.toNat = i + (1 + n) := ⟨s.ilen.toNat - (i + 1), by omega⟩
  rw [inputBytes, len, List.range_add, List.map_append, Nat.add_comm 1, List.range_succ_eq_map]
  exact ⟨_, rfl⟩

/-- `PK.ENCODE` reports the first input byte that has no code, and its index. -/
theorem pkEncode_of_none {s : State} (short : s.ilen.toNat ≤ s.cfg.inCap) {i : Nat} (hi : i < s.ilen.toNat)
    (h : tableGet s.ct (s.ibuf.read i) = none) (first : ∀ j, j < i → tableGet s.ct (s.ibuf.read j) ≠ none) :
    pkEncode s = raise .missingCode ((s.ibuf.read i).toNat + 256 * i) := by
  obtain ⟨post, input⟩ := inputBytes_eq_append s hi
  have coded : ∀ b ∈ (List.range i).map fun j => s.ibuf.read j, tableGet s.ct b ≠ none := by
    simpa using first
  have detail : (s.ibuf.read i).toNat ||| i <<< 8 = (s.ibuf.read i).toNat + 256 * i := by
    rw [Nat.or_comm, ← Nat.shiftLeft_add_eq_or_of_lt (s.ibuf.read i).isLt, Nat.shiftLeft_eq]
    omega
  rw [pkEncode, if_neg (State.not_inputTooLong.2 short), input_eq_inputBytes, input, lookupCodes_missing coded h, List.length_map,
    List.length_range, Nat.zero_add, detail]
  rfl

theorem codeBits_append (ct : Vector (Option BitSequence) Config.symbolCount) (xs ys : List Byte) :
    codeBits ct (xs ++ ys) = codeBits ct xs ++ codeBits ct ys :=
  List.flatMap_append

theorem codeBits_singleton {ct : Vector (Option BitSequence) Config.symbolCount} {sym : Byte} {c : BitSequence}
    (h : tableGet ct sym = some c) : codeBits ct [sym] = c.bits := by
  simp [codeBits, h]

/-- A command of a mixture appends the codes of its symbols. -/
theorem effect_packCommand {s : State} {op : Option Byte} (short : s.ilen.toNat ≤ s.cfg.inCap)
    (h : ∀ sym ∈ packSymbols s op, tableGet s.ct sym ≠ none) :
    effect (packCommand op) s
      = packBits s (codeBits s.ct (packSymbols s op)).length (codeBits s.ct (packSymbols s op)) := by
  cases op with
  | none => exact pkEncode_of_codes short h
  | some sym =>
    obtain ⟨c, code⟩ := Option.ne_none_iff_exists'.1 (h sym (List.mem_singleton_self sym))
    rw [packSymbols, codeBits_singleton code]
    exact pkAppend_of_code code

theorem runAll_cons_of_next {i : Instr} {is : List Instr} {s t : State} (h : exec i s = .next t) :
    runAll (i :: is) s = runAll is t := by
  rw [runAll, h]

/-- A mixture of packer commands whose bits fit is one append of the bits of all of them (R126). -/
theorem runAll_packCommands {s : State} {ops : List (Option Byte)} (hp : s.pk.Ok s.cfg.pbCap) (short : s.ilen.toNat ≤ s.cfg.inCap)
    (coded : ∀ op ∈ ops, ∀ sym ∈ packSymbols s op, tableGet s.ct sym ≠ none)
    (small : s.pk.bitcnt.toNat + (codeBits s.ct (ops.flatMap (packSymbols s))).length < 2 ^ 64)
    (fits : overCap s.cfg.pbCap (ceil8 (s.pk.bitcnt.toNat + (codeBits s.ct (ops.flatMap (packSymbols s))).length)) = false) :
    ∃ t, runAll (ops.map packCommand) s = some t
      ∧ completed t = completed { s with pk := s.pk.putBits (codeBits s.ct (ops.flatMap (packSymbols s))) } := by
  induction ops generalizing s with
  | nil => exact ⟨s, rfl, rfl⟩
  | cons op ops ih =>
    obtain ⟨coded, codedRest⟩ := List.forall_mem_cons.1 coded
    rw [List.flatMap_cons, codeBits_append] at small fits ⊢
    generalize hbits : codeBits s.ct (packSymbols s op) = bits at small fits ⊢
    rw [List.length_append, ← Nat.add_assoc] at small fits
    have small' : s.pk.bitcnt.toNat + bits.length < 2 ^ 64 := by omega
    have fits' : overCap s.cfg.pbCap (ceil8 (s.pk.bitcnt.toNat + bits.length)) = false :=
      overCap_mono (ceil8_mono (Nat.le_add_right _ _)) fits
    obtain ⟨-, count, -⟩ := Packer.putBits_spec hp bits small'
    rw [← count] at small fits
    have first : exec (packCommand op) s = .next (completed { s with pk := s.pk.putBits bits }) :=
      exec_of_packBits_fits (hbits ▸ effect_packCommand short coded) small' fits'
    obtain ⟨t, run, ends⟩ := ih (s := completed { s with pk := s.pk.putBits bits }) (hp.putBits small' fits') short codedRest small fits
    refine ⟨t, (runAll_cons_of_next first).trans run, ends.trans ?_⟩
    rw [Packer.putBits_append]
    rfl

/-- `PK.APPEND` on every input byte in order is the same append as `PK.ENCODE` (R124). -/
theorem runAll_appends {s : State} (hp : s.pk.Ok s.cfg.pbCap) (short : s.ilen.toNat ≤ s.cfg.inCap)
    (coded : ∀ b ∈ inputBytes s, tableGet s.ct b ≠ none)
    (small : s.pk.bitcnt.toNat + (codeBits s.ct (inputBytes s)).length < 2 ^ 64)
    (fits : overCap s.cfg.pbCap (ceil8 (s.pk.bitcnt.toNat + (codeBits s.ct (inputBytes s)).length)) = false) :
    ∃ t, runAll ((inputBytes s).map .pkAppend) s = some t
      ∧ completed t = completed { s with pk := s.pk.putBits (codeBits s.ct (inputBytes s)) } := by
  have symbols : ((inputBytes s).map some).flatMap (packSymbols s) = inputBytes s := by
    simp [List.flatMap_map, packSymbols]
  have run := runAll_packCommands (ops := (inputBytes s).map some) hp short (by simpa [packSymbols] using coded)
    (by rwa [symbols]) (by rwa [symbols])
  rwa [symbols, List.map_map] at run

end Sys2Proof.Machine

section
open Sys2Proof Sys2Proof.Machine Sys2Proof.Claims

/-- Settles O23: a code found makes `PK.APPEND` one append of its bits, with the two refusals of R123 checked in order. -/
theorem pkAppendExtendsStream : Obligations.PkAppendExtendsStream := by
  intro s sym hp
  split
  · next missing => exact exec_of_raise (i := .pkAppend sym) (pkAppend_of_none missing)
  · next c code =>
    have append : effect (.pkAppend sym) s = packBits s c.bits.length c.bits := pkAppend_of_code code
    refine exec_of_packBits_checks append fun small fits => ?_
    obtain ⟨-, count, stream⟩ := Packer.putBits_spec hp c.bits small
    exact ⟨_, exec_of_packBits_fits append small fits, stream, count, hp.putBits small fits, rfl⟩

/-- Settles O24: with a code for every byte `PK.ENCODE` is one append of all their bits, as the `PK.APPEND`s one after another are. -/
theorem pkEncodeAppendsEveryInputByte : Obligations.PkEncodeAppendsEveryInputByte := by
  intro s hp
  split
  · next long => exact exec_of_raise (i := .pkEncode) (if_pos (State.inputTooLong_iff.2 long))
  · next short =>
    have short := Nat.not_lt.1 short
    refine ⟨fun i hi missing first => exec_of_raise (i := .pkEncode) (pkEncode_of_none short hi missing first), fun coded => ?_⟩
    have coded : ∀ b ∈ inputBytes s, tableGet s.ct b ≠ none := by simpa [inputBytes] using coded
    have append := effect_packCommand (op := none) short coded
    refine exec_of_packBits_checks append fun small fits => ?_
    obtain ⟨-, count, stream⟩ := Packer.putBits_spec hp _ small
    obtain ⟨u, run, ends⟩ := runAll_appends hp short coded small fits
    exact ⟨_, u, exec_of_packBits_fits append small fits, stream, count, hp.putBits small fits, rfl, run, ends.symm⟩

/-- Settles O25: the bytes written are the packer's, which hold the stream and zeros beyond it. -/
theorem pkFlushWritesStream : Obligations.PkFlushWritesStream := by
  intro s hp hm
  exact ⟨_, exec_of_ok (i := .pkFlush) (u := pkFlush s) rfl, rfl, fun k hk => Packer.getElem?_stream_flushed hp hm hk,
    fun k beyond hk => Packer.bitRead_flushed_pad hp hm beyond hk,
    fun a ha => Memory.read_writeBytes_outside _ _ _ (by rw [Packer.length_bytes hp, ceil8_eq]; omega), rfl⟩

/-- Settles O26: the mixture is one append of all its bits to a fresh packer. -/
theorem packedStreamClosedForm : Obligations.PackedStreamClosedForm := by
  intro s ops hm short coded bits small fits
  rw [← ceil8_eq, Bool.not_eq_true] at fits
  have empty : Packer.fresh.bitcnt.toNat + bits.length = bits.length := Nat.zero_add _
  obtain ⟨t, run, ends⟩ := runAll_packCommands (s := completed (pkRst s)) (Packer.fresh_ok _) short coded
    (empty.symm ▸ small) (empty.symm ▸ fits)
  have pbuf : t.pbuf = s.pbuf := (congrArg State.pbuf ends :)
  have pk : t.pk = Packer.fresh.putBits bits := (congrArg State.pk ends :)
  obtain ⟨ok, count, stream⟩ := Packer.fresh_putBits small fits
  rw [← pk] at ok count stream
  have whole : t.pk.buf.length = bits.length / 8 := count ▸ ok.wholeBytes
  refine ⟨t, completed (pkFlush t), run, count, whole, fun q hq => ?_, ?_, exec_of_ok (i := .pkFlush) rfl, fun k hk => ?_,
    fun k beyond hk => ?_⟩
  · rw [← stream]
    exact Packer.toNat_buf ok (whole ▸ hq)
  · rw [← whole, ← stream]
    exact Packer.toNat_part ok
  · rw [← stream]
    exact Packer.getElem?_stream_flushed ok (pbuf ▸ hm) (count ▸ hk)
  · exact Packer.bitRead_flushed_pad ok (pbuf ▸ hm) (count ▸ beyond) (count ▸ hk)

/-- Settles O22: the new stream has no bits. -/
theorem pkRstStartsNewStream : Obligations.PkRstStartsNewStream :=
  ⟨decode_encode .pkRst, fun s => ⟨_, exec_of_ok (i := .pkRst) (u := pkRst s) rfl, Packer.fresh_stream, rfl, rfl⟩⟩

end
end

section
/-! SUPPORT. Frequencies, tree construction and code derivation as the statements of spec/42_tree_build.md see them: the checks of
`FQ.COUNT`, `TR.BUILD` and `TR.CODES` in their order (R141, R142, R146), the size of a built tree (R145), and the one code that stands
for each key (R147 to R149). -/

namespace Sys2Proof.Machine

open Sys2Proof.Claims

/-! ## `FQ.COUNT` -/

section
variable {s : State}

theorem counted_input (s : State) (y : Byte) :
    counted s.input (y, tableGet s.freq y) = (tableGet s.freq y).toNat + (inputBytes s).count y := by
  rw [counted, input_eq_inputBytes]

theorem fqCount_of_long (h : s.ilen.toNat > s.cfg.inCap) : fqCount s = raise .capacity 1 :=
  if_pos (State.inputTooLong_iff.2 h)

/-- The check of `Overflow` (R141): some count would need more than 64 bits. -/
theorem any_counted_iff :
    (tableEntries s.freq).any (fun e => decide (counted s.input e ≥ 2 ^ 64)) = true
      ↔ ∃ y, (tableGet s.freq y).toNat + (inputBytes s).count y ≥ 2 ^ 64 := by
  simp [tableEntries_eq, mem_symbols, counted_input]

variable (short : s.ilen.toNat ≤ s.cfg.inCap)
include short

theorem fqCount_of_overflow (h : ∃ y, (tableGet s.freq y).toNat + (inputBytes s).count y ≥ 2 ^ 64) :
    fqCount s = raise .overflow 1 :=
  (if_neg (State.not_inputTooLong.2 short)).trans (if_pos (any_counted_iff.2 h))

theorem fqCount_of_fits (h : ∀ y, (tableGet s.freq y).toNat + (inputBytes s).count y < 2 ^ 64) :
    fqCount s = .ok { s with freq := countedTable s.freq s.input } := by
  have small : ¬ ∃ y, (tableGet s.freq y).toNat + (inputBytes s).count y ≥ 2 ^ 64 := not_exists.2 fun y => Nat.not_le.2 (h y)
  exact (if_neg (State.not_inputTooLong.2 short)).trans (if_neg (mt any_counted_iff.1 small))

end

/-! ## `TR.BUILD` -/

theorem startEntries_eq (freq : Vector DWord Config.symbolCount) : startEntries freq = leafEntries freq :=
  (leafEntries_eq freq).symm

theorem countSum_eq (freq : Vector DWord Config.symbolCount) : countSum freq = totalCount freq := by
  unfold countSum
  rw [totalCount_eq, symbols, List.map_map, Function.comp_def]

theorem leafEntries_eq_nil_iff {freq : Vector DWord Config.symbolCount} : leafEntries freq = [] ↔ ∀ y, tableGet freq y = 0 := by
  rw [← List.length_eq_zero_iff, length_leafEntries, List.length_eq_zero_iff, List.eq_nil_iff_forall_not_mem]
  simp only [mem_presentSymbols, not_not]

theorem trBuild_of_no_count {s : State} (h : ∀ y, tableGet s.freq y = 0) : trBuild s = raise .emptyFrequencyTable 0 := by
  rw [trBuild, leafEntries_eq_nil_iff.2 h]

section
variable {s : State} (counts : ¬ ∀ y, tableGet s.freq y = 0)
include counts

/-- With a count the sum of all counts decides (R142). -/
theorem trBuild_of_overflow (h : countSum s.freq ≥ 2 ^ 64) : trBuild s = raise .overflow 2 := by
  obtain ⟨e, q, he⟩ := List.exists_cons_of_ne_nil (mt leafEntries_eq_nil_iff.1 counts)
  rw [trBuild, he]
  exact if_pos (countSum_eq _ ▸ h)

theorem trBuild_of_fits (h : ¬ countSum s.freq ≥ 2 ^ 64) : ∃ tr, trBuild s = .ok { s with tree := some tr } ∧ BuiltFrom s.freq tr := by
  obtain ⟨e, q, he⟩ := List.exists_cons_of_ne_nil (mt leafEntries_eq_nil_iff.1 counts)
  obtain ⟨u, hu⟩ : ∃ u, trBuild s = .ok u := by
    rw [trBuild, he]
    exact ⟨_, if_neg (countSum_eq _ ▸ h)⟩
  obtain ⟨tr, rfl, built⟩ := trBuild_ok hu
  exact ⟨tr, hu, built⟩

end

/-! ## A built tree -/

theorem HuffmanTree.isLeaf_iff {t : HuffmanTree} : t.isLeaf = true ↔ t.leaves.length = 1 := by
  cases t with
  | leaf k w => simp [isLeaf, leaves]
  | node w l r =>
    have := l.leaves_length_pos
    have := r.leaves_length_pos
    have more : (node w l r).leaves.length ≠ 1 := by
      rw [leaves, List.length_append]
      omega
    simp [isLeaf, more]

theorem BuiltFrom.length_leaves {freq : Vector DWord Config.symbolCount} {t : HuffmanTree} (h : BuiltFrom freq t) :
    t.leaves.length = (presentSymbols freq).length :=
  h.leaves.length_eq.trans (List.length_map _)

theorem BuiltFrom.toNat_nodes {freq : Vector DWord Config.symbolCount} {t : HuffmanTree} (h : BuiltFrom freq t) :
    (BitVec.ofNat 16 t.nodes).toNat = t.nodes :=
  Nat.mod_eq_of_lt (by have := h.nodes_le; omega)

/-! ## `TR.CODES` -/

theorem trCodes_of_no_tree {s : State} (h : s.tree = none) : trCodes s = raise .noTree 0 := by
  rw [trCodes, h]

theorem trCodes_of_tooDeep {s : State} {tr : HuffmanTree} {c : Byte × List Bool} (held : s.tree = some tr) (h : tr.tooDeep = some c) :
    trCodes s = raise .limitExceeded c.2.length := by
  simp only [trCodes, held, h]

theorem trCodes_of_shallow {s : State} {tr : HuffmanTree} (held : s.tree = some tr) (h : tr.tooDeep = none) :
    trCodes s = .ok { s with ct := writeCodes emptyCodes tr.codes } := by
  simp only [trCodes, held, h]

namespace HuffmanTree

/-- From the root the walk lists each path to a leaf with the leaf's key. -/
theorem mem_walk_root {t : HuffmanTree} {p : List Bool} {k : Byte} : (k, p) ∈ t.walk [] ↔ t.keyAt p = some k := by
  simp [mem_walk]

/-- The leaf reported is the first one too deep (R150). -/
theorem tooDeep_eq_some {t : HuffmanTree} {p : List Bool} {k : Byte} (path : t.keyAt p = some k) (deep : p.length > 256)
    (first : ∀ q j, t.keyAt q = some j → leftOf q p = true → q.length ≤ 256) : t.tooDeep = some (k, p) := by
  obtain ⟨before, after, cut⟩ := List.append_of_mem (mem_walk_root.2 path)
  refine List.find?_eq_some_iff_append.2 ⟨by simpa [Config.maxCodeBits] using deep, before, after, cut, ?_⟩
  rintro ⟨j, q⟩ hq
  have left : leftOf q p = true := (List.pairwise_append.1 (cut ▸ t.walk_pairwise [])).2.2 _ hq _ List.mem_cons_self
  have short := first q j (mem_walk_root.1 (cut ▸ List.mem_append_left _ hq)) left
  simpa [Config.maxCodeBits] using short

theorem tooDeep_eq_none_of_paths {t : HuffmanTree} (h : ∀ p k, t.keyAt p = some k → p.length ≤ 256) : t.tooDeep = none := by
  rw [tooDeep, List.find?_eq_none]
  rintro ⟨k, p⟩ hp
  simpa [Config.maxCodeBits] using h p k (mem_walk_root.1 hp)

@[simp] theorem codes_map_fst (t : HuffmanTree) : t.codes.map Prod.fst = t.keys := by
  cases t with
  | leaf k w => rfl
  | node w l r => exact walk_map_fst _ _

theorem codes_of_not_isLeaf {t : HuffmanTree} (h : t.isLeaf = false) : t.codes = t.walk [] := by
  cases t with
  | leaf k w => cases h
  | node w l r => rfl

end HuffmanTree

/-- A key listed is listed a last time. -/
theorem exists_last_of_mem_keys {cs : List (Byte × List Bool)} {k : Byte} (h : k ∈ cs.map Prod.fst) :
    ∃ as p bs, cs = as ++ (k, p) :: bs ∧ k ∉ bs.map Prod.fst := by
  induction cs with
  | nil => cases h
  | cons c cs ih =>
    by_cases later : k ∈ cs.map Prod.fst
    · obtain ⟨as, p, bs, rfl, last⟩ := ih later
      exact ⟨c :: as, p, bs, rfl, last⟩
    · obtain rfl : k = c.1 := (List.mem_cons.1 h).resolve_right later
      exact ⟨[], c.2, cs, rfl, later⟩

/-- The code that stands for a key is the one of R147 to R149. -/
theorem exists_code {t : HuffmanTree} {k : Byte} (h : k ∈ t.keys) :
    ∃ p, tableGet (writeCodes emptyCodes t.codes) k = some { sym := k, bits := p } ∧ IsCode t k p := by
  obtain ⟨as, p, bs, cut, last⟩ := exists_last_of_mem_keys (t.codes_map_fst ▸ h)
  refine ⟨p, cut ▸ tableGet_writeCodes_last _ as bs p last, ?_⟩
  cases t with
  | leaf j w =>
    have cut : [(j, [false])] = as ++ (k, p) :: bs := cut
    have only : (k, p) ∈ [(j, [false])] := cut ▸ List.mem_append_right as List.mem_cons_self
    simpa [IsCode] using only
  | node w l r =>
    have cut : (HuffmanTree.node w l r).walk [] = as ++ (k, p) :: bs := cut
    refine ⟨HuffmanTree.mem_walk_root.1 (by simp [cut]), fun q path other => ?_⟩
    have listed : (k, q) ∈ as ++ (k, p) :: bs := cut ▸ HuffmanTree.mem_walk_root.2 path
    have inFront : (k, q) ∈ as := by
      rcases List.mem_append.1 listed with front | back
      · exact front
      · rcases List.mem_cons.1 back with same | behind
        · exact absurd (congrArg Prod.snd same) other
        · exact absurd (List.mem_map_of_mem behind) last
    exact (List.pairwise_append.1 (cut ▸ HuffmanTree.walk_pairwise _ [])).2.2 _ inFront _ List.mem_cons_self

/-- Every code of a tree with two leaves or more is the path to a leaf of its key. -/
theorem keyAt_of_code {t : HuffmanTree} (inner : t.isLeaf = false) {k : Byte} {c : BitSequence}
    (h : tableGet (writeCodes emptyCodes t.codes) k = some c) : t.keyAt c.bits = some k := by
  rcases tableGet_writeCodes_cases emptyCodes t.codes k with absent | ⟨p, listed, written⟩
  · rw [h, tableGet_emptyCodes] at absent
    cases absent
  · cases h.symm.trans written
    exact HuffmanTree.mem_walk_root.1 (HuffmanTree.codes_of_not_isLeaf inner ▸ listed)

end Sys2Proof.Machine

section
open Sys2Proof Sys2Proof.Machine Sys2Proof.Claims

/-- Settles O28: the two checks in their order, then the counted table entry by entry. -/
theorem fqCountAddsInputCounts : Obligations.FqCountAddsInputCounts := by
  intro s
  split
  · next long => exact exec_of_raise (i := .fqCount) (fqCount_of_long long)
  · next short =>
    have short := Nat.not_lt.1 short
    refine ⟨fun large => exec_of_raise (i := .fqCount) (fqCount_of_overflow short large), fun fits => ?_⟩
    refine ⟨_, exec_of_ok (i := .fqCount) (fqCount_of_fits short fits), fun y => ?_, rfl⟩
    rw [← counted_input]
    exact tableGet_countedTable (counted_input s y ▸ fits y)

/-- Settles O29: the combining loop on the counted symbols' leaves is the relation `Builds`, and the flags read the size of its tree. -/
theorem trBuildCombinesLowestTwo : Obligations.TrBuildCombinesLowestTwo := by
  intro s
  split
  · next zero => exact exec_of_raise (i := .trBuild) (trBuild_of_no_count zero)
  · next counts =>
    split
    · next large => exact exec_of_raise (i := .trBuild) (trBuild_of_overflow counts large)
    · next fits =>
      obtain ⟨tr, build, built⟩ := trBuild_of_fits counts fits
      refine ⟨_, tr, exec_of_ok (i := .trBuild) build, rfl, startEntries_eq _ ▸ built.builds, rfl, ?_, built.toNat_nodes, rfl⟩
      rw [← built.length_leaves]
      exact HuffmanTree.isLeaf_iff

/-- Settles O30: a tree has one node fewer than twice its leaves and is less deep than it has leaves, and a built tree's leaves are the
counted symbols. -/
theorem builtTreeShape : Obligations.BuiltTreeShape := by
  intro s t tr ran complete held
  obtain ⟨u, build, rfl⟩ := exec_completed ran complete
  obtain ⟨tr', rfl, built⟩ := trBuild_ok build
  cases held
  have leaves := built.length_leaves
  have pos := tr.leaves_length_pos
  have nodes := tr.nodes_eq
  have depth := tr.depth_lt_leaves
  have shallow : tr.tooDeep = none := HuffmanTree.tooDeep_eq_none (Nat.le_succ_of_le built.depth_le)
  have codes := trCodes_of_shallow (s := completed { s with tree := some tr }) rfl shallow
  exact ⟨by omega, length_presentSymbols_le _, by omega, built.weightsAdd, built.weight.trans (countSum_eq _).symm, by omega,
    built.leaves, _, exec_of_ok (i := .trCodes) codes, rfl⟩

/-- Settles O31: the walk goes from left to right, so the leaf reported is the first one too deep and the code kept is the last one. -/
theorem trCodesDerivesPaths : Obligations.TrCodesDerivesPaths := by
  intro s
  split
  · next held => exact exec_of_raise (i := .trCodes) (trCodes_of_no_tree held)
  · next tr held =>
    refine ⟨fun p k path deep first => ?_, fun shallow => ?_⟩
    · exact exec_of_raise (i := .trCodes) (trCodes_of_tooDeep held (HuffmanTree.tooDeep_eq_some path deep first))
    · refine ⟨_, exec_of_ok (i := .trCodes) (trCodes_of_shallow held (HuffmanTree.tooDeep_eq_none_of_paths shallow)),
        fun k absent => ?_, fun k key => ?_, rfl⟩
      · exact (tableGet_writeCodes_absent _ _ (tr.codes_map_fst.symm ▸ absent)).trans (tableGet_emptyCodes k)
      · obtain ⟨p, entry, code⟩ := exists_code key
        exact ⟨_, entry, rfl, code⟩

/-- Settles O32: every code is the path to a leaf of its key, and no leaf's path goes on to another leaf. -/
theorem derivedCodesArePrefixFree : Obligations.DerivedCodesArePrefixFree := by
  intro s t tr held inner ran complete
  obtain ⟨u, codes, rfl⟩ := exec_completed ran complete
  obtain ⟨tr', held', -, rfl⟩ := trCodes_ok codes
  cases held.symm.trans held'
  refine ⟨fun k c code => keyAt_of_code inner code, fun k j c d hc hd pre => ?_⟩
  obtain ⟨rest, joined⟩ := pre
  have pathK := keyAt_of_code inner hc
  have pathJ := keyAt_of_code inner hd
  obtain rfl : rest = [] := HuffmanTree.keyAt_prefix pathK (joined ▸ pathJ)
  rw [← joined, List.append_nil, pathK] at pathJ
  exact Option.some.inj pathJ

/-- Settles O27: every entry of the empty table is 0. -/
theorem fqClrZeroesCounts : Obligations.FqClrZeroesCounts :=
  ⟨decode_encode .fqClr, fun s => ⟨_, exec_of_ok (i := .fqClr) (u := fqClr s) rfl, tableGet_zeroCounts, rfl⟩⟩

end
end

section
/-! SUPPORT. The tree codec as the statements of spec/43_tree_codec.md see it: the record `TR.SER` writes and its special leaf index by
the listing (R161, R162), and each end of `TR.DESER` by the marks of the record (R164 to R167). -/

namespace Sys2Proof.Machine

open Sys2Proof.Claims

/-! ## The marks of a record -/

theorem getElem?_markedBytes (x : Int) (i : Nat) (bs : List Byte) (j : Nat) :
    (markedBytes x i bs)[j]? = bs[j]?.map fun b => (b, !decide (b = Config.sentinel ∧ ((i + j : Nat) : Int) ≠ x)) := by
  induction bs generalizing i j with
  | nil => rfl
  | cons b bs ih =>
    cases j with
    | zero => rfl
    | succ j => simp only [markedBytes, List.getElem?_cons_succ, ih, Nat.add_right_comm i 1 j, Nat.add_assoc]

/-- A `0x00` stands for a Leaf at the special leaf index only (R165). -/
theorem marked_zero_leaf_iff {x : Int} {bs : List Byte} {i : Nat} :
    (markedBytes x 0 bs)[i]? = some (0x00, true) ↔ (i : Int) = x ∧ bs[i]? = some 0x00 := by
  rw [getElem?_markedBytes, Option.map_eq_some_iff, Nat.zero_add]
  constructor
  · rintro ⟨b, byte, mark⟩
    obtain ⟨rfl, leaf⟩ := Prod.mk.inj mark
    exact ⟨by simpa [Config.sentinel] using leaf, byte⟩
  · rintro ⟨index, byte⟩
    exact ⟨0x00, byte, by simp [index]⟩

/-! ## `TR.SER` -/

namespace HuffmanTree

/-- The special leaf index `TR.SER` writes (R162). -/
def specialIndex (t : HuffmanTree) : Half := BitVec.ofInt 16 (t.emit { out := [], sli := -1 }).sli

section
variable {t : HuffmanTree} (ok : t.Ok)
include ok

theorem toInt_nodes : (BitVec.ofNat 16 t.nodes).toInt = t.nodes := by
  have small : t.nodes ≤ 32767 := ok.small
  rw [BitVec.toInt_ofNat', Int.bmod_eq_of_le (by omega) (by omega)]

/-- The index is a signed 16-bit number, so `SLI` holds it as it is. -/
theorem toInt_specialIndex : t.specialIndex.toInt = (t.emit { out := [], sli := -1 }).sli := by
  have small : t.nodes ≤ 32767 := ok.small
  have range := (marked_emit t { out := [], sli := -1 } ok.oneZero (by decide)).2
  simp only [List.length_nil] at range
  rw [specialIndex, BitVec.toInt_ofInt, Int.bmod_eq_of_le (by omega) (by omega)]

/-- The index makes the record's bytes read back as the listing. -/
theorem marked_specialIndex : markedBytes t.specialIndex.toInt 0 (t.listing.map Prod.fst) = t.listing :=
  toInt_specialIndex ok ▸ (marked_emit t { out := [], sli := -1 } ok.oneZero (by decide)).1

/-- The index is -1 or the place of a `0x00` of the record. -/
theorem toInt_specialIndex_cases :
    t.specialIndex.toInt = -1 ∨ ∃ i : Nat, t.specialIndex.toInt = i ∧ (t.listing.map Prod.fst)[i]? = some 0x00 := by
  have place := emit_sli_at t { out := [], sli := -1 }
  rwa [emit_out, List.nil_append, ← toInt_specialIndex ok] at place

theorem toInt_specialIndex_eq_iff (i : Nat) : t.specialIndex.toInt = i ↔ t.listing[i]? = some (0x00, true) := by
  rw [← congrArg (·[i]?) (marked_specialIndex ok), marked_zero_leaf_iff]
  refine ⟨fun index => ⟨index.symm, ?_⟩, fun leaf => leaf.1.symm⟩
  rcases toInt_specialIndex_cases ok with absent | ⟨j, place, byte⟩
  · omega
  · obtain rfl : j = i := by omega
    exact byte

theorem toInt_specialIndex_of_no_zero_leaf (h : ∀ i : Nat, t.listing[i]? ≠ some (0x00, true)) : t.specialIndex.toInt = -1 :=
  (toInt_specialIndex_cases ok).resolve_right fun ⟨i, place, _⟩ => h i ((toInt_specialIndex_eq_iff ok i).1 place)

/-- For a tree whose listing is a record read with index `x`, the index is `x` where the record has a `0x00` there, and else -1 (R168). -/
theorem specialIndex_of_marked {x : Half} {bs : List Byte} (h : t.listing = markedBytes x.toInt 0 bs) :
    t.specialIndex = if 0 ≤ x.toInt ∧ bs[x.toInt.toNat]? = some 0x00 then x else 0xFFFF := by
  apply BitVec.eq_of_toInt_eq
  split
  · next zero =>
    rw [← Int.toNat_of_nonneg zero.1, toInt_specialIndex_eq_iff ok, h, marked_zero_leaf_iff]
    exact ⟨Int.toNat_of_nonneg zero.1, zero.2⟩
  · next other =>
    refine toInt_specialIndex_of_no_zero_leaf ok fun i leaf => other ?_
    rw [h, marked_zero_leaf_iff] at leaf
    rw [← leaf.1, Int.toNat_natCast]
    exact ⟨Int.natCast_nonneg i, leaf.2⟩

end

end HuffmanTree

theorem trSer_of_no_tree {s : State} (h : s.tree = none) : trSer s = raise .noTree 0 := by
  rw [trSer, h]

theorem trSer_of_tree {s : State} {t : HuffmanTree} (held : s.tree = some t) :
    trSer s = .ok { s with
      tbuf := s.tbuf.writeBytes 0 (t.listing.map Prod.fst)
      nodecnt := BitVec.ofNat 16 t.nodes
      sli := t.specialIndex } := by
  obtain ⟨u, ran⟩ : ∃ u, trSer s = .ok u := by
    rw [trSer, held]
    exact ⟨_, rfl⟩
  obtain ⟨t', held', rfl⟩ := trSer_ok ran
  cases held.symm.trans held'
  exact ran

/-! ## `TR.DESER` -/

theorem replayEnd_of_none {stack : List HuffmanTree} (h : stack.length = 0) : replayEnd stack = raise .emptyTree 0 := by
  rw [List.length_eq_zero_iff.1 h, replayEnd]

theorem replayEnd_of_one {stack : List HuffmanTree} (h : stack.length = 1) : ∃ t, replayEnd stack = .ok t := by
  obtain ⟨t, rfl⟩ := List.length_eq_one_iff.1 h
  exact ⟨t, rfl⟩

theorem replayEnd_of_more {stack : List HuffmanTree} (h : 1 < stack.length) :
    replayEnd stack = raise .stackResidue stack.length := by
  match stack, h with
  | t :: u :: rest, _ => rfl

theorem replay_of_underflow {x : Int} {bs : List Byte} {i : Nat} (h : Underflows (markedBytes x 0 bs) i)
    (first : ∀ j < i, ¬ Underflows (markedBytes x 0 bs) j) : replay x 0 [] bs = raise .stackUnderflow i := by
  have stops := replay_stops x i bs 0 [] h.1 (by simpa using h.2) fun j hj marker low =>
    first j hj ⟨marker, by simpa using low⟩
  rwa [Nat.zero_add] at stops

theorem replay_of_no_underflow {x : Int} {bs : List Byte} (h : ∀ i, ¬ Underflows (markedBytes x 0 bs) i) :
    ∃ stack, replay x 0 [] bs = replayEnd stack ∧ (stack.length : Int) = stackHeight (markedBytes x 0 bs) bs.length := by
  simpa using replay_heights x bs 0 [] fun j marker low => h j ⟨marker, by simpa using low⟩

/-- The tree of a whole replay lists the bytes as they are marked, weights 0. -/
theorem listing_of_replay {x : Int} {bs : List Byte} {t : HuffmanTree} (h : replay x 0 [] bs = .ok t) :
    t.listing = markedBytes x 0 bs ∧ t.unweighted = t := by
  simpa using replay_ok h (by simp)

/-- The bytes of the SerializedTree record. -/
def State.record (s : State) : List Byte := s.tbuf.readBytes 0 s.nodecnt.toInt.toNat

@[simp] theorem length_record (s : State) : s.record.length = s.nodecnt.toInt.toNat := Memory.length_readBytes _ _ _

theorem length_record_of_nonneg {s : State} (h : 0 ≤ s.nodecnt.toInt) : s.record.length = s.nodecnt.toNat := by
  rw [length_record, (Half.toInt_of_nonneg h).1, Int.toNat_natCast]

theorem recordMarked_eq (s : State) : recordMarked s = markedBytes s.sli.toInt 0 s.record := by
  simp [recordMarked, State.record, Memory.readBytes_eq_map]

theorem record_zero_at_index_iff {s : State} (h : s.sli.toInt < 0 ∨ s.sli.toInt < s.nodecnt.toInt) :
    (0 ≤ s.sli.toInt ∧ s.record[s.sli.toInt.toNat]? = some 0x00) ↔ 0 ≤ s.sli.toInt ∧ s.tbuf.read s.sli.toNat = 0x00 := by
  refine and_congr_right fun nonneg => ?_
  have unsigned : s.sli.toInt.toNat = s.sli.toNat := by rw [(Half.toInt_of_nonneg nonneg).1, Int.toNat_natCast]
  rw [State.record, Memory.getElem?_readBytes, if_pos (by omega), Option.some.injEq, Nat.zero_add, unsigned]

theorem trDeser_of_negative_count {s : State} (h : s.nodecnt.toInt < 0) :
    trDeser s = raise .treeRegionOverflow s.nodecnt.toNat :=
  if_pos h

section
variable {s : State} (count : ¬ s.nodecnt.toInt < 0)
include count

theorem trDeser_of_index_outside (h : s.sli.toInt ≥ 0 ∧ s.sli.toInt ≥ s.nodecnt.toInt) :
    trDeser s = raise .specialLeafIndexRange s.sli.toNat :=
  (if_neg count).trans (if_pos h)

variable (index : ¬ (s.sli.toInt ≥ 0 ∧ s.sli.toInt ≥ s.nodecnt.toInt))
include index

theorem trDeser_of_raise {k : FaultKind} {info : Nat} (h : replay s.sli.toInt 0 [] s.record = raise k info) :
    trDeser s = raise k info := by
  rw [State.record] at h
  simp only [trDeser, if_neg count, if_neg index, h, raise_eq]

theorem trDeser_of_replay {t : HuffmanTree} (h : replay s.sli.toInt 0 [] s.record = .ok t) :
    trDeser s = .ok { s with tree := some t } := by
  rw [State.record] at h
  rw [trDeser, if_neg count, if_neg index, h]

end

end Sys2Proof.Machine

section
open Sys2Proof Sys2Proof.Machine Sys2Proof.Claims

/-- Settles O35: the record of a tree marks its listing, whose replay is the tree; and a replayed tree's listing is the record read. -/
theorem treeSerialisationRoundTrip : Obligations.TreeSerialisationRoundTrip := by
  refine ⟨fun s tr canonical held ok => ?_, fun s t canonical ran complete => ?_⟩
  · obtain ⟨u, ser, -, count, bytes, marked, index⟩ := trSer_total canonical held ok
    have deser : trDeser (completed u) = .ok { completed u with tree := some tr.unweighted } :=
      trDeser_listing (s := completed u) count index (by rw [completed_tbuf, bytes, completed_sli, marked])
    exact ⟨_, _, exec_of_ok (i := .trSer) ser, exec_of_ok (i := .trDeser) deser, rfl, rfl⟩
  · obtain ⟨u, deser, rfl⟩ := exec_completed ran complete
    obtain ⟨count, index, tr, replayed, rfl⟩ := trDeser_ok deser
    have ok : tr.Ok := ok_of_replay count replayed
    have listing : tr.listing = markedBytes s.sli.toInt 0 s.record := (listing_of_replay replayed).1
    have bytes : tr.listing.map Prod.fst = s.record := by rw [listing, markedBytes_map_fst]
    have nodes : tr.nodes = s.nodecnt.toInt.toNat := by rw [← tr.length_listing, listing, length_markedBytes, length_record]
    have special : tr.specialIndex = if 0 ≤ s.sli.toInt ∧ s.tbuf.read s.sli.toNat = 0x00 then s.sli else 0xFFFF := by
      simpa only [record_zero_at_index_iff index] using tr.specialIndex_of_marked ok listing
    have held : (completed { s with tree := some tr }).tree = some tr := rfl
    refine ⟨_, exec_of_ok (i := .trSer) (trSer_of_tree held), rfl, BitVec.eq_of_toInt_eq ?_, fun i => ?_, special⟩
    · exact (tr.toInt_nodes ok).trans (by omega)
    · exact congrArg (·.read i) ((congrArg (s.tbuf.writeBytes 0) bytes).trans (Memory.writeBytes_readBytes canonical _))

/-- Settles O33: the bytes put out are the listing's, and the index written is the place of its one leaf of key 0x00. -/
theorem trSerWritesPostorder : Obligations.TrSerWritesPostorder := by
  intro s canonical
  split
  · next held => exact exec_of_raise (i := .trSer) (trSer_of_no_tree held)
  · next tr held =>
    intro ok
    refine ⟨_, exec_of_ok (i := .trSer) (trSer_of_tree held), tr.toInt_nodes ok, fun i b isLeaf entry => ?_, fun i beyond => ?_,
      tr.toInt_specialIndex_eq_iff ok, tr.toInt_specialIndex_of_no_zero_leaf ok, rfl⟩
    · obtain ⟨inside, rfl⟩ := List.getElem?_eq_some_iff.1 (show (tr.listing.map Prod.fst)[i]? = some b by simp [entry])
      simpa using Memory.read_writeBytes_inside canonical 0 _ inside
    · exact Memory.read_writeBytes_outside _ _ _ (.inr (by simpa using beyond))

/-- Settles O34: by the heights alone the replay stops at the first marker that underflows, or ends with a stack as high as they say. -/
theorem trDeserReplaysRecord : Obligations.TrDeserReplaysRecord := by
  intro s
  rw [recordMarked_eq]
  split
  · next negative => exact exec_of_raise (i := .trDeser) (trDeser_of_negative_count negative)
  · next count =>
    split
    · next outside => exact exec_of_raise (i := .trDeser) (trDeser_of_index_outside count outside)
    · next index =>
      refine ⟨fun i stops first => ?_, fun never => ?_⟩
      · exact exec_of_raise (i := .trDeser) (trDeser_of_raise count index (replay_of_underflow stops first))
      · obtain ⟨stack, replayed, height⟩ := replay_of_no_underflow never
        rw [← length_record_of_nonneg (not_lt.1 count), ← height]
        dsimp only
        split
        · exact exec_of_raise (i := .trDeser) (trDeser_of_raise count index (replayed.trans (replayEnd_of_none (by omega))))
        · split
          · rw [Int.toNat_natCast]
            exact exec_of_raise (i := .trDeser) (trDeser_of_raise count index (replayed.trans (replayEnd_of_more (by omega))))
          · obtain ⟨tr, one⟩ := replayEnd_of_one (stack := stack) (by omega)
            have replayed := replayed.trans one
            obtain ⟨listing, weightless⟩ := listing_of_replay replayed
            refine ⟨tr, listing, weightless, ?_, exec_of_ok (i := .trDeser) (trDeser_of_replay count index replayed)⟩
            rw [← tr.length_listing, listing, length_markedBytes, length_record]
            omega

end
end

section
/-! SUPPORT. The checksum and the container as the statements of spec/44_container.md see them: the closed form of the checksum (R182,
R183), the bytes of a container (R185, R186), the checks of `CN.PARSE` in their order (R188, R195), and what one changed byte does to
each of them (R199). -/

namespace Sys2Proof.Machine

open Sys2Proof.Claims

/-! ## Byte sequences written and read -/

namespace Memory

/-- Bytes written from the first index on, and the bytes beyond them. -/
theorem read_writeBytes_zero {m : Memory} (hm : m.wf) (bs : List Byte) (i : Nat) :
    (m.writeBytes 0 bs).read i = if i < bs.length then bs.getD i 0 else m.read i := by
  split
  · next inside => simpa [inside] using read_writeBytes_inside hm 0 bs inside
  · next beyond => exact read_writeBytes_outside m 0 bs (by omega)

/-- Bytes copied from another memory to the first index on, and the bytes beyond them. -/
theorem read_writeBytes_readBytes {m : Memory} (hm : m.wf) (k : Memory) (a n i : Nat) :
    (m.writeBytes 0 (k.readBytes a n)).read i = if i < n then k.read (a + i) else m.read i := by
  rw [read_writeBytes_zero hm, length_readBytes]
  split
  · next inside => rw [List.getD_eq_getElem?_getD, getElem?_readBytes, if_pos inside, Option.getD_some]
  · rfl

/-- A field of the bytes read is a field of the memory. -/
theorem fieldOf_readBytes (m : Memory) (a : Nat) {n i k : Nat} (h : i + k ≤ n) : fieldOf (m.readBytes a n) i k = m.readLE (a + i) k := by
  rw [fieldOf, slice_readBytes _ _ _ _ _ h, Memory.readLE]

/-! ## One byte changed -/

variable {m : Memory} {a n i : Nat} {v : Byte}

theorem readBytes_write_outside (h : i < a ∨ a + n ≤ i) : (m.write i v).readBytes a n = m.readBytes a n :=
  readBytes_congr fun _ _ _ => read_write_other m v (by omega)

theorem readLE_write_outside (h : i < a ∨ a + n ≤ i) : (m.write i v).readLE a n = m.readLE a n := by
  rw [Memory.readLE, readBytes_write_outside h, Memory.readLE]

section
variable (hm : m.wf) (above : a ≤ i) (below : i < a + n)
include hm above below

/-- The bytes read around one of them, before and after it is written. -/
theorem readBytes_write_inside (v : Byte) :
    ∃ pre post, m.readBytes a n = pre ++ m.read i :: post ∧ (m.write i v).readBytes a n = pre ++ v :: post := by
  obtain ⟨k, rfl⟩ := Nat.exists_eq_add_of_le above
  obtain ⟨j, rfl⟩ : ∃ j, n = k + (j + 1) := ⟨n - k - 1, by omega⟩
  refine ⟨m.readBytes a k, m.readBytes (a + k + 1) j, readBytes_append m a k (j + 1), ?_⟩
  rw [readBytes_append, Memory.readBytes, read_write_same hm, readBytes_write_outside (by omega), readBytes_write_outside (by omega)]

variable (changed : v ≠ m.read i)
include changed

theorem readLE_write_ne : (m.write i v).readLE a n ≠ m.readLE a n := by
  obtain ⟨pre, post, before, after⟩ := readBytes_write_inside hm above below v
  intro same
  have bytes : (m.write i v).readBytes a n = m.readBytes a n := by
    rw [← leBytes_leValue ((m.write i v).readBytes a n), ← leBytes_leValue (m.readBytes a n), length_readBytes, length_readBytes]
    exact congrArg (leBytes n) same
  rw [before, after] at bytes
  exact changed (List.cons.inj (List.append_cancel_left bytes)).1

/-- The checksum of the bytes read tells one changed byte (R184). -/
theorem checksum_write_ne (o : ChecksumOptions) : checksum o ((m.write i v).readBytes a n) ≠ checksum o (m.readBytes a n) := by
  obtain ⟨pre, post, before, after⟩ := readBytes_write_inside hm above below v
  rw [before, after]
  exact fun same => changed (checksumFrom_change o _ pre post same)

end

end Memory

/-! ## Checks -/

/-- One check of a command: what it raises where the condition holds, and what is said of the command where it does not. -/
theorem exec_of_check {i : Instr} {s : State} {k : FaultKind} {info : Nat} {c P : Prop} [Decidable c]
    (raises : c → effect i s = raise k info) (passes : ¬ c → P) : if c then exec i s = .next (faulted s k info) else P :=
  ite_prop_iff_and.2 ⟨fun h => exec_of_raise (raises h), passes⟩

/-! ## The closed form of the checksum -/

theorem checksumByte_eq_byteValue (o : ChecksumOptions) (b : Byte) : checksumByte o b = BitVec.ofInt 32 (byteValue o b) := by
  rw [checksumByte, byteValue]
  split
  · rfl
  · rw [BitVec.ofInt_natCast, BitVec.ofNat_toNat]

/-- The sum of R182: each byte of a chunk times the power of 31 for its place. -/
def chunkSum (o : ChecksumOptions) (c : List Byte) : Int :=
  ((c.zipIdx).map fun (b, j) => byteValue o b * 31 ^ (c.length - 1 - j)).sum

theorem chunkSum_cons (o : ChecksumOptions) (b : Byte) (c : List Byte) :
    chunkSum o (b :: c) = byteValue o b * 31 ^ c.length + chunkSum o c := by
  have place (j : Nat) : c.length - 1 - j = c.length - (j + 1) := by omega
  simp only [chunkSum, List.zipIdx_cons, List.zipIdx_succ, List.map_cons, List.map_map, Function.comp_def, List.sum_cons, List.length_cons,
    Nat.add_sub_cancel, Nat.sub_zero, place]

/-- The recurrence of R181 over one chunk is a polynomial in 31. -/
theorem chunkAcc_ofInt (o : ChecksumOptions) (a : Int) (c : List Byte) :
    chunkAcc o (BitVec.ofInt 32 a) c = BitVec.ofInt 32 (a * 31 ^ c.length + chunkSum o c) := by
  induction c generalizing a with
  | nil => simp [chunkAcc, chunkSum]
  | cons b c ih =>
    have first : Config.ckMult * BitVec.ofInt 32 a + checksumByte o b = BitVec.ofInt 32 (31 * a + byteValue o b) := by
      rw [checksumByte_eq_byteValue, BitVec.ofInt_add, BitVec.ofInt_mul]
      rfl
    calc chunkAcc o (BitVec.ofInt 32 a) (b :: c)
      _ = chunkAcc o (BitVec.ofInt 32 (31 * a + byteValue o b)) c := congrArg (chunkAcc o · c) first
      _ = BitVec.ofInt 32 ((31 * a + byteValue o b) * 31 ^ c.length + chunkSum o c) := ih _
      _ = BitVec.ofInt 32 (a * 31 ^ (b :: c).length + chunkSum o (b :: c)) := by
        rw [chunkSum_cons, List.length_cons]
        congr 1
        ring

theorem chunkAcc_eq_chunkHash (o : ChecksumOptions) (c : List Byte) : chunkAcc o 1 c = chunkHash o c :=
  (chunkAcc_ofInt o 1 c).trans (by rw [one_mul]; rfl)

/-- `H` of every chunk, in order. -/
def chunkHashes (o : ChecksumOptions) (bs : List Byte) : List Word :=
  (List.range ((bs.length + 7) / 8)).map fun q => chunkHash o (chunkAt bs q)

theorem chunkHashes_of_short (o : ChecksumOptions) {c : List Byte} (h : c.length ≤ 8) (nonempty : c ≠ []) :
    chunkHashes o c = [chunkHash o c] := by
  have pos := List.length_pos_iff.2 nonempty
  rw [chunkHashes, show (c.length + 7) / 8 = 1 by omega, List.range_one, List.map_singleton, chunkAt, Nat.mul_zero, List.drop_zero,
    List.take_of_length_le h]

theorem chunkHashes_append (o : ChecksumOptions) {c : List Byte} (h : c.length = 8) (bs : List Byte) :
    chunkHashes o (c ++ bs) = chunkHash o c :: chunkHashes o bs := by
  have first : chunkAt (c ++ bs) 0 = c := List.take_left' h
  have later (q : Nat) : chunkAt (c ++ bs) (q + 1) = chunkAt bs q := by
    rw [chunkAt, chunkAt, Nat.mul_succ, Nat.add_comm, ← h, List.drop_length_add_append]
  rw [chunkHashes, show ((c ++ bs).length + 7) / 8 = (bs.length + 7) / 8 + 1 by rw [List.length_append]; omega,
    List.range_succ_eq_map, List.map_cons, List.map_map, first]
  simp only [Function.comp_def, Nat.succ_eq_add_one, later]
  rfl

/-- Induction over the chunks of a byte sequence, the last one with at most eight bytes. -/
theorem chunk_induction {P : List Byte → Prop} (last : ∀ c, c.length ≤ 8 → P c)
    (full : ∀ c bs, c.length = 8 → bs ≠ [] → P bs → P (c ++ bs)) (bs : List Byte) : P bs := by
  induction n : bs.length using Nat.strongRecOn generalizing bs with
  | _ n ih =>
    rcases Nat.lt_or_ge 8 bs.length with long | short
    · have rest : (bs.drop 8).length = bs.length - 8 := List.length_drop
      rw [← List.take_append_drop 8 bs]
      exact full _ _ (List.length_take_of_le long.le) (List.ne_nil_of_length_pos (by omega)) (ih _ (by omega) _ rfl)
    · exact last bs short

/-- From any aggregate the checksum XORs `H` of every chunk in, and 1 more after a full last chunk under `CK_FINAL_EMPTY`. -/
theorem checksumFrom_eq_foldl (o : ChecksumOptions) (agg : Word) {bs : List Byte} (nonempty : bs ≠ []) :
    checksumFrom o agg bs
      = (chunkHashes o bs).foldl (· ^^^ ·) agg ^^^ if o.finalEmpty = true ∧ bs.length % 8 = 0 then 1 else 0 := by
  induction bs using chunk_induction generalizing agg with
  | last c short =>
    have pos := List.length_pos_iff.2 nonempty
    have whole : c.length % 8 = 0 ↔ c.length = 8 := by omega
    rw [checksumFrom_short o agg c short, chunkHashes_of_short o short nonempty, List.foldl_cons, List.foldl_nil,
      chunkAcc_eq_chunkHash]
    simp only [whole]
  | full c bs length more ih =>
    have whole : (c ++ bs).length % 8 = bs.length % 8 := by rw [List.length_append, length, Nat.add_mod_left]
    rw [checksumFrom_long o agg c bs length more, ih _ more, chunkHashes_append o length, List.foldl_cons, whole,
      chunkAcc_eq_chunkHash]

theorem checksum_eq_closed (o : ChecksumOptions) (bs : List Byte) : checksum o bs = checksumClosed o bs := by
  rw [checksum_eq_from]
  rcases eq_or_ne bs [] with rfl | nonempty
  · simp [checksumFrom_short, chunkAcc, checksumClosed]
  · rw [checksumFrom_xor, checksumFrom_eq_foldl o 0 nonempty, ← BitVec.xor_assoc]
    simp only [checksumClosed, ne_eq, nonempty, not_false_eq_true, true_and]
    rfl

theorem ckSum_of_long {s : State} (h : s.ilen.toNat > s.cfg.inCap) : ckSum s = raise .capacity 1 :=
  if_pos (State.inputTooLong_iff.2 h)

theorem ckSum_of_short {s : State} (h : s.ilen.toNat ≤ s.cfg.inCap) :
    ckSum s = .ok { s with cksum := checksumClosed s.cfg.ck (inputBytes s) } := by
  rw [ckSum, if_neg (State.not_inputTooLong.2 h), checksum_eq_closed, input_eq_inputBytes]

/-! ## The bytes of a container -/

/-- The bytes of a register, by its bits. -/
theorem leBytes_toNat {w : Nat} (n : Nat) (v : BitVec w) : leBytes n v.toNat = (List.range n).map fun k => v.extractLsb' (8 * k) 8 := by
  refine List.ext_getElem (by simp) fun k hk _ => BitVec.eq_of_toNat_eq ?_
  rw [toNat_getElem_leBytes, List.getElem_map, List.getElem_range, BitVec.extractLsb'_toNat, Nat.shiftRight_eq_div_pow, Nat.pow_mul]

theorem content_eq_contentBytes {s : State} (count : 0 ≤ s.nodecnt.toInt) : content s = contentBytes s := by
  rw [content, leBytes_toNat, leBytes_toNat, leBytes_toNat, (Half.toInt_of_nonneg count).1, Int.toNat_natCast, ceil8_eq]
  simp only [Memory.readBytes_eq_map, Nat.zero_add]
  rfl

theorem length_content_lt (s : State) : 16 + (content s).length < 2 ^ 64 := by
  have count := s.nodecnt.toInt_lt
  have bits := s.pbits.isLt
  rw [length_content, ceil8_eq]
  omega

/-- The register `OLEN` holds a container's length whole. -/
theorem toNat_length_container (s : State) : (BitVec.ofNat 64 (16 + (content s).length)).toNat = (containerBytes s).length := by
  rw [BitVec.toNat_ofNat, Nat.mod_eq_of_lt (length_content_lt s), length_containerBytes]

theorem containerBytes_eq_headerBytes (s : State) :
    containerBytes s = headerBytes (checksum s.cfg.ck (content s)) (content s).length ++ content s := by
  have bound := length_content_lt s
  have length : (BitVec.ofNat 64 (content s).length).toNat = (content s).length := Nat.mod_eq_of_lt (by omega)
  rw [headerBytes, ← leBytes_toNat, ← leBytes_toNat, length]
  rfl

/-! ## `CN.BUILD` -/

section
variable {s : State}

theorem cnBuild_of_negative_count (h : s.nodecnt.toInt < 0) : cnBuild s = raise .treeRegionOverflow s.nodecnt.toNat :=
  if_pos h

variable (count : ¬ s.nodecnt.toInt < 0)
include count

theorem cnBuild_of_payload_over (h : overCap s.cfg.pbCap (ceil8 s.pbits.toNat) = true) : cnBuild s = raise .capacity 4 :=
  (if_neg count).trans (if_pos h)

variable (payload : ¬ overCap s.cfg.pbCap (ceil8 s.pbits.toNat) = true)
include payload

theorem cnBuild_of_output_over (h : overCap s.cfg.outCap (28 + s.nodecnt.toInt.toNat + ceil8 s.pbits.toNat) = true) :
    cnBuild s = raise .capacity 2 :=
  (if_neg count).trans ((if_neg payload).trans (if_pos h))

theorem cnBuild_of_fits (h : ¬ overCap s.cfg.outCap (28 + s.nodecnt.toInt.toNat + ceil8 s.pbits.toNat) = true) :
    ∃ u, cnBuild s = .ok u :=
  ⟨_, (if_neg count).trans ((if_neg payload).trans (if_neg h))⟩

end

/-! ## `CN.PARSE` of what `CN.BUILD` wrote -/

/-- `CN.BUILD` leaves the container in `OBUF` and its whole length in `OLEN`. -/
theorem cnBuild_output {s u : State} (built : cnBuild s = .ok u) :
    u.obuf = s.obuf.writeBytes 0 (containerBytes s) ∧ u.olen.toNat = (containerBytes s).length := by
  obtain ⟨-, -, -, hu⟩ := cnBuild_ok built
  exact ⟨by rw [hu], by rw [hu, toNat_length_container]⟩

/-- A copy of the output holds the container, byte for byte. -/
theorem readBytes_of_holdsOutput {s u : State} {m : Memory} (canonical : s.obuf.wf) (built : cnBuild s = .ok u)
    (holds : HoldsOutput u m) : m.readBytes 0 (containerBytes s).length = containerBytes s := by
  obtain ⟨written, length⟩ := cnBuild_output built
  calc m.readBytes 0 (containerBytes s).length
    _ = u.obuf.readBytes 0 (containerBytes s).length := Memory.readBytes_congr fun i _ inside => holds i (by omega)
    _ = containerBytes s := by rw [written, Memory.readBytes_writeBytes canonical]

/-- The records in a container are those `CN.BUILD` left in place, so that parsing it changes nothing. -/
theorem cnParse_copiedBack {s u : State} {m : Memory} (canonical : BuffersCanonical s)
    (index : s.sli.toInt < 0 ∨ s.sli.toInt < s.nodecnt.toInt) (built : cnBuild s = .ok u) (holds : HoldsOutput u m)
    (short : u.olen.toNat ≤ s.cfg.inCap) : cnParse (copiedBack (completed u) m) = .ok (copiedBack (completed u) m) := by
  have bytes := readBytes_of_holdsOutput (canonical .obuf) built holds
  have size := (cnBuild_output built).2
  rw [length_containerBytes] at bytes size
  obtain ⟨count, payload, -, hu⟩ := cnBuild_ok built
  have config : u.cfg = s.cfg := by rw [hu]
  have tree : s.tbuf.writeBytes 0 (s.tbuf.readBytes 0 s.nodecnt.toNat) = s.tbuf := Memory.writeBytes_readBytes (canonical .tbuf) _
  have stream : s.pbuf.writeBytes 0 (s.pbuf.readBytes 0 (ceil8 s.pbits.toNat)) = s.pbuf :=
    Memory.writeBytes_readBytes (canonical .pbuf) _
  rw [← config] at short payload
  rw [containerBytes, ← config] at bytes
  rw [cnParse_container (s := copiedBack (completed u) m) size short bytes (by rw [length_content]; omega),
    parseRegion_content (copiedBack (completed u) m) _ payload count index]
  simp only [copiedBack, completed, hu, tree, stream]

/-! ## The checks of `CN.PARSE` on the header -/

/-- `contentLength` as the container in `IBUF` has it (spec/30_encoding.md R92). Not to be unfolded by the unifier, which would evaluate
the sum of eight bytes. -/
@[irreducible] def State.declaredLength (s : State) : Nat := s.ibuf.readLE 8 8

/-- The content region that the header in `IBUF` declares. -/
def State.region (s : State) : List Byte := s.ibuf.readBytes 16 s.declaredLength

theorem toNat_magic : Config.magic.toNat = 0xCAFEF00D := rfl

theorem readLE_eq_declaredLength (s : State) : s.ibuf.readLE 8 8 = s.declaredLength := by
  rw [State.declaredLength]

theorem readBytes_eq_region (s : State) : s.ibuf.readBytes 16 s.declaredLength = s.region := rfl

@[simp] theorem length_region (s : State) : s.region.length = s.declaredLength := Memory.length_readBytes _ _ _

section
variable {s : State}

theorem cnParse_of_long (h : s.ilen.toNat > s.cfg.inCap) : cnParse s = raise .capacity 1 :=
  if_pos (State.inputTooLong_iff.2 h)

variable (short : ¬ s.ilen.toNat > s.cfg.inCap)
include short

theorem cnParse_of_truncated (h : s.ilen.toNat < 28) : cnParse s = raise .truncatedLength s.ilen.toNat :=
  (if_neg (mt State.inputTooLong_iff.1 short)).trans (if_pos h)

variable (size : ¬ s.ilen.toNat < 28)
include size

theorem cnParse_of_magic (h : s.ibuf.readLE 0 4 ≠ Config.magic.toNat) : cnParse s = raise .magicMismatch (s.ibuf.readLE 0 4) :=
  (if_neg (mt State.inputTooLong_iff.1 short)).trans ((if_neg size).trans (if_pos h))

variable (magic : ¬ s.ibuf.readLE 0 4 ≠ Config.magic.toNat)
include magic

theorem cnParse_of_overflow (h : 16 + s.declaredLength > s.ilen.toNat) :
    cnParse s = raise .contentLengthOverflow s.declaredLength := by
  rw [← readLE_eq_declaredLength] at h ⊢
  exact (if_neg (mt State.inputTooLong_iff.1 short)).trans ((if_neg size).trans ((if_neg magic).trans
    (if_pos (show s.ibuf.readLE 8 8 > s.ilen.toNat - 16 by omega))))

variable (length : ¬ 16 + s.declaredLength > s.ilen.toNat)
include length

/-- With room for the content region check (d) is next. -/
theorem cnParse_of_length :
    cnParse s = if (checksum s.cfg.ck s.region).toNat ≠ s.ibuf.readLE 4 4 then
      raise .checksumMismatch ((checksum s.cfg.ck s.region).toNat * 2 ^ 32 + s.ibuf.readLE 4 4)
    else parseRegion s (checksum s.cfg.ck s.region) s.region := by
  have field : s.ibuf.readLE 4 4 < 2 ^ 32 := s.ibuf.readLE_lt 4 4
  rw [← Nat.shiftLeft_eq, Nat.shiftLeft_add_eq_or_of_lt field, State.region, ← readLE_eq_declaredLength]
  rw [← readLE_eq_declaredLength] at length
  exact (if_neg (mt State.inputTooLong_iff.1 short)).trans ((if_neg size).trans ((if_neg magic).trans
    (if_neg (show ¬ s.ibuf.readLE 8 8 > s.ilen.toNat - 16 by omega))))

theorem cnParse_of_checksum (h : (checksum s.cfg.ck s.region).toNat ≠ s.ibuf.readLE 4 4) :
    cnParse s = raise .checksumMismatch ((checksum s.cfg.ck s.region).toNat * 2 ^ 32 + s.ibuf.readLE 4 4) :=
  (cnParse_of_length short size magic length).trans (if_pos h)

theorem cnParse_of_header (sum : ¬ (checksum s.cfg.ck s.region).toNat ≠ s.ibuf.readLE 4 4) :
    cnParse s = parseRegion s (checksum s.cfg.ck s.region) s.region :=
  (cnParse_of_length short size magic length).trans (if_neg sum)

end

/-! ## The checks of `CN.PARSE` on the content region -/

/-- `nodeCount` as the container in `IBUF` has it (spec/30_encoding.md R93). -/
def State.declaredCount (s : State) : Half := BitVec.ofNat 16 (s.ibuf.readLE 16 2)

/-- `specialLeafIndex` as the container in `IBUF` has it (R93). -/
def State.declaredIndex (s : State) : Half := BitVec.ofNat 16 (s.ibuf.readLE 18 2)

/-- `bitCount` as the container in `IBUF` has it (R94). Not to be unfolded by the unifier, as `declaredLength`. -/
@[irreducible] def State.declaredBits (s : State) : Nat := s.ibuf.readLE (20 + s.declaredCount.toNat) 8

theorem ofNat_eq_declaredCount (s : State) : BitVec.ofNat 16 (s.ibuf.readLE 16 2) = s.declaredCount := rfl

theorem ofNat_eq_declaredIndex (s : State) : BitVec.ofNat 16 (s.ibuf.readLE 18 2) = s.declaredIndex := rfl

theorem readLE_eq_declaredBits (s : State) : s.ibuf.readLE (20 + s.declaredCount.toNat) 8 = s.declaredBits := by
  rw [State.declaredBits]

theorem toNat_declaredBits (s : State) : (BitVec.ofNat 64 s.declaredBits).toNat = s.declaredBits := by
  have bound : s.declaredBits < 2 ^ 64 := readLE_eq_declaredBits s ▸ s.ibuf.readLE_lt _ 8
  rw [BitVec.toNat_ofNat, Nat.mod_eq_of_lt bound]

section
variable {s : State}

theorem count_region (h : ¬ s.declaredLength < 4) : BitVec.ofNat 16 (fieldOf s.region 0 2) = s.declaredCount := by
  rw [State.region, Memory.fieldOf_readBytes _ _ (by omega), State.declaredCount]

theorem index_region (h : ¬ s.declaredLength < 4) : BitVec.ofNat 16 (fieldOf s.region 2 2) = s.declaredIndex := by
  rw [State.region, Memory.fieldOf_readBytes _ _ (by omega), State.declaredIndex]

theorem bits_region (h : ¬ 12 + s.declaredCount.toNat > s.declaredLength) :
    fieldOf s.region (4 + s.declaredCount.toNat) 8 = s.declaredBits := by
  rw [State.region, Memory.fieldOf_readBytes _ _ (by omega), ← Nat.add_assoc, State.declaredBits]

variable (c : Word)

theorem parseRegion_of_small (h : s.declaredLength < 4) : parseRegion s c s.region = raise .treeRegionOverflow s.declaredLength := by
  simp only [parseRegion, length_region]
  rw [if_pos h]

variable (small : ¬ s.declaredLength < 4)
include small

theorem parseRegion_of_count (h : s.declaredCount.toInt < 0 ∨ s.declaredCount.toInt + 4 > s.declaredLength) :
    parseRegion s c s.region = raise .treeRegionOverflow s.declaredCount.toNat := by
  simp only [parseRegion, length_region, count_region small]
  rw [if_neg small, if_pos (by omega)]

variable (count : ¬ (s.declaredCount.toInt < 0 ∨ s.declaredCount.toInt + 4 > s.declaredLength))
include count

theorem parseRegion_of_index (h : s.declaredIndex.toInt ≥ 0 ∧ s.declaredIndex.toInt ≥ s.declaredCount.toInt) :
    parseRegion s c s.region = raise .specialLeafIndexRange s.declaredIndex.toNat := by
  simp only [parseRegion, length_region, count_region small, index_region small]
  rw [if_neg small, if_neg (by omega), if_pos h]

variable (index : ¬ (s.declaredIndex.toInt ≥ 0 ∧ s.declaredIndex.toInt ≥ s.declaredCount.toInt))
include index

theorem parseRegion_of_no_room (h : 12 + s.declaredCount.toNat > s.declaredLength) :
    parseRegion s c s.region = raise .payloadRegionOverflow s.declaredLength := by
  simp only [parseRegion, length_region, count_region small, index_region small]
  rw [if_neg small, if_neg (by omega), if_neg index, if_pos (by omega)]

variable (room : ¬ 12 + s.declaredCount.toNat > s.declaredLength)
include room

/-- With room for `bitCount` the payload's own checks are next. -/
theorem parseRegion_of_room :
    parseRegion s c s.region =
      if 12 + s.declaredCount.toNat + ceil8 s.declaredBits > s.declaredLength then raise .payloadRegionOverflow s.declaredBits
      else if overCap s.cfg.pbCap (ceil8 s.declaredBits) then raise .capacity 4
      else .ok { s with
        nodecnt := s.declaredCount, sli := s.declaredIndex
        tbuf := s.tbuf.writeBytes 0 (slice s.region 4 s.declaredCount.toNat), pbits := BitVec.ofNat 64 s.declaredBits
        pbuf := s.pbuf.writeBytes 0 (slice s.region (12 + s.declaredCount.toNat) (ceil8 s.declaredBits)), cksum := c } := by
  have payload : ceil8 s.declaredBits > s.declaredLength - 12 - s.declaredCount.toNat
      ↔ 12 + s.declaredCount.toNat + ceil8 s.declaredBits > s.declaredLength := by omega
  simp only [parseRegion, length_region, count_region small, index_region small, bits_region room, payload]
  rw [if_neg small, if_neg (by omega), if_neg index, if_neg (by omega)]

theorem parseRegion_of_payload_over (h : 12 + s.declaredCount.toNat + ceil8 s.declaredBits > s.declaredLength) :
    parseRegion s c s.region = raise .payloadRegionOverflow s.declaredBits :=
  (parseRegion_of_room c small count index room).trans (if_pos h)

variable (payload : ¬ 12 + s.declaredCount.toNat + ceil8 s.declaredBits > s.declaredLength)
include payload

theorem parseRegion_of_full (h : overCap s.cfg.pbCap (ceil8 s.declaredBits) = true) :
    parseRegion s c s.region = raise .capacity 4 :=
  (parseRegion_of_room c small count index room).trans ((if_neg payload).trans (if_pos h))

/-- With every check passed the records are written, and nothing else. -/
theorem parseRegion_of_fits (h : ¬ overCap s.cfg.pbCap (ceil8 s.declaredBits) = true) :
    ∃ u, parseRegion s c s.region = .ok u ∧ u.nodecnt = s.declaredCount ∧ u.sli = s.declaredIndex
      ∧ u.pbits = BitVec.ofNat 64 s.declaredBits ∧ u.cksum = c
      ∧ u.tbuf = s.tbuf.writeBytes 0 (s.ibuf.readBytes 20 s.declaredCount.toNat)
      ∧ u.pbuf = s.pbuf.writeBytes 0 (s.ibuf.readBytes (28 + s.declaredCount.toNat) (ceil8 s.declaredBits))
      ∧ u = { s with
        nodecnt := u.nodecnt, sli := u.sli, tbuf := u.tbuf, pbits := u.pbits, pbuf := u.pbuf, cksum := u.cksum } := by
  have tree : slice s.region 4 s.declaredCount.toNat = s.ibuf.readBytes 20 s.declaredCount.toNat := by
    rw [State.region, Memory.slice_readBytes _ _ _ _ _ (by omega)]
  have stream : slice s.region (12 + s.declaredCount.toNat) (ceil8 s.declaredBits)
      = s.ibuf.readBytes (28 + s.declaredCount.toNat) (ceil8 s.declaredBits) := by
    rw [State.region, Memory.slice_readBytes _ _ _ _ _ (by omega), ← Nat.add_assoc]
  have parsed := parseRegion_of_room c small count index room
  rw [if_neg payload, if_neg h, tree, stream] at parsed
  exact ⟨_, parsed, by simp only [and_self]⟩

end

end Sys2Proof.Machine

section
open Sys2Proof Sys2Proof.Machine Sys2Proof.Claims

/-- Settles O39: the copy is the container byte for byte, and its records are still in place. -/
theorem parseRestoresBuiltRecords : Obligations.ParseRestoresBuiltRecords := by
  intro s t m canonical _ _ index ran ok holds short
  obtain ⟨u, built, rfl⟩ := exec_completed ran ok
  have frame := effect_frame (i := .cnBuild) built
  refine ⟨_, exec_of_ok (i := .cnParse) (cnParse_copiedBack canonical index built holds short), rfl, frame.nodecnt (by simp),
    frame.sli (by simp), frame.pbits (by simp), rfl, fun j => ?_, fun j => ?_⟩
  · exact congrArg (·.read j) (frame.tbuf (by simp))
  · exact congrArg (·.read j) (frame.pbuf (by simp))

/-- Settles O36: the recurrence is a polynomial over each chunk, and the chunks are XORed together. -/
theorem ckSumClosedForm : Obligations.CkSumClosedForm := fun _ =>
  exec_of_check (i := .ckSum) ckSum_of_long fun short => exec_of_ok (i := .ckSum) (ckSum_of_short (Nat.not_lt.1 short))

/-- Settles O37: the three checks in their order, then one write of header and content. -/
theorem cnBuildWritesContainer : Obligations.CnBuildWritesContainer := by
  intro s canonical
  simp only [← ceil8_eq]
  refine exec_of_check (i := .cnBuild) cnBuild_of_negative_count fun count => ?_
  have nonneg := Int.not_lt.1 count
  have unsigned : s.nodecnt.toInt.toNat = s.nodecnt.toNat := by rw [(Half.toInt_of_nonneg nonneg).1, Int.toNat_natCast]
  rw [← unsigned, ← content_eq_contentBytes nonneg, ← containerBytes_eq_headerBytes]
  refine exec_of_check (i := .cnBuild) (cnBuild_of_payload_over count) fun payload => ?_
  refine exec_of_check (i := .cnBuild) (cnBuild_of_output_over count payload) fun output => ?_
  obtain ⟨u, built⟩ := cnBuild_of_fits count payload output
  obtain ⟨written, length⟩ := cnBuild_output built
  obtain ⟨-, -, -, hu⟩ := cnBuild_ok built
  refine ⟨completed u, exec_of_ok (i := .cnBuild) built, ?_, length.trans (length_containerBytes s), length_content s, fun i => ?_, ?_⟩
  · rw [hu, completed_cksum]
  · rw [completed_obuf, written, Memory.read_writeBytes_zero canonical]
  · rw [hu, completed]

/-- Settles O38: the checks of the header, then those of the content region, each with what it raises; then the records read. -/
theorem cnParseChecksInOrder : Obligations.CnParseChecksInOrder := by
  intro s tbuf pbuf
  simp only [← Memory.readLE_eq_fieldSum, ← Memory.readBytes_eq_map, ← ceil8_eq, readLE_eq_declaredLength, readBytes_eq_region,
    ofNat_eq_declaredCount, ofNat_eq_declaredIndex, readLE_eq_declaredBits]
  rw [← toNat_magic]
  refine exec_of_check (i := .cnParse) cnParse_of_long fun short => ?_
  refine exec_of_check (i := .cnParse) (cnParse_of_truncated short) fun size => ?_
  refine exec_of_check (i := .cnParse) (cnParse_of_magic short size) fun magic => ?_
  refine exec_of_check (i := .cnParse) (cnParse_of_overflow short size magic) fun length => ?_
  refine exec_of_check (i := .cnParse) (cnParse_of_checksum short size magic length) fun sum => ?_
  have header := cnParse_of_header short size magic length sum
  refine exec_of_check (i := .cnParse) (header.trans <| parseRegion_of_small _ ·) fun small => ?_
  refine exec_of_check (i := .cnParse) (header.trans <| parseRegion_of_count _ small ·) fun count => ?_
  refine exec_of_check (i := .cnParse) (header.trans <| parseRegion_of_index _ small count ·) fun index => ?_
  refine exec_of_check (i := .cnParse) (header.trans <| parseRegion_of_no_room _ small count index ·) fun room => ?_
  refine exec_of_check (i := .cnParse) (header.trans <| parseRegion_of_payload_over _ small count index room ·) fun payload => ?_
  refine exec_of_check (i := .cnParse) (header.trans <| parseRegion_of_full _ small count index room payload ·) fun fits => ?_
  obtain ⟨u, parsed, nodecnt, sli, pbits, cksum, tree, stream, frame⟩ := parseRegion_of_fits _ small count index room payload fits
  refine ⟨completed u, exec_of_ok (i := .cnParse) (header.trans parsed), nodecnt, sli, ?_, cksum, fun i => ?_, fun i => ?_, ?_⟩
  · rw [completed_pbits, pbits, toNat_declaredBits]
  · rw [completed_tbuf, tree, Memory.read_writeBytes_readBytes tbuf]
  · rw [completed_pbuf, stream, Memory.read_writeBytes_readBytes pbuf]
  · exact congrArg completed frame

/-- Settles O40: the checks before the one that fails read none of the changed byte, and that one compares what has changed. -/
theorem corruptedByteIsDetected : Obligations.CorruptedByteIsDetected := by
  intro s t i v canonical ran ok changed inside place
  obtain ⟨u, parsed, -⟩ := exec_completed ran ok
  obtain ⟨short, size, magic, length, sum, -⟩ := cnParse_ok parsed
  rw [readLE_eq_declaredLength] at length sum
  rw [← Memory.readLE_eq_fieldSum, readLE_eq_declaredLength] at inside
  obtain ⟨s', corrupted⟩ : ∃ s', s' = { s with ibuf := s.ibuf.write i v } := ⟨_, rfl⟩
  rw [← corrupted]
  have config : s'.cfg = s.cfg := by rw [corrupted]
  have total : s'.ilen = s.ilen := by rw [corrupted]
  have buffer : s'.ibuf = s.ibuf.write i v := by rw [corrupted]
  have declared : s'.declaredLength = s.declaredLength := by
    rw [State.declaredLength, buffer, Memory.readLE_write_outside (by omega), State.declaredLength]
  rw [← config, ← total, ← Nat.not_lt] at short
  rw [← total, ← Nat.not_lt] at size
  rw [← total, ← declared, ← Nat.not_lt] at length
  split
  · next first =>
    have differs := Memory.readLE_write_ne canonical i.zero_le (show i < 0 + 4 by omega) changed
    rw [← buffer, magic] at differs
    exact ⟨_, exec_of_raise (i := .cnParse) (cnParse_of_magic short size differs)⟩
  · next later =>
    rw [← Memory.readLE_write_outside (i := i) (v := v) (by omega), ← buffer] at magic
    refine ⟨_, exec_of_raise (i := .cnParse) (cnParse_of_checksum short size (not_not.2 magic) length ?_)⟩
    rw [State.region, declared, buffer, config]
    rcases place with header | content
    · rw [Memory.readBytes_write_outside (by omega), sum]
      exact (Memory.readLE_write_ne canonical (by omega) (by omega) changed).symm
    · rw [Memory.readLE_write_outside (a := 4) (by omega), ← sum]
      exact mt BitVec.eq_of_toNat_eq (Memory.checksum_write_ne canonical content inside changed s.cfg.ck)

end
end

section
/-! SUPPORT. The unpacker as the statements of spec/45_unpacker.md see it: the checks of `UP.DECODE` in their order and its result by a
reading of the payload's bits (R210 to R216), and the payload that the packer's commands leave (R217). -/

namespace Sys2Proof.Machine

open Sys2Proof.Claims

/-! ## The payload's bits and the input's bytes -/

theorem readBits_eq_payloadBits (s : State) : s.pbuf.readBits 0 s.pbits.toNat = payloadBits s := by
  simp [Memory.readBits_eq_map, payloadBits, Memory.bitRead]

@[simp] theorem length_payloadBits (s : State) : (payloadBits s).length = s.pbits.toNat := by
  simp [payloadBits]

/-- The payload's bits are few enough for `OLEN` to hold the number of the keys read from them. -/
theorem toNat_length_keys {s : State} {tr : HuffmanTree} {ks : List Byte} {rest : List Bool} (h : Reads tr (payloadBits s) ks rest) :
    (BitVec.ofNat 64 ks.length).toNat = ks.length := by
  have short := h.length_le
  rw [length_payloadBits] at short
  exact Nat.mod_eq_of_lt (short.trans_lt s.pbits.isLt)

@[simp] theorem length_inputBytes (s : State) : (inputBytes s).length = s.ilen.toNat := by
  simp [inputBytes]

/-! ## `UP.DECODE` -/

theorem upDecode_of_no_tree {s : State} (h : s.tree = none) : upDecode s = raise .noTree 0 := by
  rw [upDecode, h]

section
variable {s : State} {tr : HuffmanTree} (held : s.tree = some tr)
include held

theorem upDecode_of_payload_over (h : overCap s.cfg.pbCap (ceil8 s.pbits.toNat) = true) : upDecode s = raise .capacity 4 := by
  rw [upDecode, held]
  exact if_pos h

variable (payload : ¬ overCap s.cfg.pbCap (ceil8 s.pbits.toNat) = true)
  {ks : List Byte} {rest : List Bool} (reading : Reads tr (payloadBits s) ks rest)
include payload reading

theorem upDecode_of_output_over (h : overCap s.cfg.outCap ks.length = true) : upDecode s = raise .capacity 2 := by
  obtain ⟨rfl, -⟩ := walk_reads reading
  rw [upDecode, held, readBits_eq_payloadBits]
  exact (if_neg payload).trans (if_pos h)

/-- What `UP.DECODE` writes is the reading: its keys, how many they are, and whether an unfinished code is left. -/
theorem upDecode_of_fits (h : ¬ overCap s.cfg.outCap ks.length = true) :
    upDecode s = .ok { s with obuf := s.obuf.writeBytes 0 ks, olen := BitVec.ofNat 64 ks.length, tail := !rest.isEmpty } := by
  obtain ⟨rfl, unfinished⟩ := walk_reads reading
  rw [upDecode, held, readBits_eq_payloadBits, ← unfinished]
  exact (if_neg payload).trans (if_neg h)

end

/-! ## The payload the packer's commands leave -/

/-- The first of some commands that all complete has made its effect, and the others run from there. -/
theorem runWhileOk_cons_ok {i : Instr} {is : List Instr} {s t : State} (h : runWhileOk (i :: is) s = .ok t) :
    ∃ u, effect i s = .ok u ∧ runWhileOk is (completed u) = .ok t := by
  rw [runWhileOk, exec_eq_finish] at h
  cases made : effect i s with
  | ok u => exact ⟨u, rfl, by simpa [made] using h⟩
  | error f => simp [made] at h

/-- A new stream with the codes of the input, flushed: its bits are the payload, which fits, and the output and the capacities are kept. -/
theorem runWhileOk_pack {s t : State} (h : runWhileOk [.pkRst, .pkEncode, .pkFlush] s = .ok t) (hm : s.pbuf.wf) :
    payloadBits t = codeBits s.ct (inputBytes s) ∧ overCap s.cfg.pbCap (ceil8 t.pbits.toNat) = false ∧ t.cfg = s.cfg ∧ t.obuf = s.obuf := by
  obtain ⟨u, reset, h⟩ := runWhileOk_cons_ok h
  obtain ⟨v, encode, h⟩ := runWhileOk_cons_ok h
  obtain ⟨w, flush, h⟩ := runWhileOk_cons_ok h
  cases reset
  obtain ⟨-, codes, found, append⟩ := pkEncode_ok encode
  obtain ⟨small, fits, rfl⟩ := packBits_ok append
  cases flush
  cases h
  have empty : (completed (pkRst s)).pk.bitcnt.toNat = 0 := rfl
  obtain ⟨bits, total⟩ := flatten_codes (lookupCodes_ok found)
  rw [empty, Nat.zero_add, total] at small fits
  obtain ⟨ok, count, stream⟩ := Packer.fresh_putBits small fits
  refine ⟨?_, (congrArg (overCap _ <| ceil8 ·) count).trans fits, rfl, rfl⟩
  rw [← readBits_eq_payloadBits, ← input_eq_inputBytes]
  exact (Packer.readBits_flushed ok hm).trans (stream.trans bits)

end Sys2Proof.Machine

section
open Sys2Proof Sys2Proof.Machine Sys2Proof.Claims

/-- Settles O43: the payload is the input's codes one after another, and along a tree of that shape they read back as the input. -/
theorem unpackInvertsPack : Obligations.UnpackInvertsPack := by
  intro s a b tr dec canonical held distinct shape keys room derive clean pack
  obtain ⟨u, derived, rfl⟩ := exec_completed derive clean
  obtain ⟨tr', held', -, rfl⟩ := trCodes_ok derived
  obtain rfl : tr = tr' := Option.some.inj (held.symm.trans held')
  obtain ⟨payload, fits, cfg, obuf⟩ := runWhileOk_pack pack (canonical .pbuf)
  have reading : Reads dec (payloadBits b) (inputBytes s) [] := payload ▸ reads_codeBits distinct shape (inputBytes s) keys
  have decoded := upDecode_of_fits (s := { b with tree := some dec }) rfl (by simpa [cfg] using fits) reading
    (by simpa [cfg] using room)
  refine ⟨_, exec_of_ok (i := .upDecode) decoded, rfl, ?_, rfl, fun i inside => ?_⟩
  · simp
  · have written := Memory.read_writeBytes_zero (obuf ▸ canonical .obuf : b.obuf.wf) (inputBytes s) i
    rw [length_inputBytes, if_pos inside] at written
    exact written.trans (by simp [inputBytes, inside])

/-- Settles O41: the checks in their order, and what is written is any reading of the payload's bits. -/
theorem upDecodeWalksTree : Obligations.UpDecodeWalksTree := by
  intro s canonical
  split
  · next held => exact exec_of_raise (i := .upDecode) (upDecode_of_no_tree held)
  · next tr held =>
    rw [← ceil8_eq]
    refine exec_of_check (upDecode_of_payload_over held) fun payload => ⟨reads_exists tr _, fun ks rest reading => ?_⟩
    refine exec_of_check (upDecode_of_output_over held payload reading) fun output => ?_
    exact ⟨_, exec_of_ok (i := .upDecode) (upDecode_of_fits held payload reading output), toNat_length_keys reading, rfl,
      Memory.read_writeBytes_zero canonical ks, rfl⟩

/-- Settles O42: along a Leaf the reading is the key once a bit, with no bit left. -/
theorem upDecodeOfLeafRoot : Obligations.UpDecodeOfLeafRoot := by
  intro s key weight canonical held payload output
  rw [← ceil8_eq] at payload
  have reading : Reads (.leaf key weight) (payloadBits s) (List.replicate s.pbits.toNat key) [] := by simp [Reads]
  have written := upDecode_of_fits held payload reading (by simpa using output)
  rw [List.length_replicate, BitVec.ofNat_toNat, BitVec.setWidth_eq] at written
  refine ⟨_, exec_of_ok (i := .upDecode) written, rfl, fun i => ?_, rfl⟩
  refine (Memory.read_writeBytes_zero canonical _ i).trans ?_
  rw [List.length_replicate]
  split
  · next inside => rw [List.getD_replicate _ inside]
  · rfl

end
end

section
/-! SUPPORT. The entry points by their cases and as the commands of their chains (spec/46_entry_points.md R230, R231): no command reads
the fault record, so that it does not matter whether the record is written between two commands or only after the last. -/

namespace Sys2Proof.Machine

open Sys2Proof.Claims

/-! ## The cases of an entry point -/

section
variable {s : State}

theorem compress_of_long (h : s.ilen.toNat > s.cfg.inCap) : compress s = raise .capacity 1 :=
  if_pos (State.inputTooLong_iff.2 h)

theorem decompress_of_long (h : s.ilen.toNat > s.cfg.inCap) : decompress s = raise .capacity 1 :=
  if_pos (State.inputTooLong_iff.2 h)

variable (short : ¬ s.ilen.toNat > s.cfg.inCap)
include short

theorem compress_of_empty (h : s.ilen = 0) : compress s = .ok { s with olen := 0 } :=
  (if_neg (mt State.inputTooLong_iff.1 short)).trans (if_pos h)

theorem compress_of_nonempty (h : ¬ s.ilen = 0) : compress s = compressChain s :=
  (if_neg (mt State.inputTooLong_iff.1 short)).trans (if_neg h)

theorem decompress_of_empty (h : s.ilen = 0) : decompress s = .ok { s with olen := 0, tail := false } :=
  (if_neg (mt State.inputTooLong_iff.1 short)).trans (if_pos h)

theorem decompress_of_nonempty (h : ¬ s.ilen = 0) : decompress s = decompressChain s :=
  (if_neg (mt State.inputTooLong_iff.1 short)).trans (if_neg h)

end

/-- `COMPRESS` completed: on an empty input, or by its chain. -/
theorem compress_ok_cases {s u : State} (h : compress s = .ok u) :
    s.ilen = 0 ∧ u = { s with olen := 0 } ∨ s.ilen ≠ 0 ∧ compressChain s = .ok u := by
  by_cases long : s.ilen.toNat > s.cfg.inCap
  · rw [compress_of_long long] at h
    cases h
  · by_cases empty : s.ilen = 0
    · rw [compress_of_empty long empty] at h
      cases h
      exact .inl ⟨empty, rfl⟩
    · exact .inr ⟨empty, (compress_of_nonempty long empty).symm.trans h⟩

/-! ## No command reads the fault record -/

section
variable {α β : Type} (f : α → β)

theorem map_ite (c : Prop) [Decidable c] (x y : Except Raised α) : (if c then x else y).map f = if c then x.map f else y.map f :=
  apply_ite _ _ _ _

theorem map_ok (x : α) : (.ok x : Except Raised α).map f = .ok (f x) := rfl

theorem map_raise (k : FaultKind) (info : Nat) : (raise k info : Except Raised α).map f = raise k info := rfl

end

/-- An effect that comes to the same, but for the fault record, from a state whose record is clean. -/
def RecordBlind (f : State → Except Raised State) : Prop := ∀ s, f (completed s) = (f s).map completed

/-- Two blind effects one after the other are blind. -/
theorem RecordBlind.bind {f g : State → Except Raised State} (hf : RecordBlind f) (hg : RecordBlind g) :
    RecordBlind fun s => f s >>= g := by
  intro s
  dsimp only
  rw [hf s]
  cases f s with
  | ok u => exact hg u
  | error e => rfl

section
variable (s : State)

@[simp] theorem completed_input : (completed s).input = s.input := rfl

theorem packBits_completed (n : Nat) (bits : List Bool) : packBits (completed s) n bits = (packBits s n bits).map completed := by
  simp only [packBits, map_ite]
  rfl

theorem parseRegion_completed (c : Word) (region : List Byte) :
    parseRegion (completed s) c region = (parseRegion s c region).map completed := by
  simp only [parseRegion, map_ite, map_raise]
  rfl

end

theorem recordBlind_ctLoad (sym : Byte) : RecordBlind (ctLoad sym) := by
  intro s
  simp only [ctLoad, map_ite]
  rfl

theorem recordBlind_pkAppend (sym : Byte) : RecordBlind (pkAppend sym) := by
  intro s
  simp only [pkAppend, completed_ct]
  split
  · rfl
  · exact packBits_completed _ _ _

theorem recordBlind_pkEncode : RecordBlind pkEncode := by
  intro s
  simp only [pkEncode, map_ite, completed_input, completed_ct]
  refine if_congr Iff.rfl rfl ?_
  split
  · rfl
  · exact packBits_completed _ _ _

theorem recordBlind_fqCount : RecordBlind fqCount := by
  intro s
  simp only [fqCount, map_ite]
  rfl

theorem recordBlind_trBuild : RecordBlind trBuild := by
  intro s
  simp only [trBuild, completed_freq]
  split
  · rfl
  · rw [map_ite]
    rfl

theorem recordBlind_trCodes : RecordBlind trCodes := by
  intro s
  simp only [trCodes, completed_tree]
  split
  · rfl
  · split <;> rfl

theorem recordBlind_trSer : RecordBlind trSer := by
  intro s
  simp only [trSer, completed_tree]
  split <;> rfl

theorem recordBlind_trDeser : RecordBlind trDeser := by
  intro s
  simp only [trDeser, map_ite, map_raise, completed_sli, completed_nodecnt, completed_tbuf]
  refine if_congr Iff.rfl rfl (if_congr Iff.rfl rfl ?_)
  split <;> rfl

theorem recordBlind_ckSum : RecordBlind ckSum := by
  intro s
  simp only [ckSum, map_ite]
  rfl

theorem recordBlind_cnBuild : RecordBlind cnBuild := by
  intro s
  simp only [cnBuild, content, map_ite, map_raise, map_ok, completed]
  rfl

theorem recordBlind_cnParse : RecordBlind cnParse := by
  intro s
  simp only [cnParse, map_ite, map_raise, ← parseRegion_completed]
  rfl

theorem recordBlind_upDecode : RecordBlind upDecode := by
  intro s
  simp only [upDecode, completed_tree]
  split
  · rfl
  · simp only [map_ite]
    rfl

theorem recordBlind_compress : RecordBlind compress := by
  have chain : RecordBlind compressChain :=
    .bind (f := fun s => fqCount (fqClr s)) (fun s => recordBlind_fqCount (fqClr s)) <|
    recordBlind_trBuild.bind <| recordBlind_trCodes.bind <|
    .bind (f := fun s => pkEncode (pkRst s)) (fun s => recordBlind_pkEncode (pkRst s)) <|
    .bind (f := fun s => trSer (pkFlush s)) (fun s => recordBlind_trSer (pkFlush s)) recordBlind_cnBuild
  intro s
  simp only [compress, map_ite, ← chain s]
  rfl

theorem recordBlind_decompress : RecordBlind decompress := by
  have chain : RecordBlind decompressChain := recordBlind_cnParse.bind (recordBlind_trDeser.bind recordBlind_upDecode)
  intro s
  simp only [decompress, map_ite, ← chain s]
  rfl

theorem recordBlind_effect (i : Instr) : RecordBlind (effect i) := by
  cases i with
  | nop | reset | clrf | ctClr | pkRst | pkFlush | fqClr => exact fun _ => rfl
  | ctLoad sym => exact recordBlind_ctLoad sym
  | pkAppend sym => exact recordBlind_pkAppend sym
  | pkEncode => exact recordBlind_pkEncode
  | fqCount => exact recordBlind_fqCount
  | trBuild => exact recordBlind_trBuild
  | trCodes => exact recordBlind_trCodes
  | trSer => exact recordBlind_trSer
  | trDeser => exact recordBlind_trDeser
  | ckSum => exact recordBlind_ckSum
  | cnBuild => exact recordBlind_cnBuild
  | cnParse => exact recordBlind_cnParse
  | upDecode => exact recordBlind_upDecode
  | compress => exact recordBlind_compress
  | decompress => exact recordBlind_decompress

/-! ## The commands of a chain, one after another -/

/-- The effects of some commands one after another, the fault record not written. -/
def effects (is : List Instr) (s : State) : Except Raised State := is.foldlM (fun s i => effect i s) s

theorem runWhileOk_cons (i : Instr) (is : List Instr) (s : State) :
    runWhileOk (i :: is) s = effect i s >>= fun u => runWhileOk is (completed u) := by
  rw [runWhileOk, exec_eq_finish]
  cases effect i s <;> rfl

theorem runWhileOk_completed (is : List Instr) (s : State) : runWhileOk is (completed s) = (effects is s).map completed := by
  induction is generalizing s with
  | nil => rfl
  | cons i is ih =>
    rw [runWhileOk_cons, recordBlind_effect, effects, List.foldlM_cons]
    cases effect i s with
    | ok u => exact ih u
    | error f => rfl

/-- Commands run one after another are their effects one after another, with a clean record at the end. -/
theorem runWhileOk_eq_effects (i : Instr) (is : List Instr) (s : State) :
    runWhileOk (i :: is) s = (effects (i :: is) s).map completed := by
  rw [runWhileOk_cons, effects, List.foldlM_cons]
  cases effect i s with
  | ok u => exact runWhileOk_completed is u
  | error f => rfl

theorem compressChain_eq_effects (s : State) :
    compressChain s = effects [.fqClr, .fqCount, .trBuild, .trCodes, .pkRst, .pkEncode, .pkFlush, .trSer, .cnBuild] s := by
  simp only [effects, List.foldlM_cons, List.foldlM_nil, bind_pure]
  rfl

theorem decompressChain_eq_effects (s : State) : decompressChain s = effects [.cnParse, .trDeser, .upDecode] s := by
  simp only [effects, List.foldlM_cons, List.foldlM_nil, bind_pure]
  rfl

/-- A command whose effect is that of others one after another ends as they end, and on a fault with none of their writes. -/
theorem exec_of_effects {i j : Instr} {is : List Instr} {s : State} (h : effect i s = effects (j :: is) s) :
    match runWhileOk (j :: is) s with
    | .ok t => exec i s = .next t
    | .error f => exec i s = .next (faulted s f.kind f.info.toNat) := by
  rw [exec_eq_finish, h, runWhileOk_eq_effects]
  cases effects (j :: is) s with
  | ok u => rfl
  | error f => simp [Except.map, faulted, takeFault]

end Sys2Proof.Machine

section
open Sys2Proof Sys2Proof.Machine Sys2Proof.Claims

/-- Settles O44: the chain is the effects of the nine commands, and no command reads the record the one before it leaves. -/
theorem compressIsItsNineCommands : Obligations.CompressIsItsNineCommands := by
  intro s
  refine exec_of_check (i := .compress) compress_of_long fun short => ?_
  split
  · next empty => exact exec_of_ok (i := .compress) (compress_of_empty short empty)
  · next nonempty =>
    exact exec_of_effects (i := .compress) ((compress_of_nonempty short nonempty).trans (compressChain_eq_effects s))

/-- Settles O45: the chain is the effects of the three commands, and no command reads the record the one before it leaves. -/
theorem decompressIsItsThreeCommands : Obligations.DecompressIsItsThreeCommands := by
  intro s
  refine exec_of_check (i := .decompress) decompress_of_long fun short => ?_
  split
  · next empty => exact exec_of_ok (i := .decompress) (decompress_of_empty short empty)
  · next nonempty =>
    exact exec_of_effects (i := .decompress) ((decompress_of_nonempty short nonempty).trans (decompressChain_eq_effects s))

end
end

section
/-! SUPPORT. What `DECOMPRESS` leaves of a container of any records (spec/46_entry_points.md R231). -/

namespace Sys2Proof.Machine

open Sys2Proof.Claims

/-! ## The records of a container -/

/-- The state with the records of another one loaded over its own, as `CN.PARSE` leaves it (spec/44_container.md R188). -/
def State.loading (s r : State) : State :=
  { s with
    nodecnt := r.nodecnt
    sli := r.sli
    tbuf := s.tbuf.writeBytes 0 (r.tbuf.readBytes 0 r.nodecnt.toNat)
    pbits := r.pbits
    pbuf := s.pbuf.writeBytes 0 (r.pbuf.readBytes 0 (ceil8 r.pbits.toNat))
    cksum := checksum s.cfg.ck (content r) }

/-- Memories that read alike from the first index on agree on each byte there. -/
theorem Memory.read_of_readBytes_eq {m k : Memory} {n i : Nat} (h : m.readBytes 0 n = k.readBytes 0 n) (inside : i < n) :
    m.read i = k.read i := by
  have byte := congrArg (·[i]?) h
  simpa only [Memory.getElem?_readBytes, if_pos inside, Nat.zero_add, Option.some.injEq] using byte

/-- The payload's bits stand in the payload's bytes. -/
theorem payloadBits_congr {s r : State} (bits : s.pbits = r.pbits)
    (bytes : s.pbuf.readBytes 0 (ceil8 r.pbits.toNat) = r.pbuf.readBytes 0 (ceil8 r.pbits.toNat)) : payloadBits s = payloadBits r := by
  rw [payloadBits, payloadBits, bits]
  refine List.map_congr_left fun k hk => ?_
  have inside : k / 8 < ceil8 r.pbits.toNat := by
    have := List.mem_range.1 hk
    rw [ceil8_eq]
    omega
  rw [Memory.read_of_readBytes_eq bytes inside]

/-- A buffer that was written from the first index on holds what was written. -/
theorem Memory.readBytes_writeBytes_readBytes {m : Memory} (hm : m.wf) (k : Memory) (n : Nat) :
    (m.writeBytes 0 (k.readBytes 0 n)).readBytes 0 n = k.readBytes 0 n := by
  simpa using Memory.readBytes_writeBytes hm 0 (k.readBytes 0 n)

theorem read_tbuf_loading {s r : State} (canonical : s.tbuf.wf) (i : Nat) :
    (s.loading r).tbuf.read i = if i < r.nodecnt.toNat then r.tbuf.read i else s.tbuf.read i := by
  simpa [State.loading] using Memory.read_writeBytes_readBytes canonical r.tbuf 0 r.nodecnt.toNat i

theorem read_pbuf_loading {s r : State} (canonical : s.pbuf.wf) (i : Nat) :
    (s.loading r).pbuf.read i = if i < (r.pbits.toNat + 7) / 8 then r.pbuf.read i else s.pbuf.read i := by
  simpa [State.loading, ceil8_eq] using Memory.read_writeBytes_readBytes canonical r.pbuf 0 (ceil8 r.pbits.toNat) i

theorem payloadBits_loading {s r : State} (canonical : s.pbuf.wf) : payloadBits (s.loading r) = payloadBits r :=
  payloadBits_congr rfl (Memory.readBytes_writeBytes_readBytes canonical _ _)

theorem record_loading {s r : State} (canonical : s.tbuf.wf) (count : 0 ≤ r.nodecnt.toInt) : (s.loading r).record = r.record := by
  have unsigned : r.nodecnt.toInt.toNat = r.nodecnt.toNat := by rw [(Half.toInt_of_nonneg count).1, Int.toNat_natCast]
  rw [State.record, State.record, show (s.loading r).nodecnt = r.nodecnt from rfl, unsigned]
  exact Memory.readBytes_writeBytes_readBytes canonical _ _

/-- A record that lists a tree is loaded as that tree, weights 0 (spec/43_tree_codec.md R168). -/
theorem trDeser_of_listed {s : State} {tr : HuffmanTree} (count : 0 ≤ s.nodecnt.toInt)
    (index : s.sli.toInt < 0 ∨ s.sli.toInt < s.nodecnt.toInt) (listed : recordMarked s = tr.listing) :
    trDeser s = .ok { s with tree := some tr.unweighted } := by
  rw [recordMarked_eq] at listed
  have nodes := congrArg List.length listed
  rw [length_markedBytes, length_record, HuffmanTree.length_listing] at nodes
  rw [State.record, nodes] at listed
  exact trDeser_listing (by omega) index listed

/-- The records in a container, as R188 and R231 have them: their payload fits, their count and index are in range. -/
structure Loadable (s r : State) : Prop where
  input : inputBytes s = headerBytes (checksum s.cfg.ck (content r)) (content r).length ++ content r
  short : s.ilen.toNat ≤ s.cfg.inCap
  payload : overCap s.cfg.pbCap (ceil8 r.pbits.toNat) = false
  count : 0 ≤ r.nodecnt.toInt
  index : r.sli.toInt < 0 ∨ r.sli.toInt < r.nodecnt.toInt

section
variable {s r : State} (h : Loadable s r)
include h

theorem Loadable.input_eq : s.input = containerBytes { r with cfg := s.cfg } := by
  rw [input_eq_inputBytes, h.input, containerBytes_eq_headerBytes]
  rfl

theorem Loadable.ilen : s.ilen.toNat = 16 + (content r).length := by
  have length := congrArg List.length h.input_eq
  rwa [input_eq_inputBytes, length_inputBytes, length_containerBytes] at length

theorem Loadable.cnParse : cnParse s = .ok (s.loading r) := by
  have bytes := h.input_eq
  rw [State.input, h.ilen] at bytes
  rw [cnParse_container h.ilen h.short bytes (by rw [length_content]; omega), parseRegion_content s _ h.payload h.count h.index]
  rfl

/-- On the container of some records `DECOMPRESS` leaves the records, the tree they list and what that tree reads from the payload. -/
theorem Loadable.decompress {tr : HuffmanTree} {ks : List Byte} {rest : List Bool} (tbuf : s.tbuf.wf) (pbuf : s.pbuf.wf)
    (listed : recordMarked r = tr.listing) (weightless : tr.unweighted = tr) (reading : Reads tr (payloadBits r) ks rest)
    (room : ¬ overCap s.cfg.outCap ks.length = true) :
    Machine.decompress s = .ok { s.loading r with
      tree := some tr, obuf := s.obuf.writeBytes 0 ks, olen := BitVec.ofNat 64 ks.length, tail := !rest.isEmpty } := by
  have pos : 0 < s.ilen.toNat := by
    rw [h.ilen]
    omega
  have nonempty : ¬ s.ilen = 0 := fun empty => by simp [empty] at pos
  have loaded : recordMarked (s.loading r) = recordMarked r := by
    rw [recordMarked_eq, recordMarked_eq, record_loading tbuf h.count]
    rfl
  have deser := trDeser_of_listed (s := s.loading r) h.count h.index (loaded.trans listed)
  rw [weightless] at deser
  have loadedReading : Reads tr (payloadBits (s.loading r)) ks rest := by rwa [payloadBits_loading pbuf]
  have decode := upDecode_of_fits (s := { s.loading r with tree := some tr }) rfl (Bool.eq_false_iff.1 h.payload) loadedReading room
  rw [decompress_of_nonempty (Nat.not_lt.2 h.short) nonempty, decompressChain, h.cnParse]
  exact (congrArg (· >>= upDecode) deser).trans decode

end

end Sys2Proof.Machine

section
open Sys2Proof Sys2Proof.Machine Sys2Proof.Claims

/-- Settles O47: `CN.PARSE` loads the records, `TR.DESER` the tree they list, and `UP.DECODE` writes the reading of the payload. -/
theorem decompressUnpacksContainer : Obligations.DecompressUnpacksContainer := by
  intro s r tr ks rest canonical _ input short payload count index listed weightless reading room
  have loadable : Loadable s r := by
    refine ⟨?_, short, by simpa [ceil8_eq] using payload, count, index⟩
    rwa [content_eq_contentBytes count]
  have made := loadable.decompress (canonical .tbuf) (canonical .pbuf) listed weightless reading room
  exact ⟨_, exec_of_ok (i := .decompress) made, rfl, rfl, rfl, rfl, congrArg (checksum s.cfg.ck) (content_eq_contentBytes count),
    read_tbuf_loading (canonical .tbuf), read_pbuf_loading (canonical .pbuf), toNat_length_keys reading, rfl,
    Memory.read_writeBytes_zero (canonical .obuf) ks, rfl⟩

end
end

section
/-! SUPPORT. What the chain of `COMPRESS` leaves in its records (spec/46_entry_points.md R230, R234), and so the round trip (R232). -/

namespace Sys2Proof.Machine

open Sys2Proof.Claims

/-! ## The records the chain of `COMPRESS` leaves -/

namespace ChainFacts

variable {s : State} (f : ChainFacts s)

/-- The state `CN.BUILD` is given, with the chain's records. -/
def records : State := serialised s f.tr f.fq f.bits

theorem bits_eq : f.bits = codeBits (writeCodes emptyCodes f.tr.codes) (inputBytes s) := input_eq_inputBytes s ▸ f.hbits

theorem payloadBits_records (canonical : s.pbuf.wf) : payloadBits f.records = f.bits := by
  obtain ⟨ok, -, stream⟩ := Packer.fresh_putBits f.small f.fits
  rw [← readBits_eq_payloadBits]
  exact (Packer.readBits_flushed ok canonical).trans stream

theorem toInt_nodecnt : f.records.nodecnt.toInt = f.tr.nodes := f.tr.toInt_nodes f.built.ok

theorem sli_in_range : f.records.sli.toInt < 0 ∨ f.records.sli.toInt < f.records.nodecnt.toInt := by
  have range := (marked_emit f.tr { out := [], sli := -1 } f.built.ok.oneZero (by decide)).2
  rw [toInt_nodecnt, show f.records.sli = f.tr.specialIndex from rfl, f.tr.toInt_specialIndex f.built.ok]
  simp only [List.length_nil] at range
  omega

theorem recordMarked_records (canonical : s.tbuf.wf) : recordMarked f.records = f.tr.listing := by
  have bytes : f.records.record = f.tr.listing.map Prod.fst := by
    rw [State.record, toInt_nodecnt, Int.toNat_natCast, ← length_listing_fst]
    exact Memory.readBytes_writeBytes canonical 0 _
  rw [recordMarked_eq, bytes]
  exact f.tr.marked_specialIndex f.built.ok

theorem mem_keys {y : Byte} : y ∈ inputBytes s ↔ y ∈ f.tr.keys := input_eq_inputBytes s ▸ mem_input_iff f.counts f.built y

/-- The input's codes read back as the input, weights forgotten. -/
theorem reads_records (canonical : s.pbuf.wf) : Reads f.tr.unweighted (payloadBits f.records) (inputBytes s) [] := by
  rw [f.payloadBits_records canonical, f.bits_eq]
  exact reads_codeBits f.built.keys_nodup (by simp) _ fun y hy => f.mem_keys.1 hy

end ChainFacts

/-- The container in the output, copied back, loads the records it was built from. -/
theorem loadable_copiedBack {r u : State} {m : Memory} (canonical : r.obuf.wf) (index : r.sli.toInt < 0 ∨ r.sli.toInt < r.nodecnt.toInt)
    (built : cnBuild r = .ok u) (holds : HoldsOutput u m) (short : u.olen.toNat ≤ r.cfg.inCap) :
    Loadable (copiedBack (completed u) m) r := by
  have config : u.cfg = r.cfg := (effect_frame (i := .cnBuild) built).cfg
  obtain ⟨count, payload, -, -⟩ := cnBuild_ok built
  refine ⟨?_, config ▸ short, config ▸ payload, count, index⟩
  have input : (copiedBack (completed u) m).input = containerBytes r := by
    have bytes := readBytes_of_holdsOutput canonical built holds
    rwa [← (cnBuild_output built).2] at bytes
  rw [← input_eq_inputBytes, input, containerBytes_eq_headerBytes, ← config]
  rfl

theorem getD_inputBytes {s : State} {i : Nat} (h : i < s.ilen.toNat) : (inputBytes s).getD i 0 = s.ibuf.read i := by
  simp [inputBytes, h]

/-! ## The codes of a tree -/

theorem tableGet_codes_ne_none_iff {t : HuffmanTree} {y : Byte} : tableGet (writeCodes emptyCodes t.codes) y ≠ none ↔ y ∈ t.keys := by
  refine ⟨fun entry => ?_, fun key => ?_⟩
  · by_contra absent
    exact entry ((tableGet_writeCodes_absent _ _ (t.codes_map_fst.symm ▸ absent)).trans (tableGet_emptyCodes y))
  · obtain ⟨p, entry, -⟩ := exists_code key
    simp [entry]

theorem isCode_of_tableGet {t : HuffmanTree} {y : Byte} {c : BitSequence} (h : tableGet (writeCodes emptyCodes t.codes) y = some c) :
    IsCode t y c.bits := by
  obtain ⟨p, entry, code⟩ := exists_code (tableGet_codes_ne_none_iff.1 (Option.ne_none_iff_exists'.2 ⟨c, h⟩))
  cases h.symm.trans entry
  exact code

end Sys2Proof.Machine

section
open Sys2Proof Sys2Proof.Machine Sys2Proof.Claims

/-- Settles O48: the copy is the container of records that list the tree, and the payload in them reads back as the input. -/
theorem compressDecompressRoundTrip : Obligations.CompressDecompressRoundTrip := by
  intro s t m canonical _ ran clean holds short room
  obtain ⟨u, made, rfl⟩ := exec_completed ran clean
  rcases compress_ok_cases made with ⟨empty, rfl⟩ | ⟨-, chain⟩
  · have short : ¬ (copiedBack (completed { s with olen := 0 }) m).ilen.toNat > s.cfg.inCap := Nat.not_lt_zero _
    refine ⟨_, exec_of_ok (i := .decompress) (decompress_of_empty short rfl), rfl, empty.symm, rfl, fun i inside => ?_⟩
    simp [empty] at inside
  · obtain ⟨f, built, -⟩ := compressChain_facts chain
    have config : u.cfg = s.cfg := (effect_frame (i := .compress) made).cfg
    have kept : BuffersCanonical u := effect_canonical (i := .compress) made canonical
    have listed : recordMarked f.records = f.tr.unweighted.listing := by
      rw [f.recordMarked_records (canonical .tbuf), HuffmanTree.listing_unweighted]
    have room : ¬ overCap (copiedBack (completed u) m).cfg.outCap (inputBytes s).length = true := by
      simpa [copiedBack, config] using room
    have loadable := loadable_copiedBack (r := f.records) (canonical .obuf) f.sli_in_range built holds short
    have decoded := loadable.decompress (kept .tbuf) (kept .pbuf) listed f.tr.unweighted_unweighted (f.reads_records (canonical .pbuf)) room
    refine ⟨_, exec_of_ok (i := .decompress) decoded, rfl, by simp, rfl, fun i inside => ?_⟩
    have written := Memory.read_writeBytes_zero (kept .obuf) (inputBytes s) i
    rw [length_inputBytes, if_pos inside, getD_inputBytes inside] at written
    exact written

/-- Settles O46: with that room the chain completes, and what it leaves are its facts. -/
theorem compressCompletesAndLeavesResults : Obligations.CompressCompletesAndLeavesResults := by
  intro s canonical range pos short payload output
  have nonempty : ¬ s.ilen = 0 := fun empty => by simp [empty] at pos
  obtain ⟨u, chain⟩ := compressChain_total range pos short (Bool.eq_false_iff.2 payload) (Bool.eq_false_iff.2 output)
  obtain ⟨f, built, -⟩ := compressChain_facts chain
  obtain ⟨-, -, -, rfl⟩ := cnBuild_ok built
  obtain ⟨-, -, stream⟩ := Packer.fresh_putBits f.small f.fits
  refine ⟨_, f.tr, exec_of_ok (i := .compress) ((compress_of_nonempty (Nat.not_lt.2 short) nonempty).trans chain), rfl, fun y => ?_, rfl,
    startEntries_eq _ ▸ f.built.builds, fun y c => isCode_of_tableGet, fun y => ?_, rfl, stream.trans f.bits_eq,
    (f.payloadBits_records (canonical .pbuf)).trans f.bits_eq, rfl, rfl, rfl, rfl, rfl, rfl⟩
  · rw [← input_eq_inputBytes]
    exact f.counts y
  · exact tableGet_codes_ne_none_iff.trans f.mem_keys.symm

end
end

section
/-! SUPPORT. `COMPRESS` in two states that agree on the configuration and the input (spec/46_entry_points.md R233): command by command the
chain writes the same into both, or raises the same. -/

namespace Sys2Proof.Machine

open Sys2Proof.Claims

/-- A part of what was written from the first index on is that part of the sequence written. -/
theorem Memory.readBytes_writeBytes_le {m : Memory} (hm : m.wf) {bs : List Byte} {n : Nat} (h : n ≤ bs.length) :
    (m.writeBytes 0 bs).readBytes 0 n = bs.take n := by
  have part := Memory.slice_readBytes (m.writeBytes 0 bs) 0 bs.length 0 n (by omega)
  rwa [Memory.readBytes_writeBytes hm, slice, List.drop_zero, eq_comm] at part

/-! ## Two results that agree -/

/-- Two effects end alike: both with states that the relation holds of, or both with the same fault. -/
inductive EndAlike (R : State → State → Prop) : Except Raised State → Except Raised State → Prop where
  | ok {u u' : State} (h : R u u') : EndAlike R (.ok u) (.ok u')
  | error (f : Raised) : EndAlike R (.error f) (.error f)

theorem EndAlike.bind {Q R : State → State → Prop} {x x' : Except Raised State} {g g' : State → Except Raised State}
    (h : EndAlike R x x') (next : ∀ u u', x = .ok u → R u u' → EndAlike Q (g u) (g' u')) : EndAlike Q (x >>= g) (x' >>= g') := by
  cases h with
  | ok h => exact next _ _ rfl h
  | error f => exact .error f

/-! ## What two states agree on

From the input to the container, each with one more piece of what `COMPRESS` writes on the way (R230). -/

/-- The configuration and the input bytes, all that the chain starts from. -/
structure SameInput (s s' : State) : Prop where
  canonical : BuffersCanonical s
  canonical' : BuffersCanonical s'
  cfg : s.cfg = s'.cfg
  ilen : s.ilen = s'.ilen
  input : s.input = s'.input

/-- And the counts of `FQ.COUNT`. -/
structure SameCounts (s s' : State) : Prop extends SameInput s s' where
  freq : s.freq = s'.freq

/-- And the tree of `TR.BUILD`. -/
structure SameTree (s s' : State) : Prop extends SameCounts s s' where
  tree : s.tree = s'.tree

/-- And the codes of `TR.CODES`. -/
structure SameCodes (s s' : State) : Prop extends SameTree s s' where
  ct : s.ct = s'.ct

/-- And the packer of `PK.ENCODE`. -/
structure SameStream (s s' : State) : Prop extends SameCodes s s' where
  pk : s.pk = s'.pk

/-- And the payload record of `PK.FLUSH`. -/
structure SamePayload (s s' : State) : Prop extends SameStream s s' where
  pbits : s.pbits = s'.pbits
  payload : s.pbuf.readBytes 0 (ceil8 s.pbits.toNat) = s'.pbuf.readBytes 0 (ceil8 s.pbits.toNat)

/-- And the tree record of `TR.SER`. -/
structure SameRecords (s s' : State) : Prop extends SamePayload s s' where
  nodecnt : s.nodecnt = s'.nodecnt
  sli : s.sli = s'.sli
  record : s.record = s'.record

/-- And the container of `CN.BUILD`, whose count is not negative. -/
structure SameContainer (s s' : State) : Prop extends SameRecords s s' where
  count : 0 ≤ s.nodecnt.toInt
  cksum : s.cksum = s'.cksum
  olen : s.olen = s'.olen
  output : s.obuf.readBytes 0 s.olen.toNat = s'.obuf.readBytes 0 s.olen.toNat

/-! ## The commands of the chain -/

section
variable {s s' : State}

theorem SameInput.inputTooLong (h : SameInput s s') : s.inputTooLong = s'.inputTooLong := by
  rw [State.inputTooLong, State.inputTooLong, h.cfg, h.ilen]

theorem SameInput.fqCount (h : SameInput s s') (freq : s.freq = s'.freq) : EndAlike SameCounts (fqCount s) (fqCount s') := by
  unfold Machine.fqCount
  rw [h.inputTooLong, h.input, freq]
  split
  · exact .error _
  · split
    · exact .error _
    · exact .ok { h with freq := rfl }

theorem SameCounts.trBuild (h : SameCounts s s') : EndAlike SameTree (trBuild s) (trBuild s') := by
  unfold Machine.trBuild
  rw [h.freq]
  split
  · exact .error _
  · split
    · exact .error _
    · exact .ok { h with freq := rfl, tree := rfl }

theorem SameTree.trCodes (h : SameTree s s') : EndAlike SameCodes (trCodes s) (trCodes s') := by
  unfold Machine.trCodes
  rw [h.tree]
  split
  · exact .error _
  · split
    · exact .error _
    · exact .ok { h with tree := rfl, ct := rfl }

theorem SameStream.packBits (h : SameStream s s') (n : Nat) (bits : List Bool) :
    EndAlike SameStream (packBits s n bits) (packBits s' n bits) := by
  unfold Machine.packBits
  rw [h.pk, h.cfg]
  split
  · exact .error _
  · split
    · exact .error _
    · exact .ok { h with cfg := rfl, pk := rfl }

theorem SameStream.pkEncode (h : SameStream s s') : EndAlike SameStream (pkEncode s) (pkEncode s') := by
  unfold Machine.pkEncode
  rw [h.inputTooLong, h.input, h.ct]
  split
  · exact .error _
  · split
    · exact .error _
    · exact h.packBits _ _

/-- A flush writes all of the stream's bytes, so nothing of the payload is left from before. -/
theorem SameStream.pkFlush (h : SameStream s s') (ok : s.pk.Ok s.cfg.pbCap) : SamePayload (pkFlush s) (pkFlush s') := by
  have length := Packer.length_bytes ok
  refine { h with
    canonical := effect_canonical (i := .pkFlush) rfl h.canonical
    canonical' := effect_canonical (i := .pkFlush) rfl h.canonical'
    pbits := congrArg Packer.bitcnt h.pk
    payload := ?_ }
  rw [pkFlush_pbuf, pkFlush_pbuf, pkFlush_pbits, ← h.pk]
  exact (Memory.readBytes_writeBytes_le (h.canonical .pbuf) length.ge).trans
    (Memory.readBytes_writeBytes_le (h.canonical' .pbuf) length.ge).symm

theorem SamePayload.trSer (h : SamePayload s s') : EndAlike SameRecords (trSer s) (trSer s') := by
  cases held : s.tree with
  | none =>
    rw [trSer_of_no_tree held, trSer_of_no_tree (h.tree ▸ held)]
    exact .error _
  | some t =>
    have ran := trSer_of_tree held
    have ran' := trSer_of_tree (h.tree ▸ held)
    rw [ran, ran']
    refine .ok { h with
      canonical := effect_canonical (i := .trSer) ran h.canonical
      canonical' := effect_canonical (i := .trSer) ran' h.canonical'
      nodecnt := rfl
      sli := rfl
      record := ?_ }
    have short : (BitVec.ofNat 16 t.nodes).toInt.toNat ≤ (t.listing.map Prod.fst).length := by
      have unsigned := toNat_ofNat_le 16 t.nodes
      rw [length_listing_fst, BitVec.toInt_eq_toNat_cond]
      split <;> omega
    exact (Memory.readBytes_writeBytes_le (h.canonical .tbuf) short).trans (Memory.readBytes_writeBytes_le (h.canonical' .tbuf) short).symm

theorem SameRecords.content (h : SameRecords s s') : content s = content s' := by
  have record := h.record
  unfold State.record at record
  rw [Machine.content, Machine.content, record, h.payload, h.nodecnt, h.sli, h.pbits]

theorem SameRecords.containerBytes (h : SameRecords s s') : containerBytes s = containerBytes s' := by
  rw [Machine.containerBytes, Machine.containerBytes, h.content, h.cfg]

/-- Records that agree make the same container. -/
theorem SameRecords.built (h : SameRecords s s') {u u' : State} (built : cnBuild s = .ok u) (built' : cnBuild s' = .ok u') :
    SameContainer u u' := by
  have canonical := effect_canonical (i := .cnBuild) built h.canonical
  have canonical' := effect_canonical (i := .cnBuild) built' h.canonical'
  obtain ⟨written, length⟩ := cnBuild_output built
  obtain ⟨written', length'⟩ := cnBuild_output built'
  rw [← h.containerBytes] at written' length'
  have olen : u.olen = u'.olen := BitVec.eq_of_toNat_eq (length.trans length'.symm)
  have output : u.obuf.readBytes 0 u.olen.toNat = u'.obuf.readBytes 0 u.olen.toNat := by
    rw [length, written, written', Memory.readBytes_writeBytes (m := s.obuf) (h.canonical .obuf),
      Memory.readBytes_writeBytes (m := s'.obuf) (h.canonical' .obuf)]
  obtain ⟨count, -, -, rfl⟩ := cnBuild_ok built
  obtain ⟨-, -, -, rfl⟩ := cnBuild_ok built'
  exact { h with
    canonical := canonical, canonical' := canonical', count := count, cksum := by rw [h.cfg, h.content], olen := olen, output := output }

theorem SameRecords.cnBuild (h : SameRecords s s') : EndAlike SameContainer (cnBuild s) (cnBuild s') := by
  by_cases count : s.nodecnt.toInt < 0
  · rw [cnBuild_of_negative_count count, cnBuild_of_negative_count (h.nodecnt ▸ count), h.nodecnt]
    exact .error _
  · have count' : ¬ s'.nodecnt.toInt < 0 := h.nodecnt ▸ count
    by_cases payload : overCap s.cfg.pbCap (ceil8 s.pbits.toNat) = true
    · rw [cnBuild_of_payload_over count payload, cnBuild_of_payload_over count' (h.cfg ▸ h.pbits ▸ payload)]
      exact .error _
    · have payload' : ¬ overCap s'.cfg.pbCap (ceil8 s'.pbits.toNat) = true := h.cfg ▸ h.pbits ▸ payload
      by_cases output : overCap s.cfg.outCap (28 + s.nodecnt.toInt.toNat + ceil8 s.pbits.toNat) = true
      · rw [cnBuild_of_output_over count payload output,
          cnBuild_of_output_over count' payload' (h.cfg ▸ h.nodecnt ▸ h.pbits ▸ output)]
        exact .error _
      · obtain ⟨u, built⟩ := cnBuild_of_fits count payload output
        obtain ⟨u', built'⟩ := cnBuild_of_fits count' payload' (h.cfg ▸ h.nodecnt ▸ h.pbits ▸ output)
        rw [built, built']
        exact .ok (h.built built built')

/-- The nine commands, each on what the ones before it agree on. -/
theorem SameInput.compressChain (h : SameInput s s') : EndAlike SameContainer (compressChain s) (compressChain s') := by
  have start : SameInput (fqClr s) (fqClr s') := { h with }
  refine (start.fqCount rfl).bind fun a a' _ h => h.trBuild.bind fun b b' _ h => h.trCodes.bind fun c c' _ h => ?_
  have stream : SameStream (pkRst c) (pkRst c') := { h with pk := rfl }
  refine stream.pkEncode.bind fun d d' ran h => ?_
  have ok := effect_packerOk (i := .pkEncode) ran (Packer.fresh_ok _)
  exact (h.pkFlush ok).trSer.bind fun e e' _ h => h.cnBuild

/-- `COMPRESS` ends alike: on an empty input with `OLEN = 0`, else with the same container and all on the way to it. -/
theorem SameInput.compress (h : SameInput s s') :
    EndAlike (fun u u' => if s.ilen = 0 then u.olen = 0 ∧ u'.olen = 0 else SameContainer u u') (compress s) (compress s') := by
  by_cases long : s.ilen.toNat > s.cfg.inCap
  · rw [compress_of_long long, compress_of_long (h.ilen ▸ h.cfg ▸ long)]
    exact .error _
  · have short' : ¬ s'.ilen.toNat > s'.cfg.inCap := h.ilen ▸ h.cfg ▸ long
    split
    · next empty =>
      rw [compress_of_empty long empty, compress_of_empty short' (h.ilen ▸ empty)]
      exact .ok ⟨rfl, rfl⟩
    · next nonempty =>
      rw [compress_of_nonempty long nonempty, compress_of_nonempty short' (h.ilen ▸ nonempty)]
      exact h.compressChain

end

end Sys2Proof.Machine

section
open Sys2Proof Sys2Proof.Machine Sys2Proof.Claims

/-- Settles O49: whatever a command of the chain reads is the input or was written by the chain before, so it is the same in both. -/
theorem compressDependsOnInputOnly : Obligations.CompressDependsOnInputOnly := by
  intro s t s' t' canonical canonical' cfg ilen bytes ran ran'
  have input : s.input = s'.input := by
    rw [State.input, State.input, ← ilen]
    exact Memory.readBytes_congr fun i _ inside => bytes i (by omega)
  have alike := SameInput.compress ⟨canonical, canonical', cfg, ilen, input⟩
  replace ran : finish s (compress s) = .next t := ran
  replace ran' : finish s' (compress s') = .next t' := ran'
  generalize compress s = x, compress s' = x' at alike ran ran'
  cases alike with
  | error f =>
    cases ran
    cases ran'
    exact ⟨rfl, rfl, nofun, nofun⟩
  | @ok u u' same =>
    cases ran
    cases ran'
    refine ⟨rfl, rfl, fun _ => ?_, fun _ nonempty => ?_⟩
    · split at same
      · obtain ⟨zero, zero'⟩ := same
        exact ⟨zero.trans zero'.symm, fun i inside => by simp [zero] at inside⟩
      · exact ⟨same.olen, fun i => Memory.read_of_readBytes_eq same.output⟩
    · rw [if_neg nonempty] at same
      refine ⟨same.freq, same.tree, same.ct, same.pk, same.cksum, same.nodecnt, same.sli, fun i inside => ?_, same.pbits,
        fun i inside => ?_⟩
      · have record := same.record
        rw [State.record, State.record, ← same.nodecnt, (Half.toInt_of_nonneg same.count).1, Int.toNat_natCast] at record
        exact Memory.read_of_readBytes_eq record inside
      · exact Memory.read_of_readBytes_eq same.payload (ceil8_eq _ ▸ inside)

end
end

section
/-! SUPPORT. Every access but a command is answered whatever the state (spec/47_system.md R244), and the one word of `NOP` (R240). -/

namespace Sys2Proof.Machine

/-- An access that presents no command has a next state, one equation of `hostAccess` each. -/
theorem exists_hostAccess_next {a : HostAccess} (s : State) (h : ∀ w, a ≠ .command w) : ∃ t, hostAccess a s = .next t := by
  cases a with
  | command w => exact absurd rfl (h w)
  | readReg n => exact ⟨_, rfl⟩
  | writeReg n v => exact ⟨_, rfl⟩
  | readCode sym => exact ⟨_, rfl⟩
  | readFreq sym => exact ⟨_, rfl⟩
  | writeFreq sym v => exact ⟨_, rfl⟩
  | readByte b i => exact ⟨_, rfl⟩
  | writeByte b i v => exact ⟨_, rfl⟩
  | hardReset => exact ⟨_, rfl⟩

/-- A word decodes to a command exactly when it is that command's encoding. -/
theorem decode_eq_ok_iff_eq_encode {w : Word} {i : Instr} : decode w = .ok i ↔ w = encode i :=
  ⟨fun h => (encode_of_decode h).symm, fun h => h ▸ decode_encode i⟩

theorem encode_nop : encode .nop = 0 := rfl

end Sys2Proof.Machine

section
open Sys2Proof Sys2Proof.Machine Sys2Proof.Claims

/-- Settles O8: the access is answered, and a port access that is answered keeps the record. -/
theorem portAccessKeepsFaultRecord : Obligations.PortAccessKeepsFaultRecord := by
  intro s a rest taken notCommand notReset
  obtain ⟨t, ht⟩ := exists_hostAccess_next { s with host := rest } notCommand
  obtain ⟨-, fkind, finfo, fsticky⟩ := portAccess_quiet ht notCommand notReset
  exact ⟨t, (step_takes taken).trans ht, fkind, finfo, fsticky⟩

/-- Settles O17: `NOP`'s encoding is the zero word, and its effect is the state as it was. -/
theorem nopWritesOnlyFaultRecord : Obligations.NopWritesOnlyFaultRecord :=
  ⟨fun _ => encode_nop ▸ decode_eq_ok_iff_eq_encode, fun s => exec_of_ok (i := .nop) (u := s) rfl⟩

/-- Settles O19: the word is `CLRF`'s encoding, and its effect is the flag cleared. -/
theorem clrfClearsStickyFlag : Obligations.ClrfClearsStickyFlag :=
  ⟨decode_encode .clrf, fun s => exec_of_ok (i := .clrf) (u := clearSticky s) rfl⟩

end
end

section
/-! SUPPORT. How a presented command ends, and what each command can raise (spec/60_exceptions.md R251, R260). -/

namespace Sys2Proof.Machine

/-- A completed command leaves the sticky flag as it was, but for the two commands that clear it (R251). -/
theorem effect_fsticky {i : Instr} {s u : State} (h : effect i s = .ok u) :
    u.fsticky = if i = .reset ∨ i = .clrf then false else s.fsticky := by
  split
  · next clears =>
    obtain rfl | rfl := clears <;> cases h <;> rfl
  · next keeps => exact (effect_frame h).fsticky (by simpa using keeps)

end Sys2Proof.Machine

section
open Sys2Proof Sys2Proof.Machine Sys2Proof.Claims

/-- Settles O55: a command writes the whole record, a port access none of it. -/
theorem stepKeepsFaultRecordConsistent : Obligations.StepKeepsFaultRecordConsistent :=
  fun _ _ hs h => step_faultRecordOk h hs

/-- Settles O13: the step is the command's effect, finished and answered. -/
theorem commandCompletesOrFaults : Obligations.CommandCompletesOrFaults := by
  intro s w i rest taken decoded
  have stepped : step s = answered (exec i { s with host := rest }) := (step_takes taken).trans (present_of_decode decoded _)
  cases ran : effect i { s with host := rest } with
  | ok u =>
    rw [exec_of_ok ran] at stepped
    exact ⟨_, stepped, .inl ⟨rfl, rfl, rfl, (effect_fsticky ran :)⟩⟩
  | error f =>
    rw [exec_of_error ran] at stepped
    exact ⟨_, stepped, .inr ⟨f.kind, f.info, rfl⟩⟩

/-- Settles O15: every effect is a state or a fault, and `finish` goes on from both. -/
theorem everyCommandTerminates : Obligations.EveryCommandTerminates := by
  intro i s
  cases ran : effect i s with
  | ok u => exact ⟨_, exec_of_ok ran, .inl ⟨rfl, rfl⟩⟩
  | error f => exact ⟨_, exec_of_error ran, .inr ⟨f.kind, f.info, rfl⟩⟩

/-- Settles O6: with no access to take the step answers the same state. -/
theorem waitingKeepsAllState : Obligations.WaitingKeepsAllState := by
  intro s waiting
  rw [step, waiting]

/-- Settles O12: the codes by the definition, and each of the seventeen kinds is in the list. -/
theorem faultCodesOfEachKind : Obligations.FaultCodesOfEachKind := by
  refine ⟨rfl, rfl, fun k => ?_⟩
  cases k <;> decide

end
end

section
/-! SUPPORT. What each command can raise (spec/60_exceptions.md R260): no other kind of fault, and each of these from some state. -/

namespace Sys2Proof.Machine

open Sys2Proof.Claims

/-! ## No other kind -/

/-- Whatever fault this result is, it is of one of these kinds. -/
def RaisesOnly {α : Type} (ks : List FaultKind) (r : Except Raised α) : Prop := ∀ f, r = .error f → f.kind ∈ ks

namespace RaisesOnly

variable {α β : Type} {ks ls : List FaultKind}

@[simp] theorem ok (x : α) : RaisesOnly ks (.ok x : Except Raised α) := fun _ h => by cases h

@[simp] theorem error_iff {f : Raised} : RaisesOnly ks (.error f : Except Raised α) ↔ f.kind ∈ ks :=
  ⟨fun h => h f rfl, fun h _ e => by cases e; exact h⟩

@[simp] theorem ite_iff {c : Prop} [Decidable c] {x y : Except Raised α} :
    RaisesOnly ks (if c then x else y) ↔ (c → RaisesOnly ks x) ∧ (¬ c → RaisesOnly ks y) := by
  split <;> simp [*]

theorem mono {r : Except Raised α} (h : RaisesOnly ks r) (sub : ks ⊆ ls) : RaisesOnly ls r := fun f e => sub (h f e)

theorem bind {r : Except Raised α} {g : α → Except Raised β} (h : RaisesOnly ks r) (next : ∀ u, r = .ok u → RaisesOnly ks (g u)) :
    RaisesOnly ks (r >>= g) := by
  cases r with
  | ok u => exact next u rfl
  | error f => exact error_iff.2 (error_iff.1 h)

end RaisesOnly

variable {s : State}

theorem ctLoad_raisesOnly (sym : Byte) (s : State) : RaisesOnly (mayRaise (.ctLoad sym)) (ctLoad sym s) := by
  simp [ctLoad, mayRaise]

theorem packBits_raisesOnly (s : State) (n : Nat) (bits : List Bool) : RaisesOnly [.overflow, .capacity] (packBits s n bits) := by
  simp [packBits]

/-- An append that stays below 2^64 bits can only be refused for room (spec/41_packer.md R123). -/
theorem packBits_raisesOnly_capacity {n : Nat} (small : s.pk.bitcnt.toNat + n < 2 ^ 64) (bits : List Bool) :
    RaisesOnly [.capacity] (packBits s n bits) := by
  rw [packBits, if_neg (Nat.not_le.2 small)]
  simp

theorem pkAppend_raisesOnly (sym : Byte) (s : State) : RaisesOnly (mayRaise (.pkAppend sym)) (pkAppend sym s) := by
  unfold pkAppend
  split
  · simp [mayRaise]
  · exact (packBits_raisesOnly s _ _).mono (by simp [mayRaise])

theorem pkEncode_raisesOnly (s : State) : RaisesOnly (mayRaise .pkEncode) (pkEncode s) := by
  refine RaisesOnly.ite_iff.2 ⟨fun _ => by simp [mayRaise], fun _ => ?_⟩
  split
  · next f missing => simp [lookupCodes_error missing, mayRaise]
  · exact (packBits_raisesOnly s _ _).mono (by simp [mayRaise])

theorem fqCount_raisesOnly (s : State) : RaisesOnly (mayRaise .fqCount) (fqCount s) := by
  simp [fqCount, mayRaise]

theorem trBuild_raisesOnly (s : State) : RaisesOnly (mayRaise .trBuild) (trBuild s) := by
  unfold trBuild
  split <;> simp [mayRaise]

theorem trCodes_raisesOnly (s : State) : RaisesOnly (mayRaise .trCodes) (trCodes s) := by
  unfold trCodes
  split
  · simp [mayRaise]
  · split <;> simp [mayRaise]

theorem trSer_raisesOnly (s : State) : RaisesOnly (mayRaise .trSer) (trSer s) := by
  unfold trSer
  split <;> simp [mayRaise]

theorem replay_raisesOnly (x : Int) (i : Nat) (stack : List HuffmanTree) (bs : List Byte) :
    RaisesOnly [.stackUnderflow, .stackResidue, .emptyTree] (replay x i stack bs) := by
  induction bs generalizing i stack with
  | nil =>
    unfold replay replayEnd
    split <;> simp
  | cons b bs ih =>
    refine RaisesOnly.ite_iff.2 ⟨fun _ => ?_, fun _ => ih _ _⟩
    split
    · exact ih _ _
    · simp

theorem trDeser_raisesOnly (s : State) : RaisesOnly (mayRaise .trDeser) (trDeser s) := by
  have replayed := (replay_raisesOnly s.sli.toInt 0 [] (s.tbuf.readBytes 0 s.nodecnt.toInt.toNat)).mono
    (ls := mayRaise .trDeser) (by simp [mayRaise])
  refine RaisesOnly.ite_iff.2 ⟨fun _ => by simp [mayRaise], fun _ => RaisesOnly.ite_iff.2 ⟨fun _ => by simp [mayRaise], fun _ => ?_⟩⟩
  split
  · next f stops => exact RaisesOnly.error_iff.2 (replayed f stops)
  · simp

theorem ckSum_raisesOnly (s : State) : RaisesOnly (mayRaise .ckSum) (ckSum s) := by
  simp [ckSum, mayRaise]

theorem cnBuild_raisesOnly (s : State) : RaisesOnly (mayRaise .cnBuild) (cnBuild s) := by
  simp [cnBuild, mayRaise]

/-- With a node count that is not negative a container can only be refused for room (spec/44_container.md R185). -/
theorem cnBuild_raisesOnly_capacity (count : ¬ s.nodecnt.toInt < 0) : RaisesOnly [.capacity] (cnBuild s) := by
  simp [cnBuild, count]

theorem cnParse_raisesOnly (s : State) : RaisesOnly (mayRaise .cnParse) (cnParse s) := by
  have region (c : Word) (bytes : List Byte) : RaisesOnly (mayRaise .cnParse) (parseRegion s c bytes) := by
    simp [parseRegion, mayRaise]
  simp only [cnParse, raise_eq, RaisesOnly.ite_iff, region]
  simp [mayRaise]

theorem upDecode_raisesOnly (s : State) : RaisesOnly (mayRaise .upDecode) (upDecode s) := by
  unfold upDecode
  split <;> simp [mayRaise]

/-- With a tree held the payload and the output can only be refused for room (spec/45_unpacker.md R210). -/
theorem upDecode_raisesOnly_capacity {t : HuffmanTree} (held : s.tree = some t) : RaisesOnly [.capacity] (upDecode s) := by
  simp [upDecode, held]

/-! ## The entry points -/

theorem decompressChain_raisesOnly (s : State) : RaisesOnly (mayRaise .decompress) (decompressChain s) := by
  refine ((cnParse_raisesOnly s).mono (by simp [mayRaise])).bind fun a _ => ?_
  refine ((trDeser_raisesOnly a).mono (by simp [mayRaise])).bind fun b deser => ?_
  obtain ⟨-, -, t, -, rfl⟩ := trDeser_ok deser
  exact (upDecode_raisesOnly_capacity rfl).mono (by simp [mayRaise])

theorem decompress_raisesOnly (s : State) : RaisesOnly (mayRaise .decompress) (decompress s) := by
  refine RaisesOnly.ite_iff.2 ⟨fun _ => by simp [mayRaise], fun _ => RaisesOnly.ite_iff.2 ⟨fun _ => .ok _, fun _ => ?_⟩⟩
  exact decompressChain_raisesOnly s

section
variable (range : s.cfg.InRange)
include range

/-- The counts of a non-empty input have a tree: they are not all 0, and their sum is the length (spec/42_tree_build.md R142). -/
theorem trBuild_of_input (nonempty : s.ilen ≠ 0) {fq : Vector DWord Config.symbolCount}
    (counts : ∀ y, (tableGet fq y).toNat = s.input.count y) :
    ∃ tr, trBuild { s with freq := fq } = .ok { s with freq := fq, tree := some tr } ∧ BuiltFrom fq tr := by
  have length : s.input.length = s.ilen.toNat := by rw [input_eq_inputBytes, length_inputBytes]
  have sum : countSum fq = s.ilen.toNat := by
    rw [countSum_eq, totalCount_eq, ← length, ← sum_counts]
    simp only [counts]
  have pos : 0 < s.ilen.toNat := Nat.pos_of_ne_zero fun zero => nonempty (BitVec.eq_of_toNat_eq zero)
  obtain ⟨y, occurs⟩ := List.exists_mem_of_length_pos (length ▸ pos)
  have present : ¬ ∀ y, tableGet fq y = 0 := fun zero => by
    have count := counts y
    rw [zero] at count
    exact absurd (List.count_pos_iff.2 occurs) (count ▸ lt_irrefl _)
  have small : ¬ countSum fq ≥ 2 ^ 64 := by
    have := range.2
    omega
  exact trBuild_of_fits (s := { s with freq := fq }) present small

variable (short : s.ilen.toNat ≤ s.cfg.inCap)
include short

/-- On cleared counts `FQ.COUNT` cannot overflow: no byte occurs more often than the input is long. -/
theorem fqCount_fqClr : ∃ fq, fqCount (fqClr s) = .ok { s with freq := fq } ∧ ∀ y, (tableGet fq y).toNat = s.input.count y := by
  have zero (y : Byte) : (tableGet (fqClr s).freq y).toNat = 0 := congrArg BitVec.toNat (tableGet_zeroCounts y)
  have small (y : Byte) : (tableGet (fqClr s).freq y).toNat + (inputBytes s).count y < 2 ^ 64 := by
    have le := List.count_le_length (a := y) (l := inputBytes s)
    rw [length_inputBytes] at le
    have := range.2
    rw [zero]
    omega
  refine ⟨_, fqCount_of_fits (s := fqClr s) short small, fun y => ?_⟩
  have counted := tableGet_countedTable ((counted_input (fqClr s) y).trans_lt (small y))
  rw [zero, Nat.zero_add] at counted
  exact counted

/-- The codes of a tree built from the input are there for every byte of it, and short enough for 2^64 bits in all. -/
theorem pkEncode_pkRst_raisesOnly {tr : HuffmanTree} {fq : Vector DWord Config.symbolCount} (built : BuiltFrom fq tr)
    (counts : ∀ y, (tableGet fq y).toNat = s.input.count y) (codes : s.ct = writeCodes emptyCodes tr.codes) :
    RaisesOnly [.capacity] (pkEncode (pkRst s)) := by
  have coded : ∀ b ∈ inputBytes s, tableGet s.ct b ≠ none := fun b hb => by
    rwa [codes, tableGet_codes_ne_none_iff, ← mem_input_iff counts built, input_eq_inputBytes]
  have bits : (codeBits s.ct (inputBytes s)).length ≤ 255 * s.ilen.toNat := by
    rw [← length_inputBytes]
    exact length_codeBits_le (fun y c entry => built.code_length_le (codes ▸ entry)) _
  have zero : (pkRst s).pk.bitcnt.toNat = 0 := rfl
  have small : (pkRst s).pk.bitcnt.toNat + (codeBits s.ct (inputBytes s)).length < 2 ^ 64 := by
    have := range.2
    omega
  rw [pkEncode_of_codes (s := pkRst s) short coded]
  exact packBits_raisesOnly_capacity small _

/-- The chain of `COMPRESS` on a non-empty input can only run out of room (R260). -/
theorem compressChain_raisesOnly (nonempty : s.ilen ≠ 0) : RaisesOnly [.capacity] (compressChain s) := by
  obtain ⟨fq, counted, counts⟩ := fqCount_fqClr range short
  obtain ⟨tr, build, built⟩ := trBuild_of_input range nonempty counts
  have derived := trCodes_of_shallow (s := { s with freq := fq, tree := some tr }) rfl
    (HuffmanTree.tooDeep_eq_none (Nat.le_succ_of_le built.depth_le))
  have chain : compressChain s = pkEncode (pkRst { s with freq := fq, tree := some tr, ct := writeCodes emptyCodes tr.codes })
      >>= fun u => trSer (pkFlush u) >>= cnBuild := by
    simp only [compressChain, bind, Except.bind, counted, build, derived]
  rw [chain]
  refine .bind (pkEncode_pkRst_raisesOnly range short built counts rfl) fun u encoded => ?_
  obtain ⟨-, _, -, append⟩ := pkEncode_ok encoded
  obtain ⟨-, -, rfl⟩ := packBits_ok append
  rw [trSer_of_tree (t := tr) rfl]
  refine cnBuild_raisesOnly_capacity (Int.not_lt.2 ?_)
  rw [tr.toInt_nodes built.ok]
  exact Int.natCast_nonneg _

end

theorem compress_raisesOnly (range : s.cfg.InRange) : RaisesOnly (mayRaise .compress) (compress s) := by
  refine RaisesOnly.ite_iff.2 ⟨fun _ => by simp [mayRaise], fun short => RaisesOnly.ite_iff.2 ⟨fun _ => .ok _, fun nonempty => ?_⟩⟩
  exact compressChain_raisesOnly range (State.not_inputTooLong.1 short) nonempty

/-- Every command raises only the faults listed for it (R260). -/
theorem effect_raisesOnly (i : Instr) (range : s.cfg.InRange) : RaisesOnly (mayRaise i) (effect i s) := by
  cases i with
  | nop | reset | clrf | ctClr | pkRst | pkFlush | fqClr => exact .ok _
  | ctLoad sym => exact ctLoad_raisesOnly sym s
  | pkAppend sym => exact pkAppend_raisesOnly sym s
  | pkEncode => exact pkEncode_raisesOnly s
  | fqCount => exact fqCount_raisesOnly s
  | trBuild => exact trBuild_raisesOnly s
  | trCodes => exact trCodes_raisesOnly s
  | trSer => exact trSer_raisesOnly s
  | trDeser => exact trDeser_raisesOnly s
  | ckSum => exact ckSum_raisesOnly s
  | cnBuild => exact cnBuild_raisesOnly s
  | cnParse => exact cnParse_raisesOnly s
  | upDecode => exact upDecode_raisesOnly s
  | compress => exact compress_raisesOnly range
  | decompress => exact decompress_raisesOnly s

/-! ## Each of these

A state for each kind, near reset, on which the command is evaluated. -/

/-- The command raises this kind of fault from some state, with its capacities in the range of R10. -/
def CanRaise (i : Instr) (k : FaultKind) : Prop := ∃ s : State, s.cfg.InRange ∧ ∃ info, effect i s = raise k info

theorem reference_inRange : Config.reference.InRange := by decide

/-- The command raises this kind in this state of the reference configuration. -/
theorem canRaise_of_raise {i : Instr} {k : FaultKind} {info : Nat} (s : State) (h : effect i s = raise k info)
    (range : s.cfg.InRange := by exact reference_inRange) : CanRaise i k :=
  ⟨s, range, info, h⟩

/-- Reset, with `ILEN` as long as it can be. -/
def longInput : State := { State.reset with ilen := -1 }

/-- Reset, with `IBUF` beginning with these bytes, and this `ILEN`. -/
def holdingInput (bs : List Byte) (ilen : DWord) : State := { State.reset with ibuf := Memory.writeBytes [] 0 bs, ilen := ilen }

/-- Reset, with the container of this state's records in `IBUF`. -/
def holdingContainer (r : State) : State := holdingInput (containerBytes r) (BitVec.ofNat 64 (containerBytes r).length)

/-- Reset, with a code of one bit for every symbol. -/
def coded : State := { State.reset with ct := Vector.replicate Config.symbolCount (some { sym := 0, bits := [false] }) }

/-- Reset, under a payload buffer of no bytes. -/
def noPayload (s : State) : State := { s with cfg := { s.cfg with pbCap := some 0 } }

/-- A packer with as many bits as `BITCNT` can count. -/
def Packer.full : Packer := { buf := [], part := 0, bitcnt := -1 }

/-- A tree whose first leaf is `n` deep. -/
def leftSpine : Nat → HuffmanTree
  | 0 => .leaf 1 0
  | n + 1 => .node 0 (leftSpine n) (.leaf 0 0)

theorem tableGet_coded (sym : Byte) : tableGet coded.ct sym = some { sym := 0, bits := [false] } := by
  simp [coded, tableGet]

theorem canRaise_pkAppend (sym : Byte) : ∀ k ∈ mayRaise (.pkAppend sym), CanRaise (.pkAppend sym) k := by
  have missing : pkAppend sym State.reset = raise .missingCode sym.toNat := pkAppend_of_none (tableGet_emptyCodes sym)
  have overflow : pkAppend sym { coded with pk := Packer.full } = raise .overflow 3 := by
    rw [pkAppend_of_code (s := { coded with pk := Packer.full }) (tableGet_coded sym)]
    rfl
  have capacity : pkAppend sym (noPayload coded) = raise .capacity 4 := by
    rw [pkAppend_of_code (s := noPayload coded) (tableGet_coded sym)]
    rfl
  simp only [mayRaise, List.forall_mem_cons]
  exact ⟨canRaise_of_raise _ missing, canRaise_of_raise _ overflow, canRaise_of_raise _ capacity, nofun⟩

theorem canRaise_pkEncode : ∀ k ∈ mayRaise .pkEncode, CanRaise .pkEncode k := by
  have missing : pkEncode (holdingInput [] 1) = raise .missingCode 0 := by decide +kernel
  have overflow : pkEncode { coded with ilen := 1, pk := Packer.full } = raise .overflow 3 := by decide +kernel
  simp only [mayRaise, List.forall_mem_cons]
  exact ⟨canRaise_of_raise longInput rfl, canRaise_of_raise _ missing, canRaise_of_raise _ overflow, nofun⟩

theorem canRaise_fqCount : ∀ k ∈ mayRaise .fqCount, CanRaise .fqCount k := by
  have overflow : fqCount { holdingInput [] 1 with freq := Vector.replicate Config.symbolCount (-1) } = raise .overflow 1 := by
    decide +kernel
  simp only [mayRaise, List.forall_mem_cons]
  exact ⟨canRaise_of_raise longInput rfl, canRaise_of_raise _ overflow, nofun⟩

theorem canRaise_trBuild : ∀ k ∈ mayRaise .trBuild, CanRaise .trBuild k := by
  have overflow : effect .trBuild { State.reset with freq := Vector.replicate Config.symbolCount (-1) } = raise .overflow 2 := by
    decide +kernel
  simp only [mayRaise, List.forall_mem_cons]
  exact ⟨canRaise_of_raise State.reset (trBuild_of_no_count (s := State.reset) tableGet_zeroCounts), canRaise_of_raise _ overflow, nofun⟩

theorem canRaise_trCodes : ∀ k ∈ mayRaise .trCodes, CanRaise .trCodes k := by
  have deep : effect .trCodes { State.reset with tree := some (leftSpine 257) } = raise .limitExceeded 257 := by decide +kernel
  simp only [mayRaise, List.forall_mem_cons]
  exact ⟨canRaise_of_raise State.reset (trCodes_of_no_tree (s := State.reset) rfl), canRaise_of_raise _ deep, nofun⟩

/-- The count and the index out of range, then a lone marker, two leaves, and no node (spec/43_tree_codec.md R164, R167). -/
theorem canRaise_trDeser : ∀ k ∈ mayRaise .trDeser, CanRaise .trDeser k := by
  simp only [mayRaise, List.forall_mem_cons]
  exact ⟨canRaise_of_raise { State.reset with nodecnt := -1 } rfl, canRaise_of_raise { State.reset with sli := 0 } rfl,
    canRaise_of_raise { State.reset with nodecnt := 1 } rfl,
    canRaise_of_raise { State.reset with nodecnt := 2, tbuf := [(0, 1), (1, 1)] } rfl, canRaise_of_raise State.reset rfl, nofun⟩

theorem canRaise_cnBuild : ∀ k ∈ mayRaise .cnBuild, CanRaise .cnBuild k := by
  simp only [mayRaise, List.forall_mem_cons]
  exact ⟨canRaise_of_raise { State.reset with nodecnt := -1 } rfl, canRaise_of_raise (noPayload { State.reset with pbits := 1 }) rfl,
    nofun⟩

theorem canRaise_upDecode : ∀ k ∈ mayRaise .upDecode, CanRaise .upDecode k := by
  simp only [mayRaise, List.forall_mem_cons]
  exact ⟨canRaise_of_raise State.reset rfl,
    canRaise_of_raise (noPayload { State.reset with pbits := 1, tree := some (leftSpine 0) }) rfl, nofun⟩

/-- Each check of `CN.PARSE` fails on some input that is not empty (spec/44_container.md R188): one too long, one too short, one without
the magic, a declared length too long, a checksum of 0, and then, under a right header, a region of no bytes, one whose index is not
below its count, and one without a bit count. -/
theorem exists_cnParse_raise :
    ∀ k ∈ mayRaise .cnParse, ∃ s : State, s.cfg.InRange ∧ s.ilen ≠ 0 ∧ ∃ info, cnParse s = raise k info := by
  have length : cnParse (holdingInput (headerBytes 0 13) 28) = raise .contentLengthOverflow 13 := by decide +kernel
  have sum : cnParse (holdingInput (headerBytes 0 0) 28) = raise .checksumMismatch 0x100000000 := by decide +kernel
  have count : cnParse (holdingInput (headerBytes 1 0) 28) = raise .treeRegionOverflow 0 := by decide +kernel
  have index : cnParse (holdingInput (headerBytes 923521 4) 28) = raise .specialLeafIndexRange 0 := by decide +kernel
  have payload : cnParse (holdingInput (headerBytes 931681 4 ++ [0x00, 0x00, 0xFF, 0xFF]) 28) = raise .payloadRegionOverflow 4 := by
    decide +kernel
  have witness {k : FaultKind} {info : Nat} (bs : List Byte) {n : DWord} (h : cnParse (holdingInput bs n) = raise k info) (pos : n ≠ 0) :
      ∃ s : State, s.cfg.InRange ∧ s.ilen ≠ 0 ∧ ∃ info, cnParse s = raise k info := ⟨_, reference_inRange, pos, info, h⟩
  simp only [mayRaise, List.forall_mem_cons]
  exact ⟨witness [] (n := -1) rfl (by decide), witness [] (n := 1) rfl (by decide), witness [] (n := 28) rfl (by decide),
    witness _ length (by decide), witness _ sum (by decide), witness _ count (by decide), witness _ index (by decide),
    witness _ payload (by decide), nofun⟩

theorem canRaise_cnParse : ∀ k ∈ mayRaise .cnParse, CanRaise .cnParse k := by
  intro k listed
  obtain ⟨s, range, -, raises⟩ := exists_cnParse_raise k listed
  exact ⟨s, range, raises⟩

/-- On a non-empty input `DECOMPRESS` begins with `CN.PARSE` (spec/46_entry_points.md R231), and raises what that raises. -/
theorem decompress_of_cnParse_raise {k : FaultKind} {info : Nat} (nonempty : s.ilen ≠ 0) (h : cnParse s = raise k info) :
    decompress s = raise k info := by
  by_cases long : s.ilen.toNat > s.cfg.inCap
  · rw [decompress_of_long long, ← h, cnParse_of_long long]
  · rw [decompress_of_nonempty long nonempty, decompressChain, h]
    rfl

/-- The checks of `CN.PARSE`, and the records of `canRaise_trDeser` in a container. -/
theorem canRaise_decompress : ∀ k ∈ mayRaise .decompress, CanRaise .decompress k := by
  have underflow : decompress (holdingContainer { State.reset with nodecnt := 1 }) = raise .stackUnderflow 0 := by decide +kernel
  have residue : decompress (holdingContainer { State.reset with nodecnt := 2, tbuf := [(0, 1), (1, 1)] }) = raise .stackResidue 2 := by
    decide +kernel
  have empty : decompress (holdingContainer State.reset) = raise .emptyTree 0 := by decide +kernel
  have records : ∀ k ∈ [FaultKind.stackUnderflow, .stackResidue, .emptyTree], CanRaise .decompress k := by
    simp only [List.forall_mem_cons]
    exact ⟨canRaise_of_raise _ underflow, canRaise_of_raise _ residue, canRaise_of_raise _ empty, nofun⟩
  have parse : ∀ k ∈ mayRaise .cnParse, CanRaise .decompress k := by
    intro k listed
    obtain ⟨s, range, nonempty, info, raises⟩ := exists_cnParse_raise k listed
    exact ⟨s, range, info, decompress_of_cnParse_raise nonempty raises⟩
  exact List.forall_mem_append.2 ⟨parse, records⟩

/-- Every command can raise each fault listed for it (R260). -/
theorem canRaise (i : Instr) : ∀ k ∈ mayRaise i, CanRaise i k := by
  cases i with
  | nop | reset | clrf | ctClr | pkRst | pkFlush | fqClr => exact nofun
  | ctLoad sym => exact List.forall_mem_singleton.2 (canRaise_of_raise { State.reset with clen := 257 } rfl)
  | pkAppend sym => exact canRaise_pkAppend sym
  | pkEncode => exact canRaise_pkEncode
  | fqCount => exact canRaise_fqCount
  | trBuild => exact canRaise_trBuild
  | trCodes => exact canRaise_trCodes
  | trSer => exact List.forall_mem_singleton.2 (canRaise_of_raise State.reset rfl)
  | trDeser => exact canRaise_trDeser
  | ckSum => exact List.forall_mem_singleton.2 (canRaise_of_raise longInput rfl)
  | cnBuild => exact canRaise_cnBuild
  | cnParse => exact canRaise_cnParse
  | upDecode => exact canRaise_upDecode
  | compress => exact List.forall_mem_singleton.2 (canRaise_of_raise longInput rfl)
  | decompress => exact canRaise_decompress

end Sys2Proof.Machine

section
open Sys2Proof Sys2Proof.Machine Sys2Proof.Claims

/-- Settles O14: the upper bound command by command, a state for each kind, and a word without a command is an illegal one. -/
theorem commandsRaiseExactlyTheirFaults : Obligations.CommandsRaiseExactlyTheirFaults := by
  refine ⟨fun i s t k range ran kind => ?_, fun i k listed => ?_, fun w s t rest undecoded taken ran => ?_⟩
  · rcases exec_next ran with ⟨u, -, rfl⟩ | ⟨f, raised, rfl⟩
    · cases kind
    · cases kind
      exact effect_raisesOnly i range f raised
  · obtain ⟨s, range, info, raised⟩ := canRaise i k listed
    exact ⟨s, _, range, exec_of_raise raised, rfl⟩
  · have illegal : IllegalWord w := by
      by_contra legal
      obtain ⟨i, decoded⟩ := exists_decode_of_not_illegalWord legal
      exact undecoded i decoded
    rw [step_takes taken, hostAccess, present_of_illegalWord illegal] at ran
    cases ran
    rfl

end
end
